-- ==== Sys2Proof/Word.lean ====
section
/-! DEFINITION. The two word types of KEB (spec/00_scope.md R18): every byte is 8 bits, every timestamp and
duration an unsigned 32-bit value. -/

namespace Sys2Proof

/-- A byte KEB stores or emits (R18). -/
abbrev Byte := BitVec 8

/-- A u32 timestamp or duration in microseconds (R18). -/
abbrev U32 := BitVec 32

end Sys2Proof
end

