-- ==== Sys2Proof/Syntax.lean ====
section
/-! DEFINITION. The operations of the command port and the two message formats, one constructor per row of
spec/opcode_table.json, and the units of bits they are carried in (spec/30_encoding.md R100, R111, R112). -/

namespace Sys2Proof

/-- Which of a bank's two contact lines is meant: operand W of SNAP_READ (R112), and the read of
spec/41_key_state_machine.md R162. -/
inductive Line where
  | startLine
  | endLine
  deriving DecidableEq, Repr

/-- The rows of the opcode table: 22 operations of format OP8 (R114) and the two MIDI3 messages (R106, R107). -/
inductive Instr where
  | srBeginPass
  | srStep
  | snapRead (w : Line)
  | scanBank (bk : Byte)
  | elapsed (t0 t1 : U32)
  | ksmStart (k : Byte) (d : Bool) (t0 : U32)
  | ksmEnd (k : Byte) (d : Bool) (t0 : U32)
  | velmap (t0 : U32)
  | notenum (k : Byte)
  | encOn (k v : Byte)
  | encOff (k : Byte)
  | emitHit (k : Byte) (t0 : U32)
  | emitRel (k : Byte)
  | rbIsEmpty
  | rbIsFull
  | rbTryPop
  | rbDrain
  | rbPush (b : Byte)
  | scanPass
  | loopIter
  | run
  | init
  | midiNoteOn (c n v : Byte)
  | midiNoteOff (c n : Byte)
  deriving DecidableEq, Repr

/-- A command in the spec's assembler form: the mnemonic, then `port=value` pairs, values in decimal (R122). A MIDI3
message has no assembler form; it is written in the same way with the fields of R106, R107. -/
def Instr.text : Instr → String
  | .srBeginPass => "SR_BEGIN_PASS"
  | .srStep => "SR_STEP"
  | .snapRead .startLine => "SNAP_READ W=0"
  | .snapRead .endLine => "SNAP_READ W=1"
  | .scanBank bk => "SCAN_BANK BK=" ++ toString bk.toNat
  | .elapsed t0 t1 => "ELAPSED T0=" ++ toString t0.toNat ++ ", T1=" ++ toString t1.toNat
  | .ksmStart k d t0 =>
    "KSM_START K=" ++ toString k.toNat ++ ", D=" ++ toString d.toNat ++ ", T0=" ++ toString t0.toNat
  | .ksmEnd k d t0 =>
    "KSM_END K=" ++ toString k.toNat ++ ", D=" ++ toString d.toNat ++ ", T0=" ++ toString t0.toNat
  | .velmap t0 => "VELMAP T0=" ++ toString t0.toNat
  | .notenum k => "NOTENUM K=" ++ toString k.toNat
  | .encOn k v => "ENC_ON K=" ++ toString k.toNat ++ ", V=" ++ toString v.toNat
  | .encOff k => "ENC_OFF K=" ++ toString k.toNat
  | .emitHit k t0 => "EMIT_HIT K=" ++ toString k.toNat ++ ", T0=" ++ toString t0.toNat
  | .emitRel k => "EMIT_REL K=" ++ toString k.toNat
  | .rbIsEmpty => "RB_IS_EMPTY"
  | .rbIsFull => "RB_IS_FULL"
  | .rbTryPop => "RB_TRY_POP"
  | .rbDrain => "RB_DRAIN"
  | .rbPush b => "RB_PUSH BY=" ++ toString b.toNat
  | .scanPass => "SCAN_PASS"
  | .loopIter => "LOOP_ITER"
  | .run => "RUN"
  | .init => "INIT"
  | .midiNoteOn c n v =>
    "MIDI_NOTE_ON c=" ++ toString c.toNat ++ ", n=" ++ toString n.toNat ++ ", v=" ++ toString v.toNat
  | .midiNoteOff c n => "MIDI_NOTE_OFF c=" ++ toString c.toNat ++ ", n=" ++ toString n.toNat

/-- The command port as one command finds it: OPSEL and the operand ports of R112. The spec gives K and BK the widths
that NUM_KEYS and NUM_BANKS need; the model's are 8 bits (DESIGN CHOICE, log 6). -/
structure Ports where
  opsel : Byte
  k : Byte
  bk : Byte
  d : BitVec 1
  w : BitVec 1
  t0 : U32
  t1 : U32
  v : Byte
  b : Byte
  deriving DecidableEq, Repr

/-- A unit of bits in one of the formats OP8 and MIDI3 (R100). The bytes of a message stand in sending order (R108). -/
inductive Wire where
  | op8 (p : Ports)
  | midi3 (status note velocity : Byte)
  deriving DecidableEq, Repr

end Sys2Proof
end

