-- ==== Sys2Proof/WellFormed.lean ====
section
/-! DEFINITION. Which terms of `Instr` an encoding exists for. An operand port holds every value of its type; whether a
value is legal depends on CFG and is tested when the command is executed (spec/30_encoding.md R116, R120). Only the
fields of a MIDI3 message are narrower than the byte the term gives them (R108). -/

namespace Sys2Proof

/-- The channel is a 4-bit field (R106). -/
def wfChannel (c : Byte) : Bool := decide (c.toNat < 16)

/-- A data byte has bit 7 = 0 (R108). -/
def wfData (x : Byte) : Bool := decide (x.toNat < 128)

/-- An instruction is well formed when each of its fields fits its encoding. -/
def Instr.wf : Instr → Bool
  | .srBeginPass => true
  | .srStep => true
  | .snapRead _ => true
  | .scanBank _ => true
  | .elapsed _ _ => true
  | .ksmStart _ _ _ => true
  | .ksmEnd _ _ _ => true
  | .velmap _ => true
  | .notenum _ => true
  | .encOn _ _ => true
  | .encOff _ => true
  | .emitHit _ _ => true
  | .emitRel _ => true
  | .rbIsEmpty => true
  | .rbIsFull => true
  | .rbTryPop => true
  | .rbDrain => true
  | .rbPush _ => true
  | .scanPass => true
  | .loopIter => true
  | .run => true
  | .init => true
  | .midiNoteOn c n v => wfChannel c && wfData n && wfData v
  | .midiNoteOff c n => wfChannel c && wfData n

end Sys2Proof
end

