-- ==== Sys2Proof/Decode.lean ====
section
/-! DEFINITION. The decoder, total on every unit of bits and rejecting by name (spec/30_encoding.md R115, R118), and the
encoder, both written from the tables of R106, R107, R112 and R114. -/

namespace Sys2Proof

/-- Why a unit of bits is no row of the opcode table. -/
inductive DecodeError where
  /-- An OPSEL value that R114 does not list (R118). -/
  | reservedOpcode (opsel : Byte)
  /-- Three bytes that are neither a Note On nor a Note Off of R106, R107. -/
  | notAMessage (status note velocity : Byte)
  deriving DecidableEq, Repr

/-- Port W: 0 is the start line, 1 the end line (R112). -/
def lineOfPort (w : BitVec 1) : Line := if w = 0 then .startLine else .endLine

/-- Port W for a line (R112). -/
def portOfLine : Line → BitVec 1
  | .startLine => 0
  | .endLine => 1

/-- Port D: 1 means the contact is closed (R112). -/
def boolOfPort (d : BitVec 1) : Bool := decide (d = 1)

/-- The operation map of R114, matched on all eight bits of OPSEL (R115). -/
def decodePorts (p : Ports) : Except DecodeError Instr :=
  match p.opsel.toNat with
  | 0x01 => .ok .srBeginPass
  | 0x02 => .ok .srStep
  | 0x03 => .ok (.snapRead (lineOfPort p.w))
  | 0x04 => .ok (.scanBank p.bk)
  | 0x10 => .ok (.elapsed p.t0 p.t1)
  | 0x11 => .ok (.ksmStart p.k (boolOfPort p.d) p.t0)
  | 0x12 => .ok (.ksmEnd p.k (boolOfPort p.d) p.t0)
  | 0x20 => .ok (.velmap p.t0)
  | 0x30 => .ok (.notenum p.k)
  | 0x31 => .ok (.encOn p.k p.v)
  | 0x32 => .ok (.encOff p.k)
  | 0x33 => .ok (.emitHit p.k p.t0)
  | 0x34 => .ok (.emitRel p.k)
  | 0x40 => .ok .rbIsEmpty
  | 0x41 => .ok .rbIsFull
  | 0x42 => .ok .rbTryPop
  | 0x43 => .ok .rbDrain
  | 0x44 => .ok (.rbPush p.b)
  | 0x50 => .ok .scanPass
  | 0x51 => .ok .loopIter
  | 0x52 => .ok .run
  | 0xF0 => .ok .init
  | _ => .error (.reservedOpcode p.opsel)

/-- The MIDI3 formats of R106-R108: type in bits 7..4 of the status byte, channel in bits 3..0, bit 7 of both data bytes
0, and the velocity of a Note Off 0. -/
def decodeMessage (status note velocity : Byte) : Except DecodeError Instr :=
  if status >>> 4 = 0x9 ∧ note.toNat < 128 ∧ velocity.toNat < 128 then
    .ok (.midiNoteOn (status &&& 0x0F) note velocity)
  else if status >>> 4 = 0x8 ∧ note.toNat < 128 ∧ velocity = 0 then
    .ok (.midiNoteOff (status &&& 0x0F) note)
  else
    .error (.notAMessage status note velocity)

/-- The decoder. -/
def decode : Wire → Except DecodeError Instr
  | .op8 p => decodePorts p
  | .midi3 status note velocity => decodeMessage status note velocity

/-- A command with every operand port at 0. -/
def Ports.ofOpsel (opsel : Byte) : Ports :=
  { opsel, k := 0, bk := 0, d := 0, w := 0, t0 := 0, t1 := 0, v := 0, b := 0 }

/-- The bits of an instruction (R106, R107, R114); a port the operation does not read is 0. -/
def encode : Instr → Wire
  | .srBeginPass => .op8 (.ofOpsel 0x01)
  | .srStep => .op8 (.ofOpsel 0x02)
  | .snapRead w => .op8 { Ports.ofOpsel 0x03 with w := portOfLine w }
  | .scanBank bk => .op8 { Ports.ofOpsel 0x04 with bk }
  | .elapsed t0 t1 => .op8 { Ports.ofOpsel 0x10 with t0, t1 }
  | .ksmStart k d t0 => .op8 { Ports.ofOpsel 0x11 with k, d := BitVec.ofBool d, t0 }
  | .ksmEnd k d t0 => .op8 { Ports.ofOpsel 0x12 with k, d := BitVec.ofBool d, t0 }
  | .velmap t0 => .op8 { Ports.ofOpsel 0x20 with t0 }
  | .notenum k => .op8 { Ports.ofOpsel 0x30 with k }
  | .encOn k v => .op8 { Ports.ofOpsel 0x31 with k, v }
  | .encOff k => .op8 { Ports.ofOpsel 0x32 with k }
  | .emitHit k t0 => .op8 { Ports.ofOpsel 0x33 with k, t0 }
  | .emitRel k => .op8 { Ports.ofOpsel 0x34 with k }
  | .rbIsEmpty => .op8 (.ofOpsel 0x40)
  | .rbIsFull => .op8 (.ofOpsel 0x41)
  | .rbTryPop => .op8 (.ofOpsel 0x42)
  | .rbDrain => .op8 (.ofOpsel 0x43)
  | .rbPush b => .op8 { Ports.ofOpsel 0x44 with b }
  | .scanPass => .op8 (.ofOpsel 0x50)
  | .loopIter => .op8 (.ofOpsel 0x51)
  | .run => .op8 (.ofOpsel 0x52)
  | .init => .op8 (.ofOpsel 0xF0)
  | .midiNoteOn c n v => .midi3 (0x90 ||| c) n v
  | .midiNoteOff c n => .midi3 (0x80 ||| c) n 0

/-- The unit of bits that an opcode-table word stands for. An 8-bit row gives OPSEL, every operand port 0. A 24-bit row
is a message whose first byte on the wire is bits 23..16 of the table's number (R108, log 16). -/
def wireOfTableWord (nbits w : Nat) : Wire :=
  if nbits = 24 then
    .midi3 (BitVec.ofNat 8 (w / 65536)) (BitVec.ofNat 8 (w / 256)) (BitVec.ofNat 8 w)
  else .op8 (.ofOpsel (BitVec.ofNat 8 w))

/-- The instruction the decoder reads from an opcode-table word. -/
def decodeTableWord (nbits w : Nat) : Option Instr :=
  match decode (wireOfTableWord nbits w) with
  | .ok i => some i
  | .error _ => none

end Sys2Proof
end

