-- ==== Sys2Proof/Config.lean ====
section
/-! DEFINITION. CFG, the compile-time configuration (spec/00_scope.md R7-R19, spec/10_state.md R48), and the free values
of the environment (spec/92_eei_decisions.md D22). CFG is a parameter: no operation writes it, and every claim about the
machine holds for every value of it. The fields are as wide as the checks of spec/60_exceptions.md R325 need, so that
each of the nine checks can fail (log 14). -/

namespace Sys2Proof

/-- The configuration record CFG (R48). The fields the spec calls integers are `Int` or `Nat`, so that a value outside
its legal range can be written down and refused by INIT. -/
structure Cfg where
  numBanks : Nat
  keysPerBank : Nat
  debounceUs : Int
  minKeyTimeUs : U32
  maxKeyTimeUs : U32
  minVelocity : Int
  maxVelocity : Int
  noteOffset : Int
  rbCapacity : Nat
  midiChannel : Nat
  pinReset : Nat
  pinData : Nat
  pinClock : Nat
  pinLatch : Nat
  inputPins : Vector Nat 8
  srResetActive : Nat
  latchRequired : Bool
  tSrUs : U32
  deriving DecidableEq, Repr

/-- `NUM_KEYS = NUM_BANKS × KEYS_PER_BANK` (R10). -/
def Cfg.numKeys (c : Cfg) : Nat := c.numBanks * c.keysPerBank

/-- The twelve pins of R19: four control pins, then the eight input pins. -/
def Cfg.pins (c : Cfg) : List Nat :=
  c.pinReset :: c.pinData :: c.pinClock :: c.pinLatch :: c.inputPins.toList

/-- The configuration `State.reset` carries: the spec's defaults for the key times (R12) and the test configuration
of spec/92_eei_decisions.md D28. DESIGN CHOICE (log 2), unsafe for a claim that rests on these values: the pin numbers
and `T_SR_US` are the model's. -/
def Cfg.atReset : Cfg where
  numBanks := 2
  keysPerBank := 8
  debounceUs := 5000
  minKeyTimeUs := 2900
  maxKeyTimeUs := 80000
  minVelocity := 1
  maxVelocity := 127
  noteOffset := 21
  rbCapacity := 8
  midiChannel := 0
  pinReset := 0
  pinData := 1
  pinClock := 2
  pinLatch := 3
  inputPins := #v[4, 5, 6, 7, 8, 9, 10, 11]
  srResetActive := 0
  latchRequired := false
  tSrUs := 0

/-- The n-th draw of the machine, where it is a mask read that nothing has scripted: any value
(spec/93_implementation_defined.md U5; log 5). -/
opaque Config.freeMask : Nat → Byte

/-- The n-th draw of the machine, where it is a counter read that nothing has scripted: any value (93 U4; log 5). -/
opaque Config.freeTime : Nat → U32

/-- The n-th draw of the machine, where it is a readiness query that nothing has scripted: any value (93 U6; log 5). -/
opaque Config.freeReady : Nat → Bool

end Sys2Proof
end

