-- ==== Sys2Proof/Machine/State.lean ====
section
/-! DEFINITION. The state of KEB (spec/10_state.md R30-R58) as plain data, the ways a step can stop, and the state
after reset (R55; spec/70_reset_and_hazards.md R360). -/

namespace Sys2Proof.Machine

/-- The three legal states of a key (R33; spec/30_encoding.md R104). -/
inductive KeySt where
  | idle
  | started
  | hit
  deriving DecidableEq, Repr

/-- Entry k of the key-state file KS: `st` is a 2-bit field, so that the illegal code 3 can be held (R33), and `pt` the
press time (R34). -/
structure KeyEntry where
  st : BitVec 2
  pt : U32
  deriving DecidableEq, Repr

/-- Storage of the ring buffer: slots that hold a value, by rising index. An unlisted slot holds no value
(R41, R55; log 4). -/
abbrev Memory := List Host.Cell

/-- The output ring buffer ORB (R36, R37). -/
structure Orb where
  mem : Memory
  inIdx : Nat
  outIdx : Nat
  deriving DecidableEq, Repr

/-- `SEQ.phase`, KEB's counterpart of a program counter (R45). -/
inductive Phase where
  | init
  | refused
  | iterDrain
  | passBegin
  | startRead
  | startEval
  | stepToEnd
  | endRead
  | endEval
  | stepToNext
  | push
  deriving DecidableEq, Repr

/-- `SEQ.RET`: the phase to resume when a message is fully pushed (R44). -/
inductive RetPhase where
  | startEval
  | endEval
  deriving DecidableEq, Repr

/-- A 3-byte MIDI message in sending order (spec/30_encoding.md R106, R107). -/
structure Message where
  status : Byte
  note : Byte
  velocity : Byte
  deriving DecidableEq, Repr

/-- The sequencer registers SEQ (R42-R45). -/
structure Seq where
  sb : Byte
  st : U32
  eb : Byte
  et : U32
  bank : Nat
  pos : Nat
  msg : Message
  msgN : Nat
  ret : RetPhase
  phase : Phase
  deriving DecidableEq, Repr

/-- RES, the result of the last command (R47; spec/30_encoding.md R113, R114). `none` is the spec's "no value". -/
inductive Result where
  | none
  | u32 (v : U32)
  | u8 (v : Byte)
  | bool (v : Bool)
  | optU8 (v : Option Byte)
  | msg (m : Message)
  | snap (mask : Byte) (time : U32)
  deriving DecidableEq, Repr

/-- A pin direction (spec/70_reset_and_hazards.md R361). -/
inductive PinMode where
  | output
  | input
  deriving DecidableEq, Repr

/-- One entry of TRACE (R52). -/
inductive Event where
  | setDir (pin : Nat) (mode : PinMode)
  | write (pin : Nat) (level : Nat)
  | wait (us : U32)
  | mask (m : Byte)
  | time (t : U32)
  | ready (r : Bool)
  | tx (b : Byte)
  | diag (code : Byte) (key : Nat)
  | refused (code : Byte)
  deriving DecidableEq, Repr

/-- The statements that the bodies of the command port's operations are sequences of. They stand in State only while an
operation waits on a full buffer, as what is left of it (spec/44_ring_buffer.md R274, R275; log 10). -/
inductive Micro where
  /-- RB_PUSH of each of these bytes, in order (R274). -/
  | push (bs : List Byte)
  /-- RB_DRAIN (R273). -/
  | drain
  /-- SR_BEGIN_PASS (spec/40_bank_scanner.md R131). -/
  | beginPass
  /-- SR_STEP (R132). -/
  | srStep
  /-- SNAP_READ (R133). -/
  | snapRead (w : Line)
  /-- `SEQ.BANK <- b` (R134). -/
  | setBank (b : Nat)
  /-- `SEQ.POS <- p` (R134). -/
  | setPos (p : Nat)
  /-- `SEQ.POS <- p; KSM_START(b*8 + p, SB[p], ST)` (R134). -/
  | evalStart (b p : Nat)
  /-- The same for the end read, skipped when EB = 0x00 (R134, R136). -/
  | evalEnd (b p : Nat)
  deriving DecidableEq, Repr

/-- The environment's answers (R54; spec/92_eei_decisions.md D22). The lists hold answers that are already fixed, next
one first; past their end a draw is a free value indexed by `draws`. The MODEL's own fields (log 5). -/
structure Env where
  masks : List Byte
  times : List U32
  readies : List Bool
  draws : Nat
  deriving DecidableEq, Repr

/-- The state record (R30), with CFG (R48; log 1), the external position of the stimulus (R53; log 15), and the control
state that the lifecycle of spec/30_encoding.md R120 and the waits of R275 imply. -/
structure State where
  cfg : Cfg
  ks : List KeyEntry
  orb : Orb
  seq : Seq
  res : Result
  refused : Bool
  fault : Bool
  trace : List Event
  chain : Option Nat
  running : Bool
  busy : List Micro
  port : List Wire
  env : Env
  deriving DecidableEq, Repr

/-- Why the machine has no further step. -/
inductive Fault where
  /-- Raised by every step and command from a state with FAULT = 1: "no step exists from a state with FAULT = 1"
  (spec/45_scan_loop.md R293). Safe. -/
  | modelFault
  /-- Raised by a step with no command offered while REFUSED = 1: "no step exists" in P_REFUSED (R50, R292). Safe. -/
  | stuck
  deriving DecidableEq, Repr

/-- The operand ports whose values can be out of their legal range (spec/30_encoding.md R120). -/
inductive RangePort where
  | k
  | bk
  | v
  deriving DecidableEq, Repr

/-- Why a command has no meaning: it is ignored, with no state change and no TRACE entry (spec/30_encoding.md R120). -/
inductive Refusal where
  /-- Raised by no arm of this model: the instruction has no meaning yet. Safe. -/
  | notModelled (mnemonic : String)
  /-- Raised by a step whose offered bits are no row of the opcode table (R118). Safe: the spec's own refusal. -/
  | reservedOpcode
  /-- Raised by every command but INIT before INIT (R120). Safe: the spec's own refusal. -/
  | beforeInit
  /-- Raised by INIT after a successful INIT (R120). Safe: the spec's own refusal. -/
  | afterInit
  /-- Raised by every command while REFUSED = 1 (R120). Safe: the spec's own refusal. -/
  | configRefused
  /-- Raised by exec for every command after RUN (R120); step then reads no command and goes on with the sequencer
  (log 19). Safe: the spec's own refusal. -/
  | afterRun
  /-- Raised by a command that reads a port outside its legal range (R120). Safe: the spec's own refusal. -/
  | operandRange (p : RangePort)
  /-- Raised by exec, never by step, in a state where an earlier operation still waits (spec/20_memory.md R79;
  log 10). Safe: the machine stops where the spec has no such case. -/
  | busy
  /-- Raised by a step between two commands, when none is offered: "Between commands, the sequencer takes no step of
  its own" (spec/45_scan_loop.md R299; log 9). Safe. -/
  | noCommand
  /-- Raised by a MIDI message offered as if it were a command: KEB "reads no MIDI input"
  (spec/43_event_encoder.md R227; log 16). Safe. -/
  | noMidiInput
  deriving DecidableEq, Repr

/-- The codes of the key states (spec/30_encoding.md R104). -/
def KeySt.code : KeySt → BitVec 2
  | .idle => 0
  | .started => 1
  | .hit => 2

/-- The key entry that INIT writes, and that the model names for reset (R55; log 3). -/
def KeyEntry.initial : KeyEntry := { st := KeySt.idle.code, pt := 0 }

/-- The machine right after reset (R55, R360): `SEQ.phase` = P_INIT, REFUSED = 0, FAULT = 0, TRACE empty. The spec gives
every other register no value; the model names INIT's values for them (DESIGN CHOICE, log 3). -/
def State.reset : State where
  cfg := Cfg.atReset
  ks := List.replicate Cfg.atReset.numKeys KeyEntry.initial
  orb := { mem := [], inIdx := 0, outIdx := 0 }
  seq :=
    { sb := 0, st := 0, eb := 0, et := 0, bank := 0, pos := 0
      msg := { status := 0, note := 0, velocity := 0 }
      msgN := 0, ret := .startEval, phase := .init }
  res := .none
  refused := false
  fault := false
  trace := []
  chain := none
  running := false
  busy := []
  port := []
  env := { masks := [], times := [], readies := [], draws := 0 }

end Sys2Proof.Machine
end

