-- ==== Sys2Proof/Machine/Flags.lean ====
section
/-! DEFINITION. The flags of KEB, all computed from the ring buffer's indices and none stored
(spec/10_state.md R38-R40, R49), and the index arithmetic they rest on (spec/44_ring_buffer.md R260). -/

namespace Sys2Proof.Machine

/-- `next(i) = (i + 1) mod RB_CAPACITY` (R260). -/
def nextIndex (cap i : Nat) : Nat := (i + 1) % cap

/-- EMPTY (R38). -/
def Orb.isEmpty (o : Orb) : Bool := decide (o.inIdx = o.outIdx)

/-- FULL (R39). -/
def Orb.isFull (cap : Nat) (o : Orb) : Bool := decide (nextIndex cap o.inIdx = o.outIdx)

/-- COUNT = (in - out) mod RB_CAPACITY, for indices in range (R40). -/
def Orb.count (cap : Nat) (o : Orb) : Nat := (o.inIdx + (cap - o.outIdx)) % cap

/-- Both indices are in 0..RB_CAPACITY-1 (R37, R57). -/
def Orb.inRange (cap : Nat) (o : Orb) : Bool := decide (o.inIdx < cap) && decide (o.outIdx < cap)

end Sys2Proof.Machine
end

