-- ==== Sys2Proof/Machine/Operands.lean ====
section
/-! DEFINITION. The pure computations on operands: legal ranges (spec/30_encoding.md R112), key ids (R101), mask bits
(spec/20_memory.md R74), chain outputs (R83), elapsed time (spec/41_key_state_machine.md R160), the transition table
(R162), the velocity map (spec/42_velocity_mapper.md R200) and the messages (spec/43_event_encoder.md R220-R222). -/

namespace Sys2Proof.Machine

/-- K is in 0..NUM_KEYS-1 (R112). -/
def keyInRange (c : Cfg) (k : Byte) : Bool := decide (k.toNat < c.numKeys)

/-- BK is in 0..NUM_BANKS-1 (R112). -/
def bankInRange (c : Cfg) (bk : Byte) : Bool := decide (bk.toNat < c.numBanks)

/-- V is in 0..127 (R112). -/
def velocityInRange (v : Byte) : Bool := decide (v.toNat ≤ 127)

/-- `k = b * 8 + p` (R101). -/
def keyId (b p : Nat) : Nat := b * 8 + p

/-- `button_down` of position p: bit p of the mask, 1 = closed (R74, R103). -/
def buttonDown (mask : Byte) (p : Nat) : Bool := mask.getLsbD p

/-- The chain output that is bank b's start or end contact line (R83). -/
def chainOutput (b : Nat) : Line → Nat
  | .startLine => 2 * b
  | .endLine => 2 * b + 1

/-- ELAPSED: (now - then) mod 2^32 (R160). -/
def elapsedTime (now thn : U32) : U32 := now - thn

/-- The state a code stands for; code 3 is illegal (R104). -/
def keyStOfCode (x : BitVec 2) : Option KeySt :=
  if x = 0 then some .idle else if x = 1 then some .started else if x = 2 then some .hit else none

/-- What one evaluation of a key does (R162). -/
inductive Transition where
  /-- No change and no output (R168, R169). -/
  | keep
  /-- A new entry and no output (R163, R164). -/
  | move (e : KeyEntry)
  /-- A new entry and Hit with this duration (R165). -/
  | hit (e : KeyEntry) (duration : U32)
  /-- A new entry and Release (R166). -/
  | release (e : KeyEntry)
  /-- The diagnostic of R167, no change. -/
  | inconsistent
  /-- Key-state code 3: the model faults (R170, R171). -/
  | illegal
  deriving DecidableEq, Repr

/-- The debounce test: ELAPSED(t, pt) > DEBOUNCE_US, unsigned and strict (R164). -/
def pastDebounce (c : Cfg) (t pt : U32) : Bool := decide (c.debounceUs < ((elapsedTime t pt).toNat : Int))

/-- The body of KSM_START at a start read (R170) and of KSM_END at an end read (R171), row by row the table of R162. -/
def transition (c : Cfg) (line : Line) (e : KeyEntry) (down : Bool) (t : U32) : Transition :=
  match keyStOfCode e.st, line, down with
  | none, _, _ => .illegal
  | some .idle, .startLine, true => .move { st := KeySt.started.code, pt := t }
  | some .idle, .startLine, false => .keep
  | some .idle, .endLine, true => .inconsistent
  | some .idle, .endLine, false => .keep
  | some .started, .startLine, true => .keep
  | some .started, .startLine, false =>
    if pastDebounce c t e.pt then .move { st := KeySt.idle.code, pt := e.pt } else .keep
  | some .started, .endLine, true => .hit { st := KeySt.hit.code, pt := e.pt } (elapsedTime t e.pt)
  | some .started, .endLine, false => .keep
  | some .hit, .startLine, true => .keep
  | some .hit, .startLine, false => .release { st := KeySt.idle.code, pt := e.pt }
  | some .hit, .endLine, _ => .keep

/-- `clamp(x, lo, hi) = min(max(x, lo), hi)` (spec/00_scope.md R22). -/
def clamp (x lo hi : Int) : Int := min (max x lo) hi

/-- `Dt`, the width of the key-time window (R200). -/
def keyTimeSpan (c : Cfg) : Int := (c.maxKeyTimeUs.toNat : Int) - (c.minKeyTimeUs.toNat : Int)

/-- `Rv`, the width of the velocity range (R200). -/
def velocitySpan (c : Cfg) : Int := c.maxVelocity - c.minVelocity

/-- The rounded velocity before the clamp: `floor(num / (2*Dt))`, exactly in ℤ (R200, R202, R203). Division by the
positive `2*Dt` rounds toward -∞. -/
def velocityRaw (c : Cfg) (d : U32) : Int :=
  (2 * c.maxVelocity * keyTimeSpan c - 2 * ((d.toNat : Int) - (c.minKeyTimeUs.toNat : Int)) * velocitySpan c
    + keyTimeSpan c) / (2 * keyTimeSpan c)

/-- The preconditions of VELMAP, which INIT checks (R206). -/
def velocityOk (c : Cfg) : Bool :=
  decide (c.minKeyTimeUs.toNat < c.maxKeyTimeUs.toNat) && decide (1 ≤ c.minVelocity)
    && decide (c.minVelocity ≤ c.maxVelocity) && decide (c.maxVelocity ≤ 127)

/-- VELMAP (R200, R204). It has no value under a configuration that breaks R206, which INIT refuses (log 13). -/
def velocityOf (c : Cfg) (d : U32) : Option Byte :=
  if velocityOk c then
    some (BitVec.ofNat 8 (clamp (velocityRaw c d) c.minVelocity c.maxVelocity).toNat)
  else none

/-- NOTENUM: `k + NOTE_OFFSET` (R220); a note outside 0..127 cannot arise after a successful INIT and has no value
(spec/30_encoding.md R109, R119). -/
def noteOf (c : Cfg) (k : Nat) : Option Byte :=
  if 0 ≤ (k : Int) + c.noteOffset ∧ (k : Int) + c.noteOffset ≤ 127 then
    some (BitVec.ofNat 8 ((k : Int) + c.noteOffset).toNat)
  else none

/-- The MIDI Note On status byte, 0x90 | MIDI_CHANNEL (spec/30_encoding.md R106). -/
def noteOnStatus (c : Cfg) : Byte := 0x90 ||| BitVec.ofNat 8 c.midiChannel

/-- The MIDI Note Off status byte, 0x80 | MIDI_CHANNEL (spec/30_encoding.md R107). -/
def noteOffStatus (c : Cfg) : Byte := 0x80 ||| BitVec.ofNat 8 c.midiChannel

/-- ENC_ON (R221). -/
def encodeOn (c : Cfg) (k : Nat) (v : Byte) : Option Message :=
  match noteOf c k with
  | some n => some { status := noteOnStatus c, note := n, velocity := v }
  | none => none

/-- ENC_OFF: the release velocity is 0 (R222). -/
def encodeOff (c : Cfg) (k : Nat) : Option Message :=
  match noteOf c k with
  | some n => some { status := noteOffStatus c, note := n, velocity := 0 }
  | none => none

/-- The message of a Hit: ENC_ON(k, VELMAP(d)) (R223). -/
def hitMessage (c : Cfg) (k : Nat) (d : U32) : Option Message :=
  match velocityOf c d with
  | some v => encodeOn c k v
  | none => none

/-- The bytes of a message in the order they are pushed (spec/20_memory.md R73). -/
def Message.bytes (m : Message) : List Byte := [m.status, m.note, m.velocity]

/-- `SEQ.MSG[i]`, for i in 0..2 (R44). -/
def Message.byte (m : Message) (i : Nat) : Option Byte := m.bytes[i]?

/-- The phase that `SEQ.RET` names (R44). -/
def phaseOfRet : RetPhase → Phase
  | .startEval => .startEval
  | .endEval => .endEval

/-- The nine configuration checks in code order, each with whether it passes (spec/60_exceptions.md R325). -/
def configChecks (c : Cfg) : List (Byte × Bool) :=
  [ (0x10, decide (1 ≤ c.numBanks)),
    (0x11, decide (c.keysPerBank = 8)),
    (0x12, decide (0 ≤ c.noteOffset) && decide (c.noteOffset + (c.numKeys : Int) - 1 ≤ 127)),
    (0x13, decide (1 < c.rbCapacity)),
    (0x14, decide (c.minKeyTimeUs.toNat < c.maxKeyTimeUs.toNat)),
    (0x15, decide (1 ≤ c.minVelocity) && decide (c.minVelocity ≤ c.maxVelocity) && decide (c.maxVelocity ≤ 127)),
    (0x16, decide (c.midiChannel ≤ 15)),
    (0x17, decide (0 ≤ c.debounceUs) && decide (c.debounceUs < 4294967296)),
    (0x18, decide c.pins.Nodup && decide (c.srResetActive ≤ 1)) ]

/-- The code of the first check of a list that fails (R325, R327). -/
def firstFailure : List (Byte × Bool) → Option Byte
  | [] => none
  | (code, ok) :: rest => if ok then firstFailure rest else some code

end Sys2Proof.Machine
end

