-- ==== Sys2Proof/Machine/Ops.lean ====
section
/-! DEFINITION. The named operations over KEB's state that the meanings share: TRACE and the conditions
(spec/60_exceptions.md R321-R326), the external primitives (spec/00_scope.md R23), the two indexed stores
(spec/20_memory.md R70-R72), the ring buffer (spec/44_ring_buffer.md R272-R274), the scanner's signals
(spec/40_bank_scanner.md R130-R133), the evaluation of a key (spec/41_key_state_machine.md R170, R171), INIT
(spec/70_reset_and_hazards.md R361) and the running of a command's body. KEB takes no exception and returns from none
(R329, R330): a condition is handled where it arises. -/

namespace Sys2Proof.Machine

/-! ## One-field updates -/

/-- Appends one entry to TRACE (R52). -/
def State.emit (e : Event) (s : State) : State := { s with trace := s.trace ++ [e] }

/-- A model fault: FAULT <- 1, no other change (R326). -/
def State.raiseFault (s : State) : State := { s with fault := true }

/-- The state `t` an operation reached from `s`, unless it faulted: then FAULT <- 1 and no other change, whatever the
operation had done before (R326; log 11). -/
def State.orFault (s t : State) : State := if t.fault then s.raiseFault else t

/-- The result register (R47). -/
def State.setRes (r : Result) (s : State) : State := { s with res := r }

/-- The key-state file. -/
def State.setKs (ks : List KeyEntry) (s : State) : State := { s with ks := ks }

/-- The ring buffer. -/
def State.setOrb (o : Orb) (s : State) : State := { s with orb := o }

/-- The sequencer registers. -/
def State.setSeq (q : Seq) (s : State) : State := { s with seq := q }

/-- The external position of the stimulus (R53). -/
def State.setChain (p : Option Nat) (s : State) : State := { s with chain := p }

/-- The environment. -/
def State.setEnv (e : Env) (s : State) : State := { s with env := e }

/-- The operation in progress (log 10). -/
def State.setBusy (ms : List Micro) (s : State) : State := { s with busy := ms }

/-- `phase <- P` (spec/00_scope.md R23). -/
def State.setPhase (p : Phase) (s : State) : State := s.setSeq { s.seq with phase := p }

/-- `SEQ.BANK <- b`. -/
def State.setBank (b : Nat) (s : State) : State := s.setSeq { s.seq with bank := b }

/-- `SEQ.POS <- p`. -/
def State.setPos (p : Nat) (s : State) : State := s.setSeq { s.seq with pos := p }

/-! ## Conditions -/

/-- `signal Diag(code, key)` (spec/00_scope.md R23; spec/60_exceptions.md R322). -/
def signalDiag (code : Byte) (key : Nat) (s : State) : State := s.emit (.diag code key)

/-- `raise ConfigRefused(code)`: the TRACE entry, REFUSED <- 1 and `SEQ.phase` <- P_REFUSED (R325). -/
def raiseConfigRefused (code : Byte) (s : State) : State :=
  { (s.emit (.refused code)).setPhase .refused with refused := true }

/-! ## External primitives -/

/-- A mask the environment answers with (spec/92_eei_decisions.md D22). -/
def Env.drawMask (e : Env) : Byte × Env :=
  match e.masks with
  | m :: ms => (m, { e with masks := ms, draws := e.draws + 1 })
  | [] => (Config.freeMask e.draws, { e with draws := e.draws + 1 })

/-- A counter value the environment answers with (D22). -/
def Env.drawTime (e : Env) : U32 × Env :=
  match e.times with
  | t :: ts => (t, { e with times := ts, draws := e.draws + 1 })
  | [] => (Config.freeTime e.draws, { e with draws := e.draws + 1 })

/-- A readiness the environment answers with (D22). -/
def Env.drawReady (e : Env) : Bool × Env :=
  match e.readies with
  | r :: rs => (r, { e with readies := rs, draws := e.draws + 1 })
  | [] => (Config.freeReady e.draws, { e with draws := e.draws + 1 })

/-- `ReadMask()`, recorded as `Mask(m)`. -/
def readMask (s : State) : Byte × State :=
  (s.env.drawMask.1, (s.setEnv s.env.drawMask.2).emit (.mask s.env.drawMask.1))

/-- `ReadCounter()`, recorded as `Time(t)`. -/
def readCounter (s : State) : U32 × State :=
  (s.env.drawTime.1, (s.setEnv s.env.drawTime.2).emit (.time s.env.drawTime.1))

/-- `TxReady()`, recorded as `Ready(r)`. -/
def txReady (s : State) : Bool × State :=
  (s.env.drawReady.1, (s.setEnv s.env.drawReady.2).emit (.ready s.env.drawReady.1))

/-- `TxByte(b)` (R337). -/
def txByte (b : Byte) (s : State) : State := s.emit (.tx b)

/-- `GpioWrite(pin, level)` (R336). -/
def gpioWrite (pin level : Nat) (s : State) : State := s.emit (.write pin level)

/-- `GpioSetDirection(pin, mode)` (R336). -/
def gpioSetDirection (pin : Nat) (mode : PinMode) (s : State) : State := s.emit (.setDir pin mode)

/-- `BusyWait(T_SR_US)`: it always ends, and the counter is a draw, so it only shows in TRACE (R334). -/
def busyWait (s : State) : State := s.emit (.wait s.cfg.tSrUs)

/-! ## Ring-buffer storage -/

/-- The value of a slot, `none` where nothing was written (R41, R55; log 4). -/
def Memory.read : Memory → Nat → Option Byte
  | [], _ => none
  | (a, b) :: m, i => if a = i then some b else Memory.read m i

/-- Writes one slot, keeping the entries in rising order of index. -/
def Memory.write : Memory → Nat → Byte → Memory
  | [], i, v => [(i, v)]
  | (a, b) :: m, i, v =>
    if i < a then (i, v) :: (a, b) :: m
    else if i = a then (i, v) :: m
    else (a, b) :: Memory.write m i v

/-- The canonical form: indices strictly rising. An unlisted slot holds no value, so no entry repeats it. -/
def Memory.wf : Memory → Bool
  | [] => true
  | [_] => true
  | (a, _) :: (a', b') :: m => decide (a < a') && Memory.wf ((a', b') :: m)

/-- `MemWrite(ORB.in, 1, b)`, then `ORB.in` advances (R274; spec/20_memory.md R89). -/
def Orb.put (cap : Nat) (b : Byte) (o : Orb) : Orb :=
  { o with mem := Memory.write o.mem o.inIdx b, inIdx := nextIndex cap o.inIdx }

/-- `ORB.out` advances (R272). -/
def Orb.drop (cap : Nat) (o : Orb) : Orb := { o with outIdx := nextIndex cap o.outIdx }

/-- RB_TRY_POP (R272). An unwritten slot or an index out of range is a model fault (R326; log 12). -/
def tryPop (s : State) : Option Byte × State :=
  if s.orb.inRange s.cfg.rbCapacity then
    if s.orb.isEmpty then (none, s)
    else
      match Memory.read s.orb.mem s.orb.outIdx with
      | some b => (some b, s.setOrb (s.orb.drop s.cfg.rbCapacity))
      | none => (none, s.raiseFault)
  else (none, s.raiseFault)

/-- RB_DRAIN, the consumer step: whether a byte was sent, and the state (R273). Where the slot holds no value it faults
with no TRACE entry and no draw (R326). -/
def drain (s : State) : Bool × State :=
  if s.orb.inRange s.cfg.rbCapacity then
    if s.orb.isEmpty then (false, s)
    else
      match txReady s with
      | (false, s1) => (false, s1)
      | (true, s1) =>
        match tryPop s1 with
        | (some b, s2) => (true, txByte b s2)
        | (none, _) => (false, s.raiseFault)
  else (false, s.raiseFault)

/-- RB_PUSH of the bytes of a list, in order (R274). It answers the bytes still to push: while FULL holds it makes ONE
drain attempt and leaves the rest to the machine's next step, "a loop of steps, one per attempt" (R275; log 10). -/
def pushBytes : List Byte → State → List Byte × State
  | [], s => ([], s)
  | b :: bs, s =>
    if s.orb.inRange s.cfg.rbCapacity then
      if s.orb.isFull s.cfg.rbCapacity then (b :: bs, (drain s).2)
      else pushBytes bs (s.setOrb (s.orb.put s.cfg.rbCapacity b))
    else ([], s.raiseFault)

/-! ## Scanner signals -/

/-- A high-then-low pulse on a pin, with a wait after each edge (R130). -/
def pulse (pin : Nat) (s : State) : State :=
  busyWait (gpioWrite pin 0 (busyWait (gpioWrite pin 1 s)))

/-- `ClockPulse()` (R130). -/
def clockPulse (s : State) : State := pulse s.cfg.pinClock s

/-- `LatchPulse()` (R130). -/
def latchPulse (s : State) : State := pulse s.cfg.pinLatch s

/-- SR_BEGIN_PASS (R131). The stimulus is then at chain output 0 (spec/10_state.md R53). -/
def beginPass (s : State) : State :=
  let s := busyWait (gpioWrite s.cfg.pinReset s.cfg.srResetActive s)
  let s := busyWait (gpioWrite s.cfg.pinReset (1 - s.cfg.srResetActive) s)
  let s := gpioWrite s.cfg.pinData 1 s
  let s := clockPulse s
  let s := gpioWrite s.cfg.pinData 0 s
  let s := latchPulse s
  s.setChain (some 0)

/-- SR_STEP (R132). A stimulus at a known output moves one output on (spec/10_state.md R53). -/
def stepChain (s : State) : State :=
  let s := clockPulse s
  let s := if s.cfg.latchRequired then latchPulse s else s
  s.setChain (s.chain.map (· + 1))

/-- The snapshot half that W names takes the mask and the stamp (R133). -/
def Seq.snap (q : Seq) (w : Line) (m : Byte) (t : U32) : Seq :=
  match w with
  | .startLine => { q with sb := m, st := t }
  | .endLine => { q with eb := m, et := t }

/-- SNAP_READ: the mask first, then the counter (R133). It answers both for the command port's RES. -/
def snapRead (w : Line) (s : State) : (Byte × U32) × State :=
  match readMask s with
  | (m, s1) =>
    match readCounter s1 with
    | (t, s2) => ((m, t), s2.setSeq (s2.seq.snap w m t))

/-! ## Key evaluation -/

/-- One evaluation of key k (R170 at a start read, R171 at an end read): the change of KS, any diagnostic, and the
message of an event, which the caller pushes. It faults, with no other change, on key-state code 3, on a key without an
entry and on a message that R119 rules out. -/
def evalKey (line : Line) (k : Nat) (down : Bool) (t : U32) (s : State) : Option Message × State :=
  match s.ks[k]? with
  | none => (none, s.raiseFault)
  | some e =>
    match transition s.cfg line e down t with
    | .keep => (none, s)
    | .move e' => (none, s.setKs (s.ks.set k e'))
    | .hit e' d =>
      match hitMessage s.cfg k d with
      | some m => (some m, s.setKs (s.ks.set k e'))
      | none => (none, s.raiseFault)
    | .release e' =>
      match encodeOff s.cfg k with
      | some m => (some m, s.setKs (s.ks.set k e'))
      | none => (none, s.raiseFault)
    | .inconsistent => (none, signalDiag 0x01 k s)
    | .illegal => (none, s.raiseFault)

/-- The bytes an event's message leaves to push. -/
def messageBytes : Option Message → List Byte
  | some m => m.bytes
  | none => []

/-! ## Bodies of the command port's operations -/

/-- One statement of a body: the bytes it still has to push, and the state. -/
def doMicro (m : Micro) (s : State) : List Byte × State :=
  match m with
  | .push bs => pushBytes bs s
  | .drain => ([], (drain s).2)
  | .beginPass => ([], beginPass s)
  | .srStep => ([], stepChain s)
  | .snapRead w => ([], (snapRead w s).2)
  | .setBank b => ([], s.setBank b)
  | .setPos p => ([], s.setPos p)
  | .evalStart b p =>
    match evalKey .startLine (keyId b p) (buttonDown s.seq.sb p) s.seq.st (s.setPos p) with
    | (msg, s1) => if s1.fault then ([], s1) else pushBytes (messageBytes msg) s1
  | .evalEnd b p =>
    if s.seq.eb = 0 then ([], s)
    else
      match evalKey .endLine (keyId b p) (buttonDown s.seq.eb p) s.seq.et (s.setPos p) with
      | (msg, s1) => if s1.fault then ([], s1) else pushBytes (messageBytes msg) s1

/-- A body has run to its end: nothing is in progress, and RES has no value, as for every operation with a body
(spec/30_encoding.md R113). -/
def complete (s : State) : State := (s.setBusy []).setRes .none

/-- Runs a body's statements in order (spec/00_scope.md R24) until it ends, a model fault stops it, or a push has to
wait; then what is left of it stands in `busy` (log 10). A faulting run answers with FAULT = 1, and its caller keeps
nothing else of it (`State.orFault`). -/
def runOps : List Micro → State → State
  | [], s => complete s
  | m :: ms, s =>
    match doMicro m s with
    | (left, s1) =>
      if s1.fault then s1.setBusy []
      else
        match left with
        | [] => runOps ms s1
        | b :: bs => s1.setBusy (.push (b :: bs) :: ms)

/-- The body of SCAN_BANK(b) (R134). -/
def scanBankBody (b : Nat) : List Micro :=
  .setBank b :: (if b = 0 then [.beginPass] else []) ++ [.snapRead .startLine]
    ++ (List.range 8).map (.evalStart b) ++ [.setPos 8, .srStep, .snapRead .endLine]
    ++ (List.range 8).map (.evalEnd b) ++ [.setPos 8, .srStep]

/-- The body of SCAN_PASS (spec/45_scan_loop.md R290). -/
def scanPassBody (c : Cfg) : List Micro := (List.range c.numBanks).flatMap scanBankBody

/-- The body of LOOP_ITER (spec/45_scan_loop.md R291). -/
def loopIterBody (c : Cfg) : List Micro := .drain :: scanPassBody c

/-! ## INIT -/

/-- The registers INIT writes to SEQ (R361). -/
def Seq.initial : Seq :=
  { sb := 0, st := 0, eb := 0, et := 0, bank := 0, pos := 0
    msg := { status := 0, note := 0, velocity := 0 }
    msgN := 0, ret := .startEval, phase := .iterDrain }

/-- INIT's GPIO calls: directions, then levels (R361, R362, R365). -/
def initPins (s : State) : State :=
  let s := gpioSetDirection s.cfg.pinReset .output s
  let s := gpioSetDirection s.cfg.pinData .output s
  let s := gpioSetDirection s.cfg.pinClock .output s
  let s := gpioSetDirection s.cfg.pinLatch .output s
  let s := s.cfg.inputPins.toList.foldl (fun s p => gpioSetDirection p .input s) s
  let s := gpioWrite s.cfg.pinReset (1 - s.cfg.srResetActive) s
  let s := gpioWrite s.cfg.pinData 0 s
  let s := gpioWrite s.cfg.pinClock 0 s
  gpioWrite s.cfg.pinLatch 0 s

/-- INIT (R361): the checks, the pins, then the state. ORB.mem, CFG, RES and FAULT are not written. -/
def initialise (s : State) : State :=
  match firstFailure (configChecks s.cfg) with
  | some code => raiseConfigRefused code s
  | none =>
    let s := initPins s
    { s with
      ks := List.replicate s.cfg.numKeys KeyEntry.initial
      orb := { s.orb with inIdx := 0, outIdx := 0 }
      seq := Seq.initial }

/-- The machine right after reset with any configuration (spec/10_state.md R55: "CFG configured"). -/
def State.powerOn (c : Cfg) : State :=
  { State.reset with cfg := c, ks := List.replicate c.numKeys KeyEntry.initial }

/-! ## Lifecycle of the command port -/

/-- Runs a command other than INIT where the port accepts one: after a successful INIT, before RUN, with no operation in
progress and no model fault (spec/30_encoding.md R120; spec/60_exceptions.md R327). -/
def accept (s : State) (meaning : State → Host.Outcome State Fault Refusal) : Host.Outcome State Fault Refusal :=
  if s.fault then .fault .modelFault
  else if s.busy ≠ [] then .refused .busy
  else if s.seq.phase = .init then .refused .beforeInit
  else if s.refused then .refused .configRefused
  else if s.running then .refused .afterRun
  else meaning s

/-- A command whose operand K must be a key id (R112, R120). -/
def withKey (k : Byte) (meaning : State → Host.Outcome State Fault Refusal) (s : State) :
    Host.Outcome State Fault Refusal :=
  if keyInRange s.cfg k then meaning s else .refused (.operandRange .k)

end Sys2Proof.Machine
end

