-- ==== Sys2Proof/Machine/BankScanner.lean ====
section
/-! DEFINITION. The bank-scanner operations of the command port (spec/40_bank_scanner.md R131-R134). -/

namespace Sys2Proof.Machine

/-- SR_BEGIN_PASS (R131). -/
def execSrBeginPass (s : State) : Host.Outcome State Fault Refusal :=
  accept s fun s => .next ((beginPass s).setRes .none)

/-- SR_STEP (R132). -/
def execSrStep (s : State) : Host.Outcome State Fault Refusal :=
  accept s fun s => .next ((stepChain s).setRes .none)

/-- SNAP_READ: RES is the mask and its stamp (R133). -/
def execSnapRead (w : Line) (s : State) : Host.Outcome State Fault Refusal :=
  accept s fun s =>
    match snapRead w s with
    | ((m, t), s1) => .next (s1.setRes (.snap m t))

/-- SCAN_BANK (R134). -/
def execScanBank (bk : Byte) (s : State) : Host.Outcome State Fault Refusal :=
  accept s fun s =>
    if bankInRange s.cfg bk then .next (s.orFault (runOps (scanBankBody bk.toNat) s)) else .refused (.operandRange .bk)

end Sys2Proof.Machine
end

