-- ==== Sys2Proof/Machine/EventEncoder.lean ====
section
/-! DEFINITION. The event encoder's operations of the command port (spec/43_event_encoder.md R220-R224), and the two
MIDI3 rows of the opcode table, which KEB emits and does not take (R227). -/

namespace Sys2Proof.Machine

/-- RES takes a message; a message that R119 of spec/30_encoding.md rules out is a model fault. -/
def resMessage (m : Option Message) (s : State) : State :=
  match m with
  | some m => s.setRes (.msg m)
  | none => s.raiseFault

/-- The pushes of an event's message (R223, R224). -/
def emitMessage (m : Option Message) (s : State) : State :=
  match m with
  | some m => s.orFault (runOps [.push m.bytes] s)
  | none => s.raiseFault

/-- NOTENUM (R220). -/
def execNotenum (k : Byte) (s : State) : Host.Outcome State Fault Refusal :=
  accept s (withKey k fun s =>
    match noteOf s.cfg k.toNat with
    | some n => .next (s.setRes (.u8 n))
    | none => .next s.raiseFault)

/-- ENC_ON; V = 0 is accepted (R221). -/
def execEncOn (k v : Byte) (s : State) : Host.Outcome State Fault Refusal :=
  accept s (withKey k fun s =>
    if velocityInRange v then .next (resMessage (encodeOn s.cfg k.toNat v) s) else .refused (.operandRange .v))

/-- ENC_OFF (R222). -/
def execEncOff (k : Byte) (s : State) : Host.Outcome State Fault Refusal :=
  accept s (withKey k fun s => .next (resMessage (encodeOff s.cfg k.toNat) s))

/-- EMIT_HIT (R223). -/
def execEmitHit (k : Byte) (t0 : U32) (s : State) : Host.Outcome State Fault Refusal :=
  accept s (withKey k fun s => .next (emitMessage (hitMessage s.cfg k.toNat t0) s))

/-- EMIT_REL (R224). -/
def execEmitRel (k : Byte) (s : State) : Host.Outcome State Fault Refusal :=
  accept s (withKey k fun s => .next (emitMessage (encodeOff s.cfg k.toNat) s))

/-- A Note On message is what KEB sends, never what it takes: "It reads no MIDI input" (R227; log 16). -/
def execMidiNoteOn (_c _n _v : Byte) (_s : State) : Host.Outcome State Fault Refusal :=
  .refused .noMidiInput

/-- A Note Off message is what KEB sends, never what it takes: "It reads no MIDI input" (R227; log 16). -/
def execMidiNoteOff (_c _n : Byte) (_s : State) : Host.Outcome State Fault Refusal :=
  .refused .noMidiInput

end Sys2Proof.Machine
end

