-- ==== Sys2Proof/Machine/KeyStateMachine.lean ====
section
/-! DEFINITION. The key-state-machine operations of the command port (spec/41_key_state_machine.md R160, R170, R171). -/

namespace Sys2Proof.Machine

/-- ELAPSED (R160). -/
def execElapsed (t0 t1 : U32) (s : State) : Host.Outcome State Fault Refusal :=
  accept s fun s => .next (s.setRes (.u32 (elapsedTime t0 t1)))

/-- One evaluation of key k from the command port: the change of KS, then the pushes of an event's message
(R165, R166). A fault in either leaves KS as it was (R326). -/
def evaluate (line : Line) (k : Byte) (d : Bool) (t : U32) (s : State) : State :=
  match evalKey line k.toNat d t s with
  | (msg, s1) => if s1.fault then s1 else s.orFault (runOps [.push (messageBytes msg)] s1)

/-- KSM_START (R170). -/
def execKsmStart (k : Byte) (d : Bool) (t0 : U32) (s : State) : Host.Outcome State Fault Refusal :=
  accept s (withKey k fun s => .next (evaluate .startLine k d t0 s))

/-- KSM_END (R171). -/
def execKsmEnd (k : Byte) (d : Bool) (t0 : U32) (s : State) : Host.Outcome State Fault Refusal :=
  accept s (withKey k fun s => .next (evaluate .endLine k d t0 s))

end Sys2Proof.Machine
end

