-- ==== Sys2Proof/Machine/RingBuffer.lean ====
section
/-! DEFINITION. The ring-buffer operations of the command port (spec/44_ring_buffer.md R270-R274). -/

namespace Sys2Proof.Machine

/-- RES takes a flag of the ring buffer; an index out of range is a model fault (spec/10_state.md R57; log 12). -/
def resFlag (flag : Bool) (s : State) : State :=
  if s.orb.inRange s.cfg.rbCapacity then s.setRes (.bool flag) else s.raiseFault

/-- RB_IS_EMPTY (R270). -/
def execRbIsEmpty (s : State) : Host.Outcome State Fault Refusal :=
  accept s fun s => .next (resFlag s.orb.isEmpty s)

/-- RB_IS_FULL (R271). -/
def execRbIsFull (s : State) : Host.Outcome State Fault Refusal :=
  accept s fun s => .next (resFlag (s.orb.isFull s.cfg.rbCapacity) s)

/-- RB_TRY_POP (R272). -/
def execRbTryPop (s : State) : Host.Outcome State Fault Refusal :=
  accept s fun s =>
    match tryPop s with
    | (b, s1) => .next (if s1.fault then s1 else s1.setRes (.optU8 b))

/-- RB_DRAIN (R273). -/
def execRbDrain (s : State) : Host.Outcome State Fault Refusal :=
  accept s fun s =>
    match drain s with
    | (sent, s1) => .next (if s1.fault then s1 else s1.setRes (.bool sent))

/-- RB_PUSH (R274). -/
def execRbPush (b : Byte) (s : State) : Host.Outcome State Fault Refusal :=
  accept s fun s => .next (s.orFault (runOps [.push [b]] s))

end Sys2Proof.Machine
end

