-- ==== Sys2Proof/Machine/ScanLoop.lean ====
section
/-! DEFINITION. The compound operations of the loop (spec/45_scan_loop.md R290, R291), RUN (R296), INIT at the command
port (spec/70_reset_and_hazards.md R361), and the sequencer's step relation (R292). -/

namespace Sys2Proof.Machine

/-- SCAN_PASS (R290). -/
def execScanPass (s : State) : Host.Outcome State Fault Refusal :=
  accept s fun s => .next (s.orFault (runOps (scanPassBody s.cfg) s))

/-- LOOP_ITER (R291). -/
def execLoopIter (s : State) : Host.Outcome State Fault Refusal :=
  accept s fun s => .next (s.orFault (runOps (loopIterBody s.cfg) s))

/-- RUN never returns: from here on the sequencer steps by itself, from P_ITER_DRAIN (R296). -/
def execRun (s : State) : Host.Outcome State Fault Refusal :=
  accept s fun s => .next { s.setPhase .iterDrain with running := true }

/-- INIT at the command port (spec/70_reset_and_hazards.md R361), refused once it has been run
(spec/30_encoding.md R120). -/
def execInit (s : State) : Host.Outcome State Fault Refusal :=
  if s.fault then .fault .modelFault
  else if s.busy ≠ [] then .refused .busy
  else if s.refused then .refused .configRefused
  else if s.running then .refused .afterRun
  else if s.seq.phase ≠ .init then .refused .afterInit
  else .next ((initialise s).setRes .none)

/-- P_START_EVAL and P_END_EVAL (R292): position 8 ends the read's evaluations. Below 8, key BANK*8 + POS is evaluated;
an event's message is loaded into SEQ.MSG, to be pushed before the next evaluation. An index out of range faults
(spec/10_state.md R57; log 12). -/
def seqEval (line : Line) (mask : Byte) (t : U32) (ret : RetPhase) (after : Phase) (s : State) : State :=
  if s.seq.pos = 8 then s.setPhase after
  else if s.seq.pos < 8 ∧ s.seq.bank < s.cfg.numBanks then
    match evalKey line (keyId s.seq.bank s.seq.pos) (buttonDown mask s.seq.pos) t s with
    | (msg, s1) =>
      if s1.fault then s1
      else
        match msg with
        | none => s1.setPos (s.seq.pos + 1)
        | some m => s1.setSeq { s1.seq with pos := s.seq.pos + 1, msg := m, msgN := 3, ret := ret, phase := .push }
  else s.raiseFault

/-- P_PUSH (R292, R294): one drain attempt while FULL holds, else the next byte of SEQ.MSG is written. An index out of
range faults (spec/10_state.md R57; log 12). -/
def seqPush (s : State) : State :=
  if s.orb.inRange s.cfg.rbCapacity ∧ 1 ≤ s.seq.msgN ∧ s.seq.msgN ≤ 3 then
    if s.orb.isFull s.cfg.rbCapacity then (drain s).2
    else
      match s.seq.msg.byte (3 - s.seq.msgN) with
      | some b =>
        (s.setOrb (s.orb.put s.cfg.rbCapacity b)).setSeq
          { s.seq with
            msgN := s.seq.msgN - 1
            phase := if s.seq.msgN - 1 = 0 then phaseOfRet s.seq.ret else .push }
      | none => s.raiseFault
  else s.raiseFault

/-- P_STEP_TO_NEXT (R292): the bank advances, or the pass ends with BANK left where it is (spec/10_state.md R46). -/
def seqNextBank (s : State) : State :=
  if s.seq.bank < s.cfg.numBanks then
    let s := stepChain s
    if s.seq.bank + 1 < s.cfg.numBanks then (s.setBank (s.seq.bank + 1)).setPhase .startRead
    else s.setPhase .iterDrain
  else s.raiseFault

/-- One step of the sequencer (R292). A step that faults leaves the phase as it is (R293). -/
def seqStep (s : State) : Host.Outcome State Fault Refusal :=
  match s.seq.phase with
  | .init => .next (initialise s)
  | .refused => .fault .stuck
  | .iterDrain =>
    match drain s with
    | (_, s1) => .next (if s1.fault then s1 else s1.setPhase .passBegin)
  | .passBegin => .next ((beginPass (s.setBank 0)).setPhase .startRead)
  | .startRead => .next (((snapRead .startLine s).2.setPos 0).setPhase .startEval)
  | .startEval => .next (seqEval .startLine s.seq.sb s.seq.st .startEval .stepToEnd s)
  | .stepToEnd => .next ((stepChain s).setPhase .endRead)
  | .endRead =>
    match snapRead .endLine s with
    | (_, s1) => .next ((s1.setPos (if s1.seq.eb = 0 then 8 else 0)).setPhase .endEval)
  | .endEval => .next (seqEval .endLine s.seq.eb s.seq.et .endEval .stepToNext s)
  | .stepToNext => .next (seqNextBank s)
  | .push => .next (seqPush s)

end Sys2Proof.Machine
end

