-- ==== Sys2Proof/Machine/VelocityMapper.lean ====
section
/-! DEFINITION. The velocity mapper's operation of the command port (spec/42_velocity_mapper.md R200). -/

namespace Sys2Proof.Machine

/-- VELMAP (R200). Under a configuration that INIT refuses it is a model fault (R206; log 13). -/
def execVelmap (t0 : U32) (s : State) : Host.Outcome State Fault Refusal :=
  accept s fun s =>
    match velocityOf s.cfg t0 with
    | some v => .next (s.setRes (.u8 v))
    | none => .next s.raiseFault

end Sys2Proof.Machine
end

