-- ==== Sys2Proof/Machine/Dispatch.lean ====
section
/-! DEFINITION. The dispatch: one arm per row of spec/opcode_table.json. -/

namespace Sys2Proof.Machine

def exec (i : Instr) (s : State) : Host.Outcome State Fault Refusal :=
  match i with
  | .srBeginPass => Sys2Proof.Machine.execSrBeginPass s
  | .srStep => Sys2Proof.Machine.execSrStep s
  | .snapRead w => Sys2Proof.Machine.execSnapRead w s
  | .scanBank bk => Sys2Proof.Machine.execScanBank bk s
  | .elapsed t0 t1 => Sys2Proof.Machine.execElapsed t0 t1 s
  | .ksmStart k d t0 => Sys2Proof.Machine.execKsmStart k d t0 s
  | .ksmEnd k d t0 => Sys2Proof.Machine.execKsmEnd k d t0 s
  | .velmap t0 => Sys2Proof.Machine.execVelmap t0 s
  | .notenum k => Sys2Proof.Machine.execNotenum k s
  | .encOn k v => Sys2Proof.Machine.execEncOn k v s
  | .encOff k => Sys2Proof.Machine.execEncOff k s
  | .emitHit k t0 => Sys2Proof.Machine.execEmitHit k t0 s
  | .emitRel k => Sys2Proof.Machine.execEmitRel k s
  | .rbIsEmpty => Sys2Proof.Machine.execRbIsEmpty s
  | .rbIsFull => Sys2Proof.Machine.execRbIsFull s
  | .rbTryPop => Sys2Proof.Machine.execRbTryPop s
  | .rbDrain => Sys2Proof.Machine.execRbDrain s
  | .rbPush b => Sys2Proof.Machine.execRbPush b s
  | .scanPass => Sys2Proof.Machine.execScanPass s
  | .loopIter => Sys2Proof.Machine.execLoopIter s
  | .run => Sys2Proof.Machine.execRun s
  | .init => Sys2Proof.Machine.execInit s
  | .midiNoteOn c n v => Sys2Proof.Machine.execMidiNoteOn c n v s
  | .midiNoteOff c n => Sys2Proof.Machine.execMidiNoteOff c n s

end Sys2Proof.Machine
end

