-- ==== Sys2Proof/Machine/Step.lean ====
section
/-! DEFINITION. The step function. KEB fetches no instruction stream (spec/30_encoding.md): its next command is the one
offered on the command port, until RUN is given: from then on the sequencer steps by itself
(spec/45_scan_loop.md R292, R296, R299). -/

namespace Sys2Proof.Machine

/-- The command port's side of a step: the offered bits are decoded, then executed with the command taken off the port
(R114, R115); bits that are no row of the table are refused (R118, R120). -/
def stepCommand (w : Wire) (rest : List Wire) (s : State) : Host.Outcome State Fault Refusal :=
  match decode w with
  | .ok i => exec i { s with port := rest }
  | .error _ => .refused .reservedOpcode

/-- The first step after reset with no command offered is the sequencer's INIT (spec/70_reset_and_hazards.md R360),
after which it goes on by itself, as after RUN (log 8); a refused INIT leaves it stopped (R50). After an INIT from the
port it takes no step until RUN is given (R299; log 9). -/
def stepIdle (s : State) : Host.Outcome State Fault Refusal :=
  if s.seq.phase = .init then .next { initialise s with running := !(initialise s).refused }
  else if s.refused then .fault .stuck
  else .refused .noCommand

/-- One step of the machine: nothing after a model fault (spec/10_state.md R51); else the operation in progress goes on
(spec/44_ring_buffer.md R275). After RUN the sequencer takes every step and the port is not read: "the port accepts no
further command" (R299) and a refusal does not hold the sequencer back (spec/60_exceptions.md R320). That a command
offered after RUN stays on the port, where `exec` would refuse it, and costs the sequencer no step is the model's choice
(DESIGN CHOICE, log 19). Before RUN the next command is taken from the port. -/
def step (s : State) : Host.Outcome State Fault Refusal :=
  if s.fault then .fault .modelFault
  else
    match s.busy with
    | m :: ms => .next (s.orFault (runOps (m :: ms) s))
    | [] =>
      if s.running then seqStep s
      else
        match s.port with
        | w :: rest => stepCommand w rest s
        | [] => stepIdle s

/-- `s` with an opcode-table word offered on the command port ahead of any other command, and no operation in progress,
so that the next step takes it, unless RUN has been given and the port is no longer read (logs 7, 19). -/
def State.withFetchWord (s : State) (nbits w : Nat) : State :=
  { s with port := wireOfTableWord nbits w :: s.port, busy := [] }

end Sys2Proof.Machine
end

