-- ==== Sys2Proof/Safety.lean ====
section
/-! DEFINITION. The terms claims about KEB are stated in: when the command port accepts a command, the invariant of
spec/10_state.md R57, the outstanding bytes (R41), and what an observer reads from TRACE (R52, R58). -/

namespace Sys2Proof.Machine

/-- The port accepts a command other than INIT: INIT has completed, RUN has not been given, nothing is in progress
(spec/30_encoding.md R120). After a successful INIT the phase is P_ITER_DRAIN (spec/45_scan_loop.md R299). -/
abbrev PortOpen (s : State) : Prop :=
  s.fault = false ∧ s.busy = [] ∧ s.refused = false ∧ s.running = false ∧ s.seq.phase = .iterDrain

/-- Every check of spec/60_exceptions.md R325 passes. -/
abbrev ConfigOk (c : Cfg) : Prop := firstFailure (configChecks c) = none

/-- The slot of the j-th outstanding byte (R41). -/
def Orb.slot (cap : Nat) (o : Orb) (j : Nat) : Nat := (o.outIdx + j) % cap

/-- The outstanding bytes, oldest first (R41). -/
def Orb.bytes (cap : Nat) (o : Orb) : List Byte :=
  (List.range (o.count cap)).filterMap fun j => Memory.read o.mem (o.slot cap j)

/-- The outstanding bytes of a state. -/
def outstanding (s : State) : List Byte := s.orb.bytes s.cfg.rbCapacity

/-- The ring buffer as a run from INIT leaves it: a legal capacity, indices in range, storage in canonical form and
within the capacity, every outstanding slot written (R37, R56, R57). -/
abbrev OrbGood (cap : Nat) (o : Orb) : Prop :=
  1 < cap ∧ o.inIdx < cap ∧ o.outIdx < cap ∧ Memory.wf o.mem = true ∧ (∀ x ∈ o.mem, x.1 < cap)
    ∧ ∀ j < o.count cap, (Memory.read o.mem (o.slot cap j)).isSome = true

/-- The key-state file holds one entry for each key, none with the illegal code 3 (R32, R33, R57). -/
abbrev KsGood (c : Cfg) (ks : List KeyEntry) : Prop := ks.length = c.numKeys ∧ ∀ e ∈ ks, e.st ≠ 3

/-- A statement of a body in progress that names only keys and banks that exist. -/
abbrev MicroGood (c : Cfg) : Micro → Prop
  | .evalStart b p => b < c.numBanks ∧ p < 8
  | .evalEnd b p => b < c.numBanks ∧ p < 8
  | .setBank b => b < c.numBanks
  | .setPos p => p ≤ 8
  | .push _ => True
  | .drain => True
  | .beginPass => True
  | .srStep => True
  | .snapRead _ => True

/-- The sequencer registers in their ranges; in P_PUSH a byte is left to push (R43, R44, R57). -/
abbrev SeqGood (c : Cfg) (q : Seq) : Prop :=
  q.bank < c.numBanks ∧ q.pos ≤ 8 ∧ q.msgN ≤ 3 ∧ (q.phase = .push → 1 ≤ q.msgN)

/-- The invariant of R57, for a state after a successful INIT. -/
abbrev Live (s : State) : Prop :=
  ConfigOk s.cfg ∧ s.fault = false ∧ s.refused = false ∧ s.seq.phase ≠ .init ∧ s.seq.phase ≠ .refused
    ∧ OrbGood s.cfg.rbCapacity s.orb ∧ KsGood s.cfg s.ks ∧ SeqGood s.cfg s.seq
    ∧ ∀ m ∈ s.busy, MicroGood s.cfg m

/-- A state before INIT (R55). -/
abbrev BeforeInit (s : State) : Prop :=
  s.seq.phase = .init ∧ s.fault = false ∧ s.refused = false ∧ s.busy = [] ∧ s.orb.mem = [] ∧ s.running = false

/-- A state in which INIT has refused the configuration (R50). -/
abbrev ConfigRefused (s : State) : Prop :=
  s.seq.phase = .refused ∧ s.fault = false ∧ s.refused = true ∧ s.busy = [] ∧ s.running = false

/-- The invariant every step keeps: no run from reset reaches FAULT = 1 (R51, R57). -/
abbrev Reachable (s : State) : Prop := BeforeInit s ∨ ConfigRefused s ∨ Live s

/-- The bytes sent, in order: the `Tx` entries of TRACE (R52). -/
def txBytes (tr : List Event) : List Byte :=
  tr.filterMap fun
    | .tx b => some b
    | _ => none

/-- The bytes of SEQ.MSG that P_PUSH has not pushed yet (R44). -/
def unpushed (q : Seq) : List Byte := q.msg.bytes.drop (3 - q.msgN)

/-- The messages a receiver reads from a byte stream, `none` where the stream is not a sequence of whole messages
(spec/30_encoding.md R124). -/
def readStream : List Byte → Option (List Instr)
  | [] => some []
  | status :: note :: velocity :: rest =>
    match decode (.midi3 status note velocity), readStream rest with
    | .ok i, some is => some (i :: is)
    | _, _ => none
  | _ => none

/-- The entry KSM_START or KSM_END leaves for a key: columns "next state" and "pt" of
spec/41_key_state_machine.md R162. -/
def entryAfter (c : Cfg) (line : Line) (e : KeyEntry) (down : Bool) (t : U32) : KeyEntry :=
  match transition c line e down t with
  | .keep => e
  | .move e' => e'
  | .hit e' _ => e'
  | .release e' => e'
  | .inconsistent => e
  | .illegal => e

/-- The bytes that evaluation pushes: the message of its Hit or Release, if it has one (column "output" of R162). -/
def eventBytes (c : Cfg) (line : Line) (k : Nat) (e : KeyEntry) (down : Bool) (t : U32) : List Byte :=
  match transition c line e down t with
  | .hit _ d => messageBytes (hitMessage c k d)
  | .release _ => messageBytes (encodeOff c k)
  | .keep => []
  | .move _ => []
  | .inconsistent => []
  | .illegal => []

/-- The diagnostic that evaluation reports (R167). -/
def diagEvents (c : Cfg) (line : Line) (k : Nat) (e : KeyEntry) (down : Bool) (t : U32) : List Event :=
  match transition c line e down t with
  | .inconsistent => [.diag 0x01 k]
  | .keep => []
  | .move _ => []
  | .hit _ _ => []
  | .release _ => []
  | .illegal => []

/-- `o'` is `o` after the bytes of a list have been pushed: they stand in the slots from `ORB.in` on, which has advanced
past them; every other slot and `ORB.out` are as before; and the outstanding bytes have grown by the list
(spec/44_ring_buffer.md R262, R274). -/
def Stored (cap : Nat) (o o' : Orb) (bs : List Byte) : Prop :=
  o'.outIdx = o.outIdx ∧ o'.inIdx = (o.inIdx + bs.length) % cap
    ∧ (∀ j b, bs[j]? = some b → Memory.read o'.mem ((o.inIdx + j) % cap) = some b)
    ∧ (∀ i, (∀ j < bs.length, i ≠ (o.inIdx + j) % cap) → Memory.read o'.mem i = Memory.read o.mem i)
    ∧ o'.bytes cap = o.bytes cap ++ bs

/-- The bytes a statement of a body asks to push: those of its list, or of its evaluation's event
(spec/41_key_state_machine.md R165, R166). -/
def Micro.asked (m : Micro) (s : State) : List Byte :=
  match m with
  | .push bs => bs
  | .evalStart b p =>
    eventBytes s.cfg .startLine (keyId b p) (s.ks.getD (keyId b p) KeyEntry.initial) (buttonDown s.seq.sb p) s.seq.st
  | .evalEnd b p =>
    if s.seq.eb = 0 then []
    else eventBytes s.cfg .endLine (keyId b p) (s.ks.getD (keyId b p) KeyEntry.initial) (buttonDown s.seq.eb p) s.seq.et
  | .drain => []
  | .beginPass => []
  | .srStep => []
  | .snapRead _ => []
  | .setBank _ => []
  | .setPos _ => []

/-- The bytes a body pushes in one step: all that its statements ask for, up to the byte that has to wait
(spec/44_ring_buffer.md R274, R275). -/
def bodyPushes : List Micro → State → List Byte
  | [], _ => []
  | m :: ms, s =>
    match doMicro m s with
    | ([], s1) => m.asked s ++ bodyPushes ms s1
    | (left, _) => (m.asked s).take ((m.asked s).length - left.length)

/-- The bytes a command pushes in its own step; those a wait leaves are pushed by later steps. -/
def commandPushes (i : Instr) (s : State) : List Byte :=
  match i with
  | .scanBank bk => bodyPushes (scanBankBody bk.toNat) s
  | .ksmStart k d t0 =>
    bodyPushes [.push (eventBytes s.cfg .startLine k.toNat (s.ks.getD k.toNat KeyEntry.initial) d t0)] s
  | .ksmEnd k d t0 =>
    bodyPushes [.push (eventBytes s.cfg .endLine k.toNat (s.ks.getD k.toNat KeyEntry.initial) d t0)] s
  | .emitHit k t0 => bodyPushes [.push (messageBytes (hitMessage s.cfg k.toNat t0))] s
  | .emitRel k => bodyPushes [.push (messageBytes (encodeOff s.cfg k.toNat))] s
  | .rbPush b => bodyPushes [.push [b]] s
  | .scanPass => bodyPushes (scanPassBody s.cfg) s
  | .loopIter => bodyPushes (loopIterBody s.cfg) s
  | .srBeginPass => []
  | .srStep => []
  | .snapRead _ => []
  | .elapsed _ _ => []
  | .velmap _ => []
  | .notenum _ => []
  | .encOn _ _ => []
  | .encOff _ => []
  | .rbIsEmpty => []
  | .rbIsFull => []
  | .rbTryPop => []
  | .rbDrain => []
  | .run => []
  | .init => []
  | .midiNoteOn _ _ _ => []
  | .midiNoteOff _ _ => []

/-- The byte a sequencer step pushes: the next one of SEQ.MSG, in P_PUSH with room; none in any other phase
(spec/45_scan_loop.md R292, R294). -/
def sequencerPushes (s : State) : List Byte :=
  if s.seq.phase = .push ∧ s.orb.isFull s.cfg.rbCapacity = false then (s.seq.msg.byte (3 - s.seq.msgN)).toList else []

/-- The bytes the next step pushes, oldest first. -/
def stepPushes (s : State) : List Byte :=
  match s.busy with
  | m :: ms => bodyPushes (m :: ms) s
  | [] =>
    if s.running then sequencerPushes s
    else
      match s.port with
      | [] => []
      | w :: _ =>
        match decode w with
        | .ok i => commandPushes i s
        | .error _ => []

/-- What an observer of the pins sees of a TRACE beside the transmitter: every entry but `Ready` and `Tx` (R52). -/
def scanTrace (tr : List Event) : List Event :=
  tr.filter fun
    | .ready _ => false
    | .tx _ => false
    | _ => true

/-- `n` steps of the machine, stopping at the first fault or refusal (spec/45_scan_loop.md R297). -/
def runSteps : Nat → State → Host.Outcome State Fault Refusal
  | 0, s => .next s
  | n + 1, s =>
    match step s with
    | .next t => runSteps n t
    | .fault r => .fault r
    | .refused r => .refused r

/-- `u`, the state a command answered, reaches `t` by further steps of its waits: `t` has nothing in progress
(spec/44_ring_buffer.md R275). For a state with no command on its port. -/
def Finishes (u t : State) : Prop := ∃ n, runSteps n u = .next t ∧ t.busy = []

/-- The TRACE entries of a pulse on a pin (spec/40_bank_scanner.md R130). -/
def pulseTrace (c : Cfg) (pin : Nat) : List Event :=
  [.write pin 1, .wait c.tSrUs, .write pin 0, .wait c.tSrUs]

/-- The 14 TRACE entries of SR_BEGIN_PASS (R131). -/
def beginPassTrace (c : Cfg) : List Event :=
  [ .write c.pinReset c.srResetActive, .wait c.tSrUs, .write c.pinReset (1 - c.srResetActive), .wait c.tSrUs,
    .write c.pinData 1, .write c.pinClock 1, .wait c.tSrUs, .write c.pinClock 0, .wait c.tSrUs, .write c.pinData 0,
    .write c.pinLatch 1, .wait c.tSrUs, .write c.pinLatch 0, .wait c.tSrUs ]

/-- The 4 TRACE entries of SR_STEP, or 8 when LATCH_REQUIRED (R132). -/
def stepTrace (c : Cfg) : List Event :=
  pulseTrace c c.pinClock ++ if c.latchRequired then pulseTrace c c.pinLatch else []

/-- The 16 TRACE entries of a successful INIT (spec/70_reset_and_hazards.md R361). -/
def initTrace (c : Cfg) : List Event :=
  [ .setDir c.pinReset .output, .setDir c.pinData .output, .setDir c.pinClock .output, .setDir c.pinLatch .output ]
    ++ c.inputPins.toList.map (.setDir · .input)
    ++ [.write c.pinReset (1 - c.srResetActive), .write c.pinData 0, .write c.pinClock 0, .write c.pinLatch 0]

/-- The code with which INIT refuses a configuration: the first row of the table of spec/60_exceptions.md R325 whose
"fails when" holds. -/
def refusalCode (c : Cfg) : Option Byte :=
  if c.numBanks < 1 then some 0x10
  else if c.keysPerBank ≠ 8 then some 0x11
  else if c.noteOffset < 0 ∨ c.noteOffset + (c.numBanks * c.keysPerBank : Nat) - 1 > 127 then some 0x12
  else if c.rbCapacity ≤ 1 then some 0x13
  else if c.minKeyTimeUs ≥ c.maxKeyTimeUs then some 0x14
  else if ¬(1 ≤ c.minVelocity ∧ c.minVelocity ≤ c.maxVelocity ∧ c.maxVelocity ≤ 127) then some 0x15
  else if c.midiChannel > 15 then some 0x16
  else if c.debounceUs < 0 ∨ c.debounceUs ≥ 2 ^ 32 then some 0x17
  else if ¬c.pins.Nodup ∨ (c.srResetActive ≠ 0 ∧ c.srResetActive ≠ 1) then some 0x18
  else none

/-- The level an output pin was last driven to, read from TRACE (R52). -/
def pinLevel (pin : Nat) (tr : List Event) : Option Nat :=
  tr.foldl (fun l e => match e with
    | .write p level => if p = pin then some level else l
    | _ => l) none

/-- How a command that pushes one message behaves (spec/43_event_encoder.md R223-R225; spec/44_ring_buffer.md R275).
With room it completes at once. Otherwise its step stores the bytes there is room for and makes one drain attempt, the
rest of the message still to push: that the step ends there, even where the attempt sent a byte, is the model's choice
(log 10). However it waits, once finished it has changed only the buffer, TRACE (by the drains'
entries alone) and RES, and the message follows all earlier bytes; and three successful attempts finish it. -/
def MessagePushed (i : Instr) (s : State) (msg : List Byte) : Prop :=
  let cap := s.cfg.rbCapacity
  let room := cap - 1 - s.orb.count cap
  (msg.length ≤ room → ∃ o', exec i s = .next { s with orb := o', res := .none } ∧ Stored cap s.orb o' msg) ∧
  (room < msg.length → ∃ o', Stored cap s.orb o' (msg.take room) ∧ o'.isFull cap = true ∧
    exec i s = .next { (drain { s with orb := o' }).2 with busy := [.push (msg.drop room)] }) ∧
  (s.port = [] → ∀ u t, exec i s = .next u → Finishes u t →
    t = { s with orb := t.orb, trace := t.trace, env := t.env, res := .none } ∧
      scanTrace t.trace = scanTrace s.trace ∧
      txBytes t.trace ++ outstanding t = txBytes s.trace ++ outstanding s ++ msg) ∧
  (s.port = [] → ∀ rs, s.env.readies = List.replicate msg.length true ++ rs → ∃ u t, exec i s = .next u ∧ Finishes u t)

/-- The sequencer, run from P_ITER_DRAIN in `s`, first returns there in `u` (spec/45_scan_loop.md R295). -/
def FirstReturn (s u : State) : Prop :=
  ∃ m, runSteps (m + 1) { s with running := true } = .next u ∧ u.seq.phase = .iterDrain ∧
    ∀ j < m, ∀ v, runSteps (j + 1) { s with running := true } = .next v → v.seq.phase ≠ .iterDrain

/-- Two states agree in the components of spec/45_scan_loop.md R295, in the answers drawn and in the chain. -/
def SameIteration (t u : State) : Prop :=
  u.ks = t.ks ∧ u.orb = t.orb ∧ u.trace = t.trace ∧ u.env = t.env ∧ u.chain = t.chain ∧
    u.seq.sb = t.seq.sb ∧ u.seq.st = t.seq.st ∧ u.seq.eb = t.seq.eb ∧ u.seq.et = t.seq.et ∧ u.seq.bank = t.seq.bank

end Sys2Proof.Machine
end

