-- ==== Sys2Proof/Certificates/Slice0/Obligations.lean ====
section
/-! DEFINITION. The statements about KEB for the provers. Hypotheses are on the state and the operands alone; `PortOpen`
is the condition under which the command port accepts a command, `Live` the invariant of spec/10_state.md R57. A next
state written `{ s with … }` is a frame: every field not named is unchanged. -/

open Sys2Proof Sys2Proof.Machine

/-! ## Encodings and the step -/

/-- Decoding the bits of a well-formed instruction gives it back, for every row of the table (R106, R107, R112, R114). -/
def Obligations.DecodeEncodeAgree : Prop :=
  ∀ i : Instr, i.wf = true → decode (encode i) = .ok i

/-- Three bytes have at most one reading as a message: whatever they decode to encodes to the same three bytes, and is
well formed (R108). -/
def Obligations.MessageBytesHaveOneReading : Prop :=
  ∀ (a b c : Byte) (i : Instr), decode (.midi3 a b c) = .ok i → encode i = .midi3 a b c ∧ i.wf = true

/-- The OPSEL values R118 lists, and only those, are no operation, and a step that finds one on the port refuses it. -/
def Obligations.ReservedCodesAreRefused : Prop :=
  ∀ p : Ports,
    let c := p.opsel.toNat
    let reserved := c = 0x00 ∨ (0x05 ≤ c ∧ c ≤ 0x0F) ∨ (0x13 ≤ c ∧ c ≤ 0x1F) ∨ (0x21 ≤ c ∧ c ≤ 0x2F)
      ∨ (0x35 ≤ c ∧ c ≤ 0x3F) ∨ (0x45 ≤ c ∧ c ≤ 0x4F) ∨ (0x53 ≤ c ∧ c ≤ 0xEF) ∨ (0xF1 ≤ c ∧ c ≤ 0xFF)
    (reserved ↔ ∀ i, decode (.op8 p) ≠ .ok i) ∧
    ∀ (s : State) (rest : List Wire), s.fault = false → s.busy = [] → s.running = false →
      s.port = .op8 p :: rest → reserved →
      step s = .refused .reservedOpcode

/-- Words of the table, one for each family, written out from R114 and R106, R107. That the table's number of a message
has its status byte at bits 23..16 is the model's reading (log 16). -/
def Obligations.SampleWordsDecode : Prop :=
  decodeTableWord 8 0x01 = some .srBeginPass ∧ decodeTableWord 8 0x11 = some (.ksmStart 0 false 0)
    ∧ decodeTableWord 8 0x20 = some (.velmap 0) ∧ decodeTableWord 8 0x31 = some (.encOn 0 0)
    ∧ decodeTableWord 8 0x44 = some (.rbPush 0) ∧ decodeTableWord 8 0x52 = some .run
    ∧ decodeTableWord 8 0xF0 = some .init ∧ decodeTableWord 8 0xFF = none
    ∧ decodeTableWord 24 0x951A63 = some (.midiNoteOn 5 0x1A 0x63)
    ∧ decodeTableWord 24 0x8F1A00 = some (.midiNoteOff 15 0x1A)
    ∧ decodeTableWord 24 0x901AE3 = none

/-- Before RUN, a step takes the command at the head of the port and executes it, the command taken off (R111); a word
offered by `withFetchWord` is the next one taken. The list of offered commands and `withFetchWord` are the model's
(log 7). -/
def Obligations.StepRunsTheDecodedCommand : Prop :=
  (∀ (s : State) (w : Wire) (rest : List Wire) (i : Instr),
    s.fault = false → s.busy = [] → s.running = false → s.port = w :: rest → decode w = .ok i →
      step s = exec i { s with port := rest }) ∧
  ∀ (s : State) (nbits w : Nat) (i : Instr), s.fault = false → s.running = false →
    decodeTableWord nbits w = some i →
    step (s.withFetchWord nbits w) = exec i { s with busy := [] }

/-- A MIDI message is no command: KEB reads no MIDI input (R227). The name of the outcome is the model's (log 16). -/
def Obligations.MidiMessagesAreRefused : Prop :=
  ∀ (s : State) (c n v : Byte),
    exec (.midiNoteOn c n v) s = .refused .noMidiInput ∧ exec (.midiNoteOff c n) s = .refused .noMidiInput

/-- What the encoder builds for a key of a legal configuration is a MIDI message of R106 or R107: the channel in the low
bits of the status byte, the key's note, and a velocity that is never 0 in a Note On. -/
def Obligations.EncodedEventsAreMidiMessages : Prop :=
  ∀ (c : Cfg) (k : Nat) (d : U32), ConfigOk c → k < c.numKeys →
    (∃ m, hitMessage c k d = some m ∧ (m.note.toNat : Int) = (k : Int) + c.noteOffset ∧ m.velocity ≠ 0
      ∧ decode (.midi3 m.status m.note m.velocity)
        = .ok (.midiNoteOn (BitVec.ofNat 8 c.midiChannel) m.note m.velocity)) ∧
    ∃ m, encodeOff c k = some m ∧ (m.note.toNat : Int) = (k : Int) + c.noteOffset ∧ m.velocity = 0
      ∧ decode (.midi3 m.status m.note m.velocity) = .ok (.midiNoteOff (BitVec.ofNat 8 c.midiChannel) m.note)

/-! ## Bank scanner -/

/-- SR_BEGIN_PASS drives the waveform of R131 and changes nothing else; the stimulus is then at output 0. -/
def Obligations.SrBeginPassPlacesTheStimulus : Prop :=
  (∀ p : Ports, p.opsel = 0x01 → decode (.op8 p) = .ok .srBeginPass) ∧
  ∀ s : State, PortOpen s →
    exec .srBeginPass s
      = .next { s with trace := s.trace ++ beginPassTrace s.cfg, chain := some 0, res := .none }

/-- SR_STEP pulses CLOCK, and LATCH where the device needs it, and moves the stimulus one output on (R132). -/
def Obligations.SrStepMovesTheStimulus : Prop :=
  (∀ p : Ports, p.opsel = 0x02 → decode (.op8 p) = .ok .srStep) ∧
  ∀ s : State, PortOpen s →
    (s.cfg.latchRequired = false → exec .srStep s
      = .next { s with
          trace := s.trace ++ pulseTrace s.cfg s.cfg.pinClock
          chain := s.chain.map (· + 1)
          res := .none }) ∧
    (s.cfg.latchRequired = true → exec .srStep s
      = .next { s with
          trace := s.trace ++ pulseTrace s.cfg s.cfg.pinClock ++ pulseTrace s.cfg s.cfg.pinLatch
          chain := s.chain.map (· + 1)
          res := .none })

/-- SNAP_READ draws the mask, then the counter, records both and fills the half that W names (R133). -/
def Obligations.SnapReadFillsItsHalf : Prop :=
  (∀ p : Ports, p.opsel = 0x03 →
    decode (.op8 p) = .ok (.snapRead (if p.w = 0 then .startLine else .endLine))) ∧
  ∀ (s : State) (m : Byte) (e1 : Env) (t : U32) (e2 : Env), PortOpen s →
    s.env.drawMask = (m, e1) → e1.drawTime = (t, e2) →
    exec (.snapRead .startLine) s
      = .next { s with
          seq := { s.seq with sb := m, st := t }
          trace := s.trace ++ [.mask m, .time t]
          env := e2
          res := .snap m t } ∧
    exec (.snapRead .endLine) s
      = .next { s with
          seq := { s.seq with eb := m, et := t }
          trace := s.trace ++ [.mask m, .time t]
          env := e2
          res := .snap m t }

/-- SCAN_BANK with room for every event it could emit: all eight start evaluations with SB and ST, then the step to the
end line, then the end evaluations with EB and ET, then the step to the next bank; TRACE has the shape of R138, the
events are pushed in evaluation order (R175), and no key of another bank changes (R134, R172, R174). In a buffer that
fills midway (R374), with the masks and stamps scripted: once its waits are over the outcome is the same, the drains'
entries in TRACE aside, and every byte follows all earlier ones (R225); 48 successful attempts end the waits. -/
def Obligations.ScanBankRunsThePerBankProtocol : Prop :=
  (∀ (s : State) (bk : Byte) (sb : Byte) (st : U32) (eb : Byte) (et : U32) (e1 e2 e3 e4 : Env),
      PortOpen s → Live s → bk.toNat < s.cfg.numBanks →
      s.orb.count s.cfg.rbCapacity + 48 < s.cfg.rbCapacity →
      s.env.drawMask = (sb, e1) → e1.drawTime = (st, e2) → e2.drawMask = (eb, e3) → e3.drawTime = (et, e4) →
      let b := bk.toNat
      let before := fun p => s.ks.getD (keyId b p) KeyEntry.initial
      let mid := fun p => entryAfter s.cfg .startLine (before p) (buttonDown sb p) st
      ∃ ks' o', exec (.scanBank bk) s
          = .next { s with
              ks := ks'
              orb := o'
              seq := { s.seq with sb := sb, st := st, eb := eb, et := et, bank := b, pos := 8 }
              res := .none
              trace := s.trace ++ (if b = 0 then beginPassTrace s.cfg else []) ++ [.mask sb, .time st]
                ++ stepTrace s.cfg ++ [.mask eb, .time et]
                ++ (List.range 8).flatMap (fun p =>
                    diagEvents s.cfg .endLine (keyId b p) (mid p) (buttonDown eb p) et)
                ++ stepTrace s.cfg
              chain := if b = 0 then some 2 else s.chain.map (· + 2)
              env := e4 } ∧
        Stored s.cfg.rbCapacity s.orb o'
          ((List.range 8).flatMap (fun p =>
              eventBytes s.cfg .startLine (keyId b p) (before p) (buttonDown sb p) st)
            ++ (List.range 8).flatMap (fun p =>
              eventBytes s.cfg .endLine (keyId b p) (mid p) (buttonDown eb p) et)) ∧
        ks'.length = s.ks.length ∧
        (∀ p < 8, ks'[keyId b p]? = some (entryAfter s.cfg .endLine (mid p) (buttonDown eb p) et)) ∧
        ∀ k, (∀ p < 8, k ≠ keyId b p) → ks'[k]? = s.ks[k]?) ∧
  ∀ (s : State) (bk : Byte) (sb : Byte) (st : U32) (eb : Byte) (et : U32) (ms : List Byte) (ts : List U32),
    PortOpen s → Live s → s.port = [] → bk.toNat < s.cfg.numBanks →
    s.env.masks = sb :: eb :: ms → s.env.times = st :: et :: ts →
    let b := bk.toNat
    let before := fun p => s.ks.getD (keyId b p) KeyEntry.initial
    let mid := fun p => entryAfter s.cfg .startLine (before p) (buttonDown sb p) st
    ∃ u, exec (.scanBank bk) s = .next u ∧
      (∀ t, Finishes u t →
        t = { s with
            ks := t.ks
            orb := t.orb
            seq := { s.seq with sb := sb, st := st, eb := eb, et := et, bank := b, pos := 8 }
            res := .none
            trace := t.trace
            chain := if b = 0 then some 2 else s.chain.map (· + 2)
            env := { t.env with masks := ms, times := ts } } ∧
        scanTrace t.trace = scanTrace s.trace ++ (if b = 0 then beginPassTrace s.cfg else []) ++ [.mask sb, .time st]
          ++ stepTrace s.cfg ++ [.mask eb, .time et]
          ++ (List.range 8).flatMap (fun p =>
              diagEvents s.cfg .endLine (keyId b p) (mid p) (buttonDown eb p) et)
          ++ stepTrace s.cfg ∧
        txBytes t.trace ++ outstanding t = txBytes s.trace ++ outstanding s
          ++ ((List.range 8).flatMap (fun p =>
              eventBytes s.cfg .startLine (keyId b p) (before p) (buttonDown sb p) st)
            ++ (List.range 8).flatMap (fun p =>
              eventBytes s.cfg .endLine (keyId b p) (mid p) (buttonDown eb p) et)) ∧
        t.ks.length = s.ks.length ∧
        (∀ p < 8, t.ks[keyId b p]? = some (entryAfter s.cfg .endLine (mid p) (buttonDown eb p) et)) ∧
        ∀ k, (∀ p < 8, k ≠ keyId b p) → t.ks[k]? = s.ks[k]?) ∧
      ∀ rs, s.env.readies = List.replicate 48 true ++ rs → ∃ t, Finishes u t

/-! ## Key state machine -/

/-- ELAPSED is subtraction modulo 2^32 (R160). -/
def Obligations.ElapsedSubtractsModulo : Prop :=
  (∀ p : Ports, p.opsel = 0x10 → decode (.op8 p) = .ok (.elapsed p.t0 p.t1)) ∧
  ∀ (s : State) (now thn : U32), PortOpen s →
    ∃ d : U32, d.toNat = (2 ^ 32 - thn.toNat + now.toNat) % 2 ^ 32 ∧
      exec (.elapsed now thn) s = .next { s with res := .u32 d }

/-- ELAPSED of two stamps a true duration `d` apart is `d` modulo 2^32, so `d` itself below 2^32, across any wrap of the
counter (R161). -/
def Obligations.ElapsedIsTheTrueDuration : Prop :=
  ∀ a d : Nat, (elapsedTime (BitVec.ofNat 32 (a + d)) (BitVec.ofNat 32 a)).toNat = d % 2 ^ 32

/-- Idle at a start read with the contact closed: the key is Started and the stamp recorded (R163). -/
def Obligations.KsmStartRecordsThePress : Prop :=
  (∀ p : Ports, p.opsel = 0x11 → decode (.op8 p) = .ok (.ksmStart p.k (decide (p.d = 1)) p.t0)) ∧
  ∀ (s : State) (k : Byte) (t : U32) (e : KeyEntry), PortOpen s → k.toNat < s.cfg.numKeys →
    s.ks[k.toNat]? = some e → e.st = 0 →
    exec (.ksmStart k true t) s
      = .next { s with ks := s.ks.set k.toNat { st := 1, pt := t }, res := .none }

/-- Started at a start read with the contact open, more than DEBOUNCE_US after the press: back to Idle, nothing emitted,
no diagnostic (R164, R323). -/
def Obligations.KsmStartRejectsABounce : Prop :=
  ∀ (s : State) (k : Byte) (t : U32) (e : KeyEntry), PortOpen s → k.toNat < s.cfg.numKeys →
    s.ks[k.toNat]? = some e → e.st = 1 → ((t - e.pt).toNat : Int) > s.cfg.debounceUs →
    exec (.ksmStart k false t) s
      = .next { s with ks := s.ks.set k.toNat { st := 0, pt := e.pt }, res := .none }

/-- Hit at a start read with the contact open: the key is Idle before the first byte is pushed, and EMIT_REL follows
(R166); with room for its three bytes it completes in one step. -/
def Obligations.KsmStartReleases : Prop :=
  ∀ (s : State) (k : Byte) (t : U32) (e : KeyEntry), PortOpen s → Live s → k.toNat < s.cfg.numKeys →
    s.ks[k.toNat]? = some e → e.st = 2 →
    (∃ u, exec (.ksmStart k false t) s = .next u ∧
      exec (.emitRel k) { s with ks := s.ks.set k.toNat { st := 0, pt := e.pt } } = .next u) ∧
    (s.orb.count s.cfg.rbCapacity + 3 < s.cfg.rbCapacity →
      ∃ n o', (n.toNat : Int) = (k.toNat : Int) + s.cfg.noteOffset ∧
        exec (.ksmStart k false t) s
          = .next { s with ks := s.ks.set k.toNat { st := 0, pt := e.pt }, orb := o', res := .none } ∧
        Stored s.cfg.rbCapacity s.orb o' [0x80 ||| BitVec.ofNat 8 s.cfg.midiChannel, n, 0])

/-- The other rows of R162 at a start read change nothing and emit nothing (R169). -/
def Obligations.KsmStartKeepsTheRest : Prop :=
  ∀ (s : State) (k : Byte) (d : Bool) (t : U32) (e : KeyEntry), PortOpen s → k.toNat < s.cfg.numKeys →
    s.ks[k.toNat]? = some e →
    ((e.st = 0 ∧ d = false) ∨ (e.st = 1 ∧ d = true)
      ∨ (e.st = 1 ∧ d = false ∧ ((t - e.pt).toNat : Int) ≤ s.cfg.debounceUs) ∨ (e.st = 2 ∧ d = true)) →
    exec (.ksmStart k d t) s = .next { s with res := .none }

/-- Started at an end read with the contact closed: the key is Hit before the first byte is pushed, and EMIT_HIT follows
with the elapsed time (R165); with room for its three bytes it completes in one step. -/
def Obligations.KsmEndHits : Prop :=
  (∀ p : Ports, p.opsel = 0x12 → decode (.op8 p) = .ok (.ksmEnd p.k (decide (p.d = 1)) p.t0)) ∧
  ∀ (s : State) (k : Byte) (t : U32) (e : KeyEntry), PortOpen s → Live s → k.toNat < s.cfg.numKeys →
    s.ks[k.toNat]? = some e → e.st = 1 →
    (∃ u, exec (.ksmEnd k true t) s = .next u ∧
      exec (.emitHit k (t - e.pt)) { s with ks := s.ks.set k.toNat { st := 2, pt := e.pt } } = .next u) ∧
    (s.orb.count s.cfg.rbCapacity + 3 < s.cfg.rbCapacity →
      ∃ n v o', (n.toNat : Int) = (k.toNat : Int) + s.cfg.noteOffset ∧ velocityOf s.cfg (t - e.pt) = some v ∧
        exec (.ksmEnd k true t) s
          = .next { s with ks := s.ks.set k.toNat { st := 2, pt := e.pt }, orb := o', res := .none } ∧
        Stored s.cfg.rbCapacity s.orb o' [0x90 ||| BitVec.ofNat 8 s.cfg.midiChannel, n, v])

/-- Idle at an end read with the contact closed: a diagnostic with code 0x01 and the key id, nothing else (R167, R322). -/
def Obligations.KsmEndReportsTheInconsistency : Prop :=
  ∀ (s : State) (k : Byte) (t : U32) (e : KeyEntry), PortOpen s → k.toNat < s.cfg.numKeys →
    s.ks[k.toNat]? = some e → e.st = 0 →
    exec (.ksmEnd k true t) s = .next { s with trace := s.trace ++ [.diag 0x01 k.toNat], res := .none }

/-- The other rows of R162 at an end read change nothing and emit nothing (R168, R169). -/
def Obligations.KsmEndKeepsTheRest : Prop :=
  ∀ (s : State) (k : Byte) (d : Bool) (t : U32) (e : KeyEntry), PortOpen s → k.toNat < s.cfg.numKeys →
    s.ks[k.toNat]? = some e →
    (e.st = 2 ∨ (e.st = 0 ∧ d = false) ∨ (e.st = 1 ∧ d = false)) →
    exec (.ksmEnd k d t) s = .next { s with res := .none }

/-- A key-state code of 3 sets FAULT, from the port and from the sequencer, and changes nothing else (R162, R326). -/
def Obligations.IllegalKeyCodeFaults : Prop :=
  (∀ (s : State) (k : Byte) (d : Bool) (t : U32) (e : KeyEntry), PortOpen s → k.toNat < s.cfg.numKeys →
    s.ks[k.toNat]? = some e → e.st = 3 →
    exec (.ksmStart k d t) s = .next { s with fault := true } ∧
    exec (.ksmEnd k d t) s = .next { s with fault := true }) ∧
  ∀ (s : State) (e : KeyEntry), (s.seq.phase = .startEval ∨ s.seq.phase = .endEval) → s.seq.pos < 8 →
    s.seq.bank < s.cfg.numBanks → s.ks[s.seq.bank * 8 + s.seq.pos]? = some e → e.st = 3 →
    seqStep s = .next { s with fault := true }

/-- A Hit comes only from Started at an end read and a Release only from Hit at a start read; Hit is entered only from
Started and left only for Idle, with a Release (R176). -/
def Obligations.EventsFollowTheCycle : Prop :=
  ∀ (c : Cfg) (line : Line) (e : KeyEntry) (down : Bool) (t : U32),
    (∀ e' d, transition c line e down t = .hit e' d → e.st = 1 ∧ e'.st = 2 ∧ line = .endLine) ∧
    (∀ e', transition c line e down t = .release e' → e.st = 2 ∧ e'.st = 0 ∧ line = .startLine) ∧
    ((entryAfter c line e down t).st = 2 → e.st = 2 ∨ ∃ e' d, transition c line e down t = .hit e' d) ∧
    (e.st = 2 → (entryAfter c line e down t).st ≠ 2 → ∃ e', transition c line e down t = .release e')

/-! ## Velocity mapper -/

/-- VELMAP is the integer formula of R200: the floor of `num / (2*Dt)`, clamped (R200, R204). -/
def Obligations.VelmapIsTheIntegerFormula : Prop :=
  (∀ p : Ports, p.opsel = 0x20 → decode (.op8 p) = .ok (.velmap p.t0)) ∧
  ∀ (s : State) (d : U32), PortOpen s → ConfigOk s.cfg →
    ∃ v : Byte, exec (.velmap d) s = .next { s with res := .u8 v } ∧
      ∃ dt rv num : Int,
        dt = (s.cfg.maxKeyTimeUs.toNat : Int) - (s.cfg.minKeyTimeUs.toNat : Int) ∧
        rv = s.cfg.maxVelocity - s.cfg.minVelocity ∧
        num = 2 * s.cfg.maxVelocity * dt - 2 * ((d.toNat : Int) - (s.cfg.minKeyTimeUs.toNat : Int)) * rv + dt ∧
        (v.toNat : Int) = min (max (num.fdiv (2 * dt)) s.cfg.minVelocity) s.cfg.maxVelocity ∧
        1 ≤ v.toNat ∧ v.toNat ≤ 127

/-- Rounding is half up and comes before the clamp: VELMAP is the exact rational line x(d) of R201 as floor(x + 1/2),
clamped (R203). -/
def Obligations.VelmapRoundsHalfUp : Prop :=
  ∀ (c : Cfg) (d : U32) (v : Byte), velocityOf c d = some v →
    let x : ℚ := (c.maxVelocity : ℚ) - ((d.toNat : ℚ) - (c.minKeyTimeUs.toNat : ℚ))
        * ((c.maxVelocity : ℚ) - (c.minVelocity : ℚ)) / ((c.maxKeyTimeUs.toNat : ℚ) - (c.minKeyTimeUs.toNat : ℚ))
    (v.toNat : Int) = min (max ⌊x + 1 / 2⌋ c.minVelocity) c.maxVelocity

/-- The velocity never rises with the duration, stays in its range, and is exact at both ends (R205). -/
def Obligations.VelmapLaws : Prop :=
  ∀ c : Cfg, ConfigOk c →
    (∀ (d d' : U32) (v v' : Byte), velocityOf c d = some v → velocityOf c d' = some v' → d.toNat ≤ d'.toNat →
      v'.toNat ≤ v.toNat) ∧
    (∀ d : U32, ∃ v, velocityOf c d = some v ∧ c.minVelocity ≤ (v.toNat : Int) ∧ (v.toNat : Int) ≤ c.maxVelocity) ∧
    (∃ v, velocityOf c c.minKeyTimeUs = some v ∧ (v.toNat : Int) = c.maxVelocity) ∧
    ∃ v, velocityOf c c.maxKeyTimeUs = some v ∧ (v.toNat : Int) = c.minVelocity

/-! ## Event encoder -/

/-- NOTENUM adds NOTE_OFFSET (R220). -/
def Obligations.NotenumAddsTheOffset : Prop :=
  (∀ p : Ports, p.opsel = 0x30 → decode (.op8 p) = .ok (.notenum p.k)) ∧
  ∀ (s : State) (k : Byte), PortOpen s → ConfigOk s.cfg → k.toNat < s.cfg.numKeys →
    ∃ n : Byte, (n.toNat : Int) = (k.toNat : Int) + s.cfg.noteOffset ∧
      exec (.notenum k) s = .next { s with res := .u8 n }

/-- ENC_ON builds [0x90 | channel, note, velocity]; V = 0 is accepted and V > 127 refused (R221). -/
def Obligations.EncOnBuildsNoteOn : Prop :=
  (∀ p : Ports, p.opsel = 0x31 → decode (.op8 p) = .ok (.encOn p.k p.v)) ∧
  ∀ (s : State) (k v : Byte), PortOpen s → ConfigOk s.cfg → k.toNat < s.cfg.numKeys →
    (v.toNat ≤ 127 → ∃ n : Byte, (n.toNat : Int) = (k.toNat : Int) + s.cfg.noteOffset ∧
      exec (.encOn k v) s
        = .next { s with res := .msg { status := 0x90 ||| BitVec.ofNat 8 s.cfg.midiChannel, note := n, velocity := v } }) ∧
    (127 < v.toNat → exec (.encOn k v) s = .refused (.operandRange .v))

/-- ENC_OFF builds [0x80 | channel, note, 0] (R222). -/
def Obligations.EncOffBuildsNoteOff : Prop :=
  (∀ p : Ports, p.opsel = 0x32 → decode (.op8 p) = .ok (.encOff p.k)) ∧
  ∀ (s : State) (k : Byte), PortOpen s → ConfigOk s.cfg → k.toNat < s.cfg.numKeys →
    ∃ n : Byte, (n.toNat : Int) = (k.toNat : Int) + s.cfg.noteOffset ∧
      exec (.encOff k) s
        = .next { s with res := .msg { status := 0x80 ||| BitVec.ofNat 8 s.cfg.midiChannel, note := n, velocity := 0 } }

/-- EMIT_HIT pushes the three bytes of the Note On in order, its velocity VELMAP of the duration: with room, with no
drain attempt; in a buffer that fills midway, over the steps of its wait (R223, R225, R274). That one drain attempt ends
a step of the wait, even where it sent a byte, and the write follows in the next is the model's choice (log 10). -/
def Obligations.EmitHitPushesNoteOn : Prop :=
  (∀ p : Ports, p.opsel = 0x33 → decode (.op8 p) = .ok (.emitHit p.k p.t0)) ∧
  ∀ (s : State) (k : Byte) (d : U32), PortOpen s → Live s → k.toNat < s.cfg.numKeys →
    ∃ n v : Byte, (n.toNat : Int) = (k.toNat : Int) + s.cfg.noteOffset ∧ velocityOf s.cfg d = some v ∧
      MessagePushed (.emitHit k d) s [0x90 ||| BitVec.ofNat 8 s.cfg.midiChannel, n, v]

/-- EMIT_REL pushes the three bytes of the Note Off in the same way (R224, R225, R274). That one drain attempt ends a step
of the wait, even where it sent a byte, and the write follows in the next is the model's choice (log 10). -/
def Obligations.EmitRelPushesNoteOff : Prop :=
  (∀ p : Ports, p.opsel = 0x34 → decode (.op8 p) = .ok (.emitRel p.k)) ∧
  ∀ (s : State) (k : Byte), PortOpen s → Live s → k.toNat < s.cfg.numKeys →
    ∃ n : Byte, (n.toNat : Int) = (k.toNat : Int) + s.cfg.noteOffset ∧
      MessagePushed (.emitRel k) s [0x80 ||| BitVec.ofNat 8 s.cfg.midiChannel, n, 0]

/-! ## Ring buffer -/

/-- RB_IS_EMPTY and RB_IS_FULL report EMPTY and FULL and change nothing (R270, R271). -/
def Obligations.RbFlagsReportEmptyAndFull : Prop :=
  (∀ p : Ports, p.opsel = 0x40 → decode (.op8 p) = .ok .rbIsEmpty) ∧
  (∀ p : Ports, p.opsel = 0x41 → decode (.op8 p) = .ok .rbIsFull) ∧
  ∀ s : State, PortOpen s → s.orb.inIdx < s.cfg.rbCapacity → s.orb.outIdx < s.cfg.rbCapacity →
    exec .rbIsEmpty s = .next { s with res := .bool (decide (s.orb.inIdx = s.orb.outIdx)) } ∧
    exec .rbIsFull s
      = .next { s with res := .bool (decide ((s.orb.inIdx + 1) % s.cfg.rbCapacity = s.orb.outIdx)) }

/-- COUNT is (in - out) mod RB_CAPACITY; EMPTY is COUNT = 0, FULL is COUNT = RB_CAPACITY - 1, and COUNT never exceeds it
(R40). -/
def Obligations.CountEmptyAndFullAgree : Prop :=
  ∀ (cap : Nat) (o : Orb), 1 < cap → o.inIdx < cap → o.outIdx < cap →
    (o.count cap : Int) = ((o.inIdx : Int) - (o.outIdx : Int)) % (cap : Int) ∧ o.count cap ≤ cap - 1 ∧
    (o.isEmpty = true ↔ o.count cap = 0) ∧ (o.isFull cap = true ↔ o.count cap = cap - 1)

/-- RB_TRY_POP removes and returns the oldest byte, or returns None from an empty buffer (R272). -/
def Obligations.TryPopReturnsTheOldestByte : Prop :=
  (∀ p : Ports, p.opsel = 0x42 → decode (.op8 p) = .ok .rbTryPop) ∧
  ∀ s : State, PortOpen s → Live s →
    (s.orb.inIdx = s.orb.outIdx → exec .rbTryPop s = .next { s with res := .optU8 none }) ∧
    (s.orb.inIdx ≠ s.orb.outIdx → ∃ b o',
      exec .rbTryPop s = .next { s with orb := o', res := .optU8 (some b) } ∧
      o' = { s.orb with outIdx := (s.orb.outIdx + 1) % s.cfg.rbCapacity } ∧
      Memory.read s.orb.mem s.orb.outIdx = some b ∧
      outstanding s = b :: o'.bytes s.cfg.rbCapacity)

/-- RB_DRAIN asks the transmitter only when a byte is outstanding, and sends the oldest one only when it is ready
(R273). -/
def Obligations.DrainSendsAtMostOneByte : Prop :=
  (∀ p : Ports, p.opsel = 0x43 → decode (.op8 p) = .ok .rbDrain) ∧
  ∀ (s : State) (r : Bool) (e : Env), PortOpen s → Live s → s.env.drawReady = (r, e) →
    (s.orb.inIdx = s.orb.outIdx → exec .rbDrain s = .next { s with res := .bool false }) ∧
    (s.orb.inIdx ≠ s.orb.outIdx → r = false →
      exec .rbDrain s = .next { s with trace := s.trace ++ [.ready false], env := e, res := .bool false }) ∧
    (s.orb.inIdx ≠ s.orb.outIdx → r = true → ∃ b, Memory.read s.orb.mem s.orb.outIdx = some b ∧
      exec .rbDrain s
        = .next { s with
            orb := { s.orb with outIdx := (s.orb.outIdx + 1) % s.cfg.rbCapacity }
            trace := s.trace ++ [.ready true, .tx b]
            env := e
            res := .bool true })

/-- RB_PUSH with room writes the slot at `ORB.in` and advances it, with no drain attempt (R274). -/
def Obligations.PushWritesTheNextSlot : Prop :=
  (∀ p : Ports, p.opsel = 0x44 → decode (.op8 p) = .ok (.rbPush p.b)) ∧
  ∀ (s : State) (b : Byte), PortOpen s → Live s →
    (s.orb.inIdx + 1) % s.cfg.rbCapacity ≠ s.orb.outIdx →
    ∃ m', exec (.rbPush b) s
        = .next { s with
            orb := { s.orb with mem := m', inIdx := (s.orb.inIdx + 1) % s.cfg.rbCapacity }, res := .none } ∧
      Memory.read m' s.orb.inIdx = some b ∧
      (∀ i, i ≠ s.orb.inIdx → Memory.read m' i = Memory.read s.orb.mem i) ∧
      Orb.bytes s.cfg.rbCapacity { s.orb with mem := m', inIdx := (s.orb.inIdx + 1) % s.cfg.rbCapacity }
        = outstanding s ++ [b]

/-- RB_PUSH on a full buffer with the transmitter ready at the first attempt: one drain, then the write; no byte is
dropped (R263, R274). The drain is the command's own step, the write the next one (log 10). -/
def Obligations.PushOnFullDrainsOneByteFirst : Prop :=
  ∀ (s : State) (b : Byte) (e : Env), PortOpen s → Live s →
    (s.orb.inIdx + 1) % s.cfg.rbCapacity = s.orb.outIdx → s.env.drawReady = (true, e) →
    ∃ t u old rest, outstanding s = old :: rest ∧ exec (.rbPush b) s = .next t ∧ step t = .next u ∧
      u = { s with orb := u.orb, trace := s.trace ++ [.ready true, .tx old], env := e, res := .none } ∧
      u.orb.outIdx = (s.orb.outIdx + 1) % s.cfg.rbCapacity ∧ u.orb.inIdx = (s.orb.inIdx + 1) % s.cfg.rbCapacity ∧
      Memory.read u.orb.mem s.orb.inIdx = some b ∧
      (∀ i, i ≠ s.orb.inIdx → Memory.read u.orb.mem i = Memory.read s.orb.mem i) ∧
      outstanding u = rest ++ [b]

/-- RB_PUSH on a full buffer while the transmitter is not ready: each step makes one attempt, recorded as Ready(false),
and nothing else changes, however long it lasts (R274, R275). That the command's own step is the first attempt is the
model's choice (log 10). -/
def Obligations.PushWaitsWithoutEnd : Prop :=
  ∀ (n : Nat) (s : State) (b : Byte) (rs : List Bool), PortOpen s → Live s →
    (s.orb.inIdx + 1) % s.cfg.rbCapacity = s.orb.outIdx →
    s.env.readies = List.replicate (n + 1) false ++ rs →
    ∃ t, exec (.rbPush b) s = .next t ∧
      runSteps n t = .next { s with
        busy := [.push [b]]
        trace := s.trace ++ List.replicate (n + 1) (.ready false)
        env := { s.env with readies := rs, draws := s.env.draws + (n + 1) } }

/-! ## Scan loop, RUN and INIT -/

/-- SCAN_PASS is SCAN_BANK of every bank in order (R290): at once, with room for every event it could emit; and in a
buffer that fills midway (R374), it finishes in a state exactly when the SCAN_BANKs, each run to the end of its waits,
lead there. -/
def Obligations.ScanPassScansEveryBank : Prop :=
  (∀ p : Ports, p.opsel = 0x50 → decode (.op8 p) = .ok .scanPass) ∧
  (∀ s : State, PortOpen s → Live s →
    s.orb.count s.cfg.rbCapacity + 48 * s.cfg.numBanks < s.cfg.rbCapacity →
    ∃ f : Nat → State, f 0 = s ∧
      (∀ b < s.cfg.numBanks, exec (.scanBank (BitVec.ofNat 8 b)) (f b) = .next (f (b + 1)) ∧ (f (b + 1)).busy = []) ∧
      exec .scanPass s = .next (f s.cfg.numBanks) ∧
      (f s.cfg.numBanks).seq.bank = s.cfg.numBanks - 1 ∧
      (f s.cfg.numBanks).chain = some (2 * s.cfg.numBanks)) ∧
  ∀ s : State, PortOpen s → Live s → s.port = [] →
    ∃ u, exec .scanPass s = .next u ∧
      ∀ t, Finishes u t ↔ ∃ f : Nat → State, f 0 = s ∧ f s.cfg.numBanks = t ∧
        ∀ b < s.cfg.numBanks, ∃ v, exec (.scanBank (BitVec.ofNat 8 b)) (f b) = .next v ∧ Finishes v (f (b + 1))

/-- A pass in which every mask reads 0x00 changes no key in Idle and pushes nothing, at any capacity (R290). -/
def Obligations.QuietScanPassChangesNoKey : Prop :=
  ∀ (s : State) (ms : List Byte), PortOpen s → Live s → (∀ e ∈ s.ks, e.st = 0) →
    s.env.masks = List.replicate (2 * s.cfg.numBanks) 0 ++ ms →
    ∃ t, exec .scanPass s = .next t ∧ t.ks = s.ks ∧ t.orb = s.orb ∧ t.busy = [] ∧ t.fault = false ∧
      t.res = .none ∧ t.seq.phase = s.seq.phase ∧ t.seq.bank = s.cfg.numBanks - 1 ∧ t.seq.sb = 0 ∧ t.seq.eb = 0 ∧
      t.chain = some (2 * s.cfg.numBanks) ∧ t.env.masks = ms

/-- LOOP_ITER is RB_DRAIN and then SCAN_PASS (R291); here with room for every event the pass could emit. -/
def Obligations.LoopIterDrainsThenScans : Prop :=
  (∀ p : Ports, p.opsel = 0x51 → decode (.op8 p) = .ok .loopIter) ∧
  ∀ s : State, PortOpen s → Live s →
    s.orb.count s.cfg.rbCapacity + 48 * s.cfg.numBanks < s.cfg.rbCapacity →
    ∃ s1 t, exec .rbDrain s = .next s1 ∧ exec .scanPass s1 = .next t ∧ exec .loopIter s = .next t ∧ t.busy = []

/-- RUN starts the sequencer from P_ITER_DRAIN; from then on every step is a sequencer step (R296, R299), whatever
command is offered (R320). The running bit, and that the port is then not read, are the model's (logs 8, 19). -/
def Obligations.RunStartsTheSequencer : Prop :=
  (∀ p : Ports, p.opsel = 0x52 → decode (.op8 p) = .ok .run) ∧
  (∀ s : State, PortOpen s → exec .run s = .next { s with running := true }) ∧
  ∀ s : State, s.fault = false → s.busy = [] → s.running = true → step s = seqStep s

/-- INIT with a legal configuration makes the 16 GPIO calls and writes the initial state (R361); the same is the
sequencer's first step after reset, which goes on by itself (R360, log 8). -/
def Obligations.InitWritesTheInitialState : Prop :=
  (∀ p : Ports, p.opsel = 0xF0 → decode (.op8 p) = .ok .init) ∧
  ∀ s : State, BeforeInit s → ConfigOk s.cfg →
    ∃ t, t = { s with
        ks := List.replicate (s.cfg.numBanks * 8) { st := 0, pt := 0 }
        orb := { s.orb with inIdx := 0, outIdx := 0 }
        seq :=
          { sb := 0, st := 0, eb := 0, et := 0, bank := 0, pos := 0
            msg := { status := 0, note := 0, velocity := 0 }
            msgN := 0, ret := .startEval, phase := .iterDrain }
        trace := s.trace ++ initTrace s.cfg } ∧
      exec .init s = .next { t with res := .none } ∧
      (s.port = [] → step s = .next { t with running := true })

/-- INIT refuses an illegal configuration with the code of the first failing check of R325: the TRACE entry, REFUSED and
P_REFUSED, no GPIO call and no other change; a configuration none of the checks fails is not refused. The sequencer's
own first step, from P_INIT to P_REFUSED, does the same and leaves RES (R292, R360); that the machine takes it when no
command is offered is the model's choice (log 8). -/
def Obligations.InitRefusesTheFirstFailingCheck : Prop :=
  (∀ c : Cfg, ConfigOk c ↔ refusalCode c = none) ∧
  ∀ (s : State) (code : Byte), BeforeInit s → refusalCode s.cfg = some code →
    exec .init s
      = .next { s with
          trace := s.trace ++ [.refused code], refused := true, seq := { s.seq with phase := .refused }, res := .none } ∧
    seqStep s
      = .next { s with trace := s.trace ++ [.refused code], refused := true, seq := { s.seq with phase := .refused } } ∧
    (s.port = [] → step s
      = .next { s with trace := s.trace ++ [.refused code], refused := true, seq := { s.seq with phase := .refused } })

/-! ## Refusals at the command port -/

/-- Before INIT every command but INIT is refused; while REFUSED = 1 and after RUN every command is; INIT after a
successful INIT is (R120). The names of the refusals are the model's (log 7). -/
def Obligations.LifecycleRefusesCommands : Prop :=
  ∀ (s : State) (i : Instr), s.fault = false → s.busy = [] →
    (∀ c n v, i ≠ .midiNoteOn c n v) → (∀ c n, i ≠ .midiNoteOff c n) →
    (i ≠ .init → s.seq.phase = .init → exec i s = .refused .beforeInit) ∧
    (s.seq.phase ≠ .init → s.refused = true → exec i s = .refused .configRefused) ∧
    (s.seq.phase ≠ .init → s.refused = false → s.running = true → exec i s = .refused .afterRun) ∧
    (PortOpen s → i = .init → exec i s = .refused .afterInit)

/-- A key id, bank index or velocity outside its range is refused, never wrapped (R116, R120). The names of the refusals
are the model's (log 7). -/
def Obligations.OutOfRangeOperandsAreRefused : Prop :=
  ∀ s : State, PortOpen s →
    (∀ (k v : Byte) (d : Bool) (t : U32), s.cfg.numKeys ≤ k.toNat →
      exec (.ksmStart k d t) s = .refused (.operandRange .k) ∧ exec (.ksmEnd k d t) s = .refused (.operandRange .k) ∧
      exec (.notenum k) s = .refused (.operandRange .k) ∧ exec (.encOn k v) s = .refused (.operandRange .k) ∧
      exec (.encOff k) s = .refused (.operandRange .k) ∧ exec (.emitHit k t) s = .refused (.operandRange .k) ∧
      exec (.emitRel k) s = .refused (.operandRange .k)) ∧
    (∀ bk : Byte, s.cfg.numBanks ≤ bk.toNat → exec (.scanBank bk) s = .refused (.operandRange .bk)) ∧
    ∀ k v : Byte, k.toNat < s.cfg.numKeys → 127 < v.toNat → exec (.encOn k v) s = .refused (.operandRange .v)

/-! ## The sequencer -/

/-- The rows of R292 that evaluate no key and push no byte. -/
def Obligations.SequencerReadsAndSteps : Prop :=
  ∀ (s : State) (m : Byte) (e1 : Env) (t : U32) (e2 : Env), Live s →
    s.env.drawMask = (m, e1) → e1.drawTime = (t, e2) →
    (s.seq.phase = .iterDrain →
      seqStep s = .next { (drain s).2 with seq := { s.seq with phase := .passBegin } }) ∧
    (s.seq.phase = .passBegin →
      seqStep s = .next { s with
        seq := { s.seq with bank := 0, phase := .startRead }
        trace := s.trace ++ beginPassTrace s.cfg, chain := some 0 }) ∧
    (s.seq.phase = .startRead →
      seqStep s = .next { s with
        seq := { s.seq with sb := m, st := t, pos := 0, phase := .startEval }
        trace := s.trace ++ [.mask m, .time t], env := e2 }) ∧
    (s.seq.phase = .startEval → s.seq.pos = 8 →
      seqStep s = .next { s with seq := { s.seq with phase := .stepToEnd } }) ∧
    (s.seq.phase = .stepToEnd →
      seqStep s = .next { s with
        seq := { s.seq with phase := .endRead }
        trace := s.trace ++ stepTrace s.cfg, chain := s.chain.map (· + 1) }) ∧
    (s.seq.phase = .endRead →
      seqStep s = .next { s with
        seq := { s.seq with eb := m, et := t, pos := if m = 0 then 8 else 0, phase := .endEval }
        trace := s.trace ++ [.mask m, .time t], env := e2 }) ∧
    (s.seq.phase = .endEval → s.seq.pos = 8 →
      seqStep s = .next { s with seq := { s.seq with phase := .stepToNext } }) ∧
    (s.seq.phase = .stepToNext → s.seq.bank + 1 < s.cfg.numBanks →
      seqStep s = .next { s with
        seq := { s.seq with bank := s.seq.bank + 1, phase := .startRead }
        trace := s.trace ++ stepTrace s.cfg, chain := s.chain.map (· + 1) }) ∧
    (s.seq.phase = .stepToNext → s.seq.bank + 1 = s.cfg.numBanks →
      seqStep s = .next { s with
        seq := { s.seq with phase := .iterDrain }
        trace := s.trace ++ stepTrace s.cfg, chain := s.chain.map (· + 1) })

/-- P_START_EVAL and P_END_EVAL below position 8 (R292): the key BANK*8 + POS takes its next state, a diagnostic is
recorded, POS advances, and an event's message is loaded to be pushed before the next evaluation. -/
def Obligations.SequencerEvaluatesOneKey : Prop :=
  ∀ (s : State) (line : Line), Live s → s.seq.pos < 8 →
    s.seq.phase = (match line with | .startLine => .startEval | .endLine => .endEval) →
    let k := s.seq.bank * 8 + s.seq.pos
    let e := s.ks.getD k KeyEntry.initial
    let down := buttonDown (match line with | .startLine => s.seq.sb | .endLine => s.seq.eb) s.seq.pos
    let t := match line with | .startLine => s.seq.st | .endLine => s.seq.et
    ∃ q, seqStep s = .next { s with
        ks := s.ks.set k (entryAfter s.cfg line e down t)
        trace := s.trace ++ diagEvents s.cfg line k e down t
        seq := q } ∧
      (eventBytes s.cfg line k e down t = [] → q = { s.seq with pos := s.seq.pos + 1 }) ∧
      (eventBytes s.cfg line k e down t ≠ [] → ∃ m : Message,
        eventBytes s.cfg line k e down t = [m.status, m.note, m.velocity] ∧
        q = { s.seq with
          pos := s.seq.pos + 1, msg := m, msgN := 3
          ret := (match line with | .startLine => .startEval | .endLine => .endEval), phase := .push })

/-- P_PUSH (R292, R294): while FULL holds one drain attempt a step; else the next byte of SEQ.MSG is written, and the
evaluation is resumed after the third. -/
def Obligations.SequencerPushesTheMessage : Prop :=
  ∀ s : State, Live s → s.seq.phase = .push →
    (s.orb.isFull s.cfg.rbCapacity = true → seqStep s = .next (drain s).2) ∧
    (s.orb.isFull s.cfg.rbCapacity = false → ∃ b o',
      [s.seq.msg.status, s.seq.msg.note, s.seq.msg.velocity][3 - s.seq.msgN]? = some b ∧
      Stored s.cfg.rbCapacity s.orb o' [b] ∧
      seqStep s = .next { s with
        orb := o'
        seq := { s.seq with
          msgN := s.seq.msgN - 1
          phase := if s.seq.msgN = 1 then
              (match s.seq.ret with | .startEval => .startEval | .endEval => .endEval)
            else .push } })

/-- No step exists after a model fault (R293) or, with no command offered, after a refused INIT (R50); and no command
runs after a model fault. The names of the outcomes are the model's (log 9). -/
def Obligations.NoStepAfterFaultOrRefusal : Prop :=
  (∀ s : State, s.fault = true → step s = .fault .modelFault) ∧
  (∀ (s : State) (i : Instr), s.fault = true → (∀ c n v, i ≠ .midiNoteOn c n v) → (∀ c n, i ≠ .midiNoteOff c n) →
    exec i s = .fault .modelFault) ∧
  ∀ s : State, ConfigRefused s → s.port = [] → step s = .fault .stuck

/-- Between commands the sequencer takes no step of its own (R299); the name of the outcome is the model's choice
(log 9). -/
def Obligations.NoStepBetweenCommands : Prop :=
  ∀ s : State, PortOpen s → s.port = [] → step s = .refused .noCommand

/-! ## What no step breaks -/

/-- A command other than INIT and RUN leaves SEQ.phase unchanged (R299). -/
def Obligations.CommandsLeaveThePhase : Prop :=
  ∀ (i : Instr) (s t : State), exec i s = .next t → i ≠ .init → i ≠ .run → t.seq.phase = s.seq.phase

/-- RB_IS_EMPTY, RB_IS_FULL, ELAPSED, VELMAP, NOTENUM, ENC_ON and ENC_OFF write nothing but RES (R80); only where the
configuration is illegal or an index is out of range can one of them set FAULT instead, and then nothing else. -/
def Obligations.QueriesWriteOnlyTheResult : Prop :=
  ∀ (s t : State) (k v : Byte) (t0 t1 : U32),
    ∀ i ∈ [Instr.rbIsEmpty, .rbIsFull, .elapsed t0 t1, .velmap t0, .notenum k, .encOn k v, .encOff k],
      exec i s = .next t →
        t = { s with res := t.res } ∨
          (¬(ConfigOk s.cfg ∧ s.orb.inIdx < s.cfg.rbCapacity ∧ s.orb.outIdx < s.cfg.rbCapacity) ∧
            t = { s with fault := true })

/-- A reset leaves P_INIT, REFUSED = 0, FAULT = 0 and TRACE empty, and no slot of ORB.mem with a value (R55, R360), with
every configuration; so it satisfies the invariant. State.reset has the model's configuration (log 2). -/
def Obligations.ResetIsReachable : Prop :=
  State.reset = State.powerOn Cfg.atReset ∧
  ∀ c : Cfg, Reachable (State.powerOn c) ∧ (State.powerOn c).cfg = c ∧ (State.powerOn c).seq.phase = .init ∧
    (State.powerOn c).refused = false ∧ (State.powerOn c).fault = false ∧ (State.powerOn c).trace = [] ∧
    ∀ i, Memory.read (State.powerOn c).orb.mem i = none

/-- Every step keeps the invariant: before INIT, refused, or live with every index in range, every key code legal, every
outstanding slot written and FAULT = 0 (R56, R57). So no run from reset sets FAULT (R51). -/
def Obligations.StepKeepsReachable : Prop :=
  ∀ s t : State, Reachable s → step s = .next t → Reachable t

/-- Every step keeps the ring buffer's storage in canonical form, from every state. -/
def Obligations.StepKeepsMemoryCanonical : Prop :=
  ∀ s t : State, Memory.wf s.orb.mem = true → step s = .next t → Memory.wf t.orb.mem = true

/-- No step writes CFG (R7, R48), and TRACE only grows (R52). -/
def Obligations.StepKeepsCfgAndExtendsTrace : Prop :=
  ∀ s t : State, step s = .next t → t.cfg = s.cfg ∧ ∃ es, t.trace = s.trace ++ es

/-- No byte is lost, duplicated or reordered (R94, R262, R263): over every step but one that takes RB_TRY_POP from the
port, the bytes sent followed by the bytes outstanding grow by exactly the bytes the step pushes, none where it pushes
none. How much of a waiting operation one step runs is the model's choice (log 10). -/
def Obligations.BytesAreSentInPushOrder : Prop :=
  ∀ s t : State, Live s → step s = .next t →
    (∀ w rest, s.busy = [] → s.running = false → s.port = w :: rest → decode w ≠ .ok .rbTryPop) →
    txBytes t.trace ++ outstanding t = txBytes s.trace ++ outstanding s ++ stepPushes s

/-- The running block sends whole messages only (R124, R225, R227): the bytes sent, those outstanding and those of
SEQ.MSG still to push form a sequence of whole MIDI messages, and every sequencer step keeps that, with the rest of the
invariant it needs; it holds after the sequencer's own INIT. That the sequencer then goes on by itself, with the running
bit set, is the model's choice (log 8). -/
def Obligations.TheStreamIsWholeMessages : Prop :=
  (∀ s t : State, BeforeInit s → ConfigOk s.cfg → s.trace = [] → s.port = [] → step s = .next t →
    Live t ∧ t.running = true ∧ t.busy = [] ∧ t.seq.msgN = 0 ∧
      readStream (txBytes t.trace ++ outstanding t ++ unpushed t.seq) = some []) ∧
  ∀ (s t : State) (is : List Instr), Live s → s.running = true → s.busy = [] →
    (s.seq.phase ≠ .push → s.seq.msgN = 0) →
    readStream (txBytes s.trace ++ outstanding s ++ unpushed s.seq) = some is → step s = .next t →
    Live t ∧ t.running = true ∧ t.busy = [] ∧ (t.seq.phase ≠ .push → t.seq.msgN = 0) ∧
      ∃ js, readStream (txBytes t.trace ++ outstanding t ++ unpushed t.seq) = some (is ++ js)

/-- One LOOP_ITER, waits included, and the sequencer run from P_ITER_DRAIN until it first returns there give the same
KS, ORB, TRACE, SB, ST, EB, ET and BANK, from the same state with the same draws (R295): each of the two ends exactly
when the other does. -/
def Obligations.LoopIterMatchesTheSequencer : Prop :=
  ∀ s : State, PortOpen s → Live s → s.port = [] →
    ∃ s1, exec .loopIter s = .next s1 ∧
      (∀ t, Finishes s1 t → ∃ u, FirstReturn s u ∧ SameIteration t u) ∧
      ∀ u, FirstReturn s u → ∃ t, Finishes s1 t ∧ SameIteration t u

/-- A step that faults sets FAULT and makes no other change (R326), whatever the command had done before it met the
broken invariant; the command itself is off the port. That a wait's earlier steps stand is the model's choice
(log 11). -/
def Obligations.AFaultMakesNoOtherChange : Prop :=
  ∀ s t : State, step s = .next t → t.fault = true → t = { s with fault := true, port := t.port }
end

