-- ==== Sys2Proof/Laws/State.lean ====
section
/-! SUPPORT. What each one-field update of State does to each field, true by definition. -/

namespace Sys2Proof.Machine

@[simp] theorem emit_cfg (e : Event) (s : State) : (State.emit e s).cfg = s.cfg := rfl
@[simp] theorem emit_ks (e : Event) (s : State) : (State.emit e s).ks = s.ks := rfl
@[simp] theorem emit_orb (e : Event) (s : State) : (State.emit e s).orb = s.orb := rfl
@[simp] theorem emit_seq (e : Event) (s : State) : (State.emit e s).seq = s.seq := rfl
@[simp] theorem emit_res (e : Event) (s : State) : (State.emit e s).res = s.res := rfl
@[simp] theorem emit_refused (e : Event) (s : State) : (State.emit e s).refused = s.refused := rfl
@[simp] theorem emit_fault (e : Event) (s : State) : (State.emit e s).fault = s.fault := rfl
@[simp] theorem emit_trace (e : Event) (s : State) : (State.emit e s).trace = s.trace ++ [e] := rfl
@[simp] theorem emit_chain (e : Event) (s : State) : (State.emit e s).chain = s.chain := rfl
@[simp] theorem emit_running (e : Event) (s : State) : (State.emit e s).running = s.running := rfl
@[simp] theorem emit_busy (e : Event) (s : State) : (State.emit e s).busy = s.busy := rfl
@[simp] theorem emit_port (e : Event) (s : State) : (State.emit e s).port = s.port := rfl
@[simp] theorem emit_env (e : Event) (s : State) : (State.emit e s).env = s.env := rfl

@[simp] theorem raiseFault_cfg (s : State) : (State.raiseFault s).cfg = s.cfg := rfl
@[simp] theorem raiseFault_ks (s : State) : (State.raiseFault s).ks = s.ks := rfl
@[simp] theorem raiseFault_orb (s : State) : (State.raiseFault s).orb = s.orb := rfl
@[simp] theorem raiseFault_seq (s : State) : (State.raiseFault s).seq = s.seq := rfl
@[simp] theorem raiseFault_res (s : State) : (State.raiseFault s).res = s.res := rfl
@[simp] theorem raiseFault_refused (s : State) : (State.raiseFault s).refused = s.refused := rfl
@[simp] theorem raiseFault_fault (s : State) : (State.raiseFault s).fault = true := rfl
@[simp] theorem raiseFault_trace (s : State) : (State.raiseFault s).trace = s.trace := rfl
@[simp] theorem raiseFault_chain (s : State) : (State.raiseFault s).chain = s.chain := rfl
@[simp] theorem raiseFault_running (s : State) : (State.raiseFault s).running = s.running := rfl
@[simp] theorem raiseFault_busy (s : State) : (State.raiseFault s).busy = s.busy := rfl
@[simp] theorem raiseFault_port (s : State) : (State.raiseFault s).port = s.port := rfl
@[simp] theorem raiseFault_env (s : State) : (State.raiseFault s).env = s.env := rfl

@[simp] theorem setRes_cfg (r : Result) (s : State) : (State.setRes r s).cfg = s.cfg := rfl
@[simp] theorem setRes_ks (r : Result) (s : State) : (State.setRes r s).ks = s.ks := rfl
@[simp] theorem setRes_orb (r : Result) (s : State) : (State.setRes r s).orb = s.orb := rfl
@[simp] theorem setRes_seq (r : Result) (s : State) : (State.setRes r s).seq = s.seq := rfl
@[simp] theorem setRes_res (r : Result) (s : State) : (State.setRes r s).res = r := rfl
@[simp] theorem setRes_refused (r : Result) (s : State) : (State.setRes r s).refused = s.refused := rfl
@[simp] theorem setRes_fault (r : Result) (s : State) : (State.setRes r s).fault = s.fault := rfl
@[simp] theorem setRes_trace (r : Result) (s : State) : (State.setRes r s).trace = s.trace := rfl
@[simp] theorem setRes_chain (r : Result) (s : State) : (State.setRes r s).chain = s.chain := rfl
@[simp] theorem setRes_running (r : Result) (s : State) : (State.setRes r s).running = s.running := rfl
@[simp] theorem setRes_busy (r : Result) (s : State) : (State.setRes r s).busy = s.busy := rfl
@[simp] theorem setRes_port (r : Result) (s : State) : (State.setRes r s).port = s.port := rfl
@[simp] theorem setRes_env (r : Result) (s : State) : (State.setRes r s).env = s.env := rfl

@[simp] theorem setKs_cfg (ks : List KeyEntry) (s : State) : (State.setKs ks s).cfg = s.cfg := rfl
@[simp] theorem setKs_ks (ks : List KeyEntry) (s : State) : (State.setKs ks s).ks = ks := rfl
@[simp] theorem setKs_orb (ks : List KeyEntry) (s : State) : (State.setKs ks s).orb = s.orb := rfl
@[simp] theorem setKs_seq (ks : List KeyEntry) (s : State) : (State.setKs ks s).seq = s.seq := rfl
@[simp] theorem setKs_res (ks : List KeyEntry) (s : State) : (State.setKs ks s).res = s.res := rfl
@[simp] theorem setKs_refused (ks : List KeyEntry) (s : State) : (State.setKs ks s).refused = s.refused := rfl
@[simp] theorem setKs_fault (ks : List KeyEntry) (s : State) : (State.setKs ks s).fault = s.fault := rfl
@[simp] theorem setKs_trace (ks : List KeyEntry) (s : State) : (State.setKs ks s).trace = s.trace := rfl
@[simp] theorem setKs_chain (ks : List KeyEntry) (s : State) : (State.setKs ks s).chain = s.chain := rfl
@[simp] theorem setKs_running (ks : List KeyEntry) (s : State) : (State.setKs ks s).running = s.running := rfl
@[simp] theorem setKs_busy (ks : List KeyEntry) (s : State) : (State.setKs ks s).busy = s.busy := rfl
@[simp] theorem setKs_port (ks : List KeyEntry) (s : State) : (State.setKs ks s).port = s.port := rfl
@[simp] theorem setKs_env (ks : List KeyEntry) (s : State) : (State.setKs ks s).env = s.env := rfl

@[simp] theorem setOrb_cfg (o : Orb) (s : State) : (State.setOrb o s).cfg = s.cfg := rfl
@[simp] theorem setOrb_ks (o : Orb) (s : State) : (State.setOrb o s).ks = s.ks := rfl
@[simp] theorem setOrb_orb (o : Orb) (s : State) : (State.setOrb o s).orb = o := rfl
@[simp] theorem setOrb_seq (o : Orb) (s : State) : (State.setOrb o s).seq = s.seq := rfl
@[simp] theorem setOrb_res (o : Orb) (s : State) : (State.setOrb o s).res = s.res := rfl
@[simp] theorem setOrb_refused (o : Orb) (s : State) : (State.setOrb o s).refused = s.refused := rfl
@[simp] theorem setOrb_fault (o : Orb) (s : State) : (State.setOrb o s).fault = s.fault := rfl
@[simp] theorem setOrb_trace (o : Orb) (s : State) : (State.setOrb o s).trace = s.trace := rfl
@[simp] theorem setOrb_chain (o : Orb) (s : State) : (State.setOrb o s).chain = s.chain := rfl
@[simp] theorem setOrb_running (o : Orb) (s : State) : (State.setOrb o s).running = s.running := rfl
@[simp] theorem setOrb_busy (o : Orb) (s : State) : (State.setOrb o s).busy = s.busy := rfl
@[simp] theorem setOrb_port (o : Orb) (s : State) : (State.setOrb o s).port = s.port := rfl
@[simp] theorem setOrb_env (o : Orb) (s : State) : (State.setOrb o s).env = s.env := rfl

@[simp] theorem setSeq_cfg (q : Seq) (s : State) : (State.setSeq q s).cfg = s.cfg := rfl
@[simp] theorem setSeq_ks (q : Seq) (s : State) : (State.setSeq q s).ks = s.ks := rfl
@[simp] theorem setSeq_orb (q : Seq) (s : State) : (State.setSeq q s).orb = s.orb := rfl
@[simp] theorem setSeq_seq (q : Seq) (s : State) : (State.setSeq q s).seq = q := rfl
@[simp] theorem setSeq_res (q : Seq) (s : State) : (State.setSeq q s).res = s.res := rfl
@[simp] theorem setSeq_refused (q : Seq) (s : State) : (State.setSeq q s).refused = s.refused := rfl
@[simp] theorem setSeq_fault (q : Seq) (s : State) : (State.setSeq q s).fault = s.fault := rfl
@[simp] theorem setSeq_trace (q : Seq) (s : State) : (State.setSeq q s).trace = s.trace := rfl
@[simp] theorem setSeq_chain (q : Seq) (s : State) : (State.setSeq q s).chain = s.chain := rfl
@[simp] theorem setSeq_running (q : Seq) (s : State) : (State.setSeq q s).running = s.running := rfl
@[simp] theorem setSeq_busy (q : Seq) (s : State) : (State.setSeq q s).busy = s.busy := rfl
@[simp] theorem setSeq_port (q : Seq) (s : State) : (State.setSeq q s).port = s.port := rfl
@[simp] theorem setSeq_env (q : Seq) (s : State) : (State.setSeq q s).env = s.env := rfl

@[simp] theorem setChain_cfg (p : Option Nat) (s : State) : (State.setChain p s).cfg = s.cfg := rfl
@[simp] theorem setChain_ks (p : Option Nat) (s : State) : (State.setChain p s).ks = s.ks := rfl
@[simp] theorem setChain_orb (p : Option Nat) (s : State) : (State.setChain p s).orb = s.orb := rfl
@[simp] theorem setChain_seq (p : Option Nat) (s : State) : (State.setChain p s).seq = s.seq := rfl
@[simp] theorem setChain_res (p : Option Nat) (s : State) : (State.setChain p s).res = s.res := rfl
@[simp] theorem setChain_refused (p : Option Nat) (s : State) : (State.setChain p s).refused = s.refused := rfl
@[simp] theorem setChain_fault (p : Option Nat) (s : State) : (State.setChain p s).fault = s.fault := rfl
@[simp] theorem setChain_trace (p : Option Nat) (s : State) : (State.setChain p s).trace = s.trace := rfl
@[simp] theorem setChain_chain (p : Option Nat) (s : State) : (State.setChain p s).chain = p := rfl
@[simp] theorem setChain_running (p : Option Nat) (s : State) : (State.setChain p s).running = s.running := rfl
@[simp] theorem setChain_busy (p : Option Nat) (s : State) : (State.setChain p s).busy = s.busy := rfl
@[simp] theorem setChain_port (p : Option Nat) (s : State) : (State.setChain p s).port = s.port := rfl
@[simp] theorem setChain_env (p : Option Nat) (s : State) : (State.setChain p s).env = s.env := rfl

@[simp] theorem setEnv_cfg (e : Env) (s : State) : (State.setEnv e s).cfg = s.cfg := rfl
@[simp] theorem setEnv_ks (e : Env) (s : State) : (State.setEnv e s).ks = s.ks := rfl
@[simp] theorem setEnv_orb (e : Env) (s : State) : (State.setEnv e s).orb = s.orb := rfl
@[simp] theorem setEnv_seq (e : Env) (s : State) : (State.setEnv e s).seq = s.seq := rfl
@[simp] theorem setEnv_res (e : Env) (s : State) : (State.setEnv e s).res = s.res := rfl
@[simp] theorem setEnv_refused (e : Env) (s : State) : (State.setEnv e s).refused = s.refused := rfl
@[simp] theorem setEnv_fault (e : Env) (s : State) : (State.setEnv e s).fault = s.fault := rfl
@[simp] theorem setEnv_trace (e : Env) (s : State) : (State.setEnv e s).trace = s.trace := rfl
@[simp] theorem setEnv_chain (e : Env) (s : State) : (State.setEnv e s).chain = s.chain := rfl
@[simp] theorem setEnv_running (e : Env) (s : State) : (State.setEnv e s).running = s.running := rfl
@[simp] theorem setEnv_busy (e : Env) (s : State) : (State.setEnv e s).busy = s.busy := rfl
@[simp] theorem setEnv_port (e : Env) (s : State) : (State.setEnv e s).port = s.port := rfl
@[simp] theorem setEnv_env (e : Env) (s : State) : (State.setEnv e s).env = e := rfl

@[simp] theorem setBusy_cfg (ms : List Micro) (s : State) : (State.setBusy ms s).cfg = s.cfg := rfl
@[simp] theorem setBusy_ks (ms : List Micro) (s : State) : (State.setBusy ms s).ks = s.ks := rfl
@[simp] theorem setBusy_orb (ms : List Micro) (s : State) : (State.setBusy ms s).orb = s.orb := rfl
@[simp] theorem setBusy_seq (ms : List Micro) (s : State) : (State.setBusy ms s).seq = s.seq := rfl
@[simp] theorem setBusy_res (ms : List Micro) (s : State) : (State.setBusy ms s).res = s.res := rfl
@[simp] theorem setBusy_refused (ms : List Micro) (s : State) : (State.setBusy ms s).refused = s.refused := rfl
@[simp] theorem setBusy_fault (ms : List Micro) (s : State) : (State.setBusy ms s).fault = s.fault := rfl
@[simp] theorem setBusy_trace (ms : List Micro) (s : State) : (State.setBusy ms s).trace = s.trace := rfl
@[simp] theorem setBusy_chain (ms : List Micro) (s : State) : (State.setBusy ms s).chain = s.chain := rfl
@[simp] theorem setBusy_running (ms : List Micro) (s : State) : (State.setBusy ms s).running = s.running := rfl
@[simp] theorem setBusy_busy (ms : List Micro) (s : State) : (State.setBusy ms s).busy = ms := rfl
@[simp] theorem setBusy_port (ms : List Micro) (s : State) : (State.setBusy ms s).port = s.port := rfl
@[simp] theorem setBusy_env (ms : List Micro) (s : State) : (State.setBusy ms s).env = s.env := rfl

@[simp] theorem setPhase_cfg (p : Phase) (s : State) : (State.setPhase p s).cfg = s.cfg := rfl
@[simp] theorem setPhase_ks (p : Phase) (s : State) : (State.setPhase p s).ks = s.ks := rfl
@[simp] theorem setPhase_orb (p : Phase) (s : State) : (State.setPhase p s).orb = s.orb := rfl
@[simp] theorem setPhase_seq (p : Phase) (s : State) : (State.setPhase p s).seq = { s.seq with phase := p } := rfl
@[simp] theorem setPhase_res (p : Phase) (s : State) : (State.setPhase p s).res = s.res := rfl
@[simp] theorem setPhase_refused (p : Phase) (s : State) : (State.setPhase p s).refused = s.refused := rfl
@[simp] theorem setPhase_fault (p : Phase) (s : State) : (State.setPhase p s).fault = s.fault := rfl
@[simp] theorem setPhase_trace (p : Phase) (s : State) : (State.setPhase p s).trace = s.trace := rfl
@[simp] theorem setPhase_chain (p : Phase) (s : State) : (State.setPhase p s).chain = s.chain := rfl
@[simp] theorem setPhase_running (p : Phase) (s : State) : (State.setPhase p s).running = s.running := rfl
@[simp] theorem setPhase_busy (p : Phase) (s : State) : (State.setPhase p s).busy = s.busy := rfl
@[simp] theorem setPhase_port (p : Phase) (s : State) : (State.setPhase p s).port = s.port := rfl
@[simp] theorem setPhase_env (p : Phase) (s : State) : (State.setPhase p s).env = s.env := rfl

@[simp] theorem setBank_cfg (b : Nat) (s : State) : (State.setBank b s).cfg = s.cfg := rfl
@[simp] theorem setBank_ks (b : Nat) (s : State) : (State.setBank b s).ks = s.ks := rfl
@[simp] theorem setBank_orb (b : Nat) (s : State) : (State.setBank b s).orb = s.orb := rfl
@[simp] theorem setBank_seq (b : Nat) (s : State) : (State.setBank b s).seq = { s.seq with bank := b } := rfl
@[simp] theorem setBank_res (b : Nat) (s : State) : (State.setBank b s).res = s.res := rfl
@[simp] theorem setBank_refused (b : Nat) (s : State) : (State.setBank b s).refused = s.refused := rfl
@[simp] theorem setBank_fault (b : Nat) (s : State) : (State.setBank b s).fault = s.fault := rfl
@[simp] theorem setBank_trace (b : Nat) (s : State) : (State.setBank b s).trace = s.trace := rfl
@[simp] theorem setBank_chain (b : Nat) (s : State) : (State.setBank b s).chain = s.chain := rfl
@[simp] theorem setBank_running (b : Nat) (s : State) : (State.setBank b s).running = s.running := rfl
@[simp] theorem setBank_busy (b : Nat) (s : State) : (State.setBank b s).busy = s.busy := rfl
@[simp] theorem setBank_port (b : Nat) (s : State) : (State.setBank b s).port = s.port := rfl
@[simp] theorem setBank_env (b : Nat) (s : State) : (State.setBank b s).env = s.env := rfl

@[simp] theorem setPos_cfg (p : Nat) (s : State) : (State.setPos p s).cfg = s.cfg := rfl
@[simp] theorem setPos_ks (p : Nat) (s : State) : (State.setPos p s).ks = s.ks := rfl
@[simp] theorem setPos_orb (p : Nat) (s : State) : (State.setPos p s).orb = s.orb := rfl
@[simp] theorem setPos_seq (p : Nat) (s : State) : (State.setPos p s).seq = { s.seq with pos := p } := rfl
@[simp] theorem setPos_res (p : Nat) (s : State) : (State.setPos p s).res = s.res := rfl
@[simp] theorem setPos_refused (p : Nat) (s : State) : (State.setPos p s).refused = s.refused := rfl
@[simp] theorem setPos_fault (p : Nat) (s : State) : (State.setPos p s).fault = s.fault := rfl
@[simp] theorem setPos_trace (p : Nat) (s : State) : (State.setPos p s).trace = s.trace := rfl
@[simp] theorem setPos_chain (p : Nat) (s : State) : (State.setPos p s).chain = s.chain := rfl
@[simp] theorem setPos_running (p : Nat) (s : State) : (State.setPos p s).running = s.running := rfl
@[simp] theorem setPos_busy (p : Nat) (s : State) : (State.setPos p s).busy = s.busy := rfl
@[simp] theorem setPos_port (p : Nat) (s : State) : (State.setPos p s).port = s.port := rfl
@[simp] theorem setPos_env (p : Nat) (s : State) : (State.setPos p s).env = s.env := rfl

end Sys2Proof.Machine
end

