-- ==== Sys2Proof/Laws/Ring.lean ====
section
/-! SUPPORT. What the ring-buffer operations can do, said once each: the index arithmetic, RB_TRY_POP, RB_DRAIN and the
pushes. -/

namespace Sys2Proof.Machine

variable {cap : Nat} {o : Orb} {s : State}

theorem nextIndex_lt (h : 0 < cap) (i : Nat) : nextIndex cap i < cap := Nat.mod_lt _ h

theorem nextIndex_of_lt {i : Nat} (h : i < cap) : nextIndex cap i = if i + 1 = cap then 0 else i + 1 := by
  unfold nextIndex
  split_ifs with h1
  · rw [h1, Nat.mod_self]
  · exact Nat.mod_eq_of_lt (by omega)

/-- COUNT without a remainder (R40). -/
theorem Orb.count_of_lt (hi : o.inIdx < cap) (ho : o.outIdx < cap) :
    o.count cap = if o.outIdx ≤ o.inIdx then o.inIdx - o.outIdx else o.inIdx + cap - o.outIdx := by
  unfold Orb.count
  split_ifs with h
  · rw [show o.inIdx + (cap - o.outIdx) = (o.inIdx - o.outIdx) + cap by omega, Nat.add_mod_right,
      Nat.mod_eq_of_lt (by omega)]
  · rw [Nat.mod_eq_of_lt (by omega)]
    omega

theorem Orb.slot_of_lt {j : Nat} (ho : o.outIdx < cap) (hj : j < cap) :
    o.slot cap j = if o.outIdx + j < cap then o.outIdx + j else o.outIdx + j - cap := by
  unfold Orb.slot
  split_ifs with h
  · exact Nat.mod_eq_of_lt h
  · rw [Nat.mod_eq_sub_mod (by omega), Nat.mod_eq_of_lt (by omega)]

theorem Orb.inRange_iff : o.inRange cap = true ↔ o.inIdx < cap ∧ o.outIdx < cap := by
  simp [Orb.inRange]

theorem OrbGood.inRange (h : OrbGood cap o) : o.inRange cap = true :=
  Orb.inRange_iff.2 ⟨h.2.1, h.2.2.1⟩

/-- EMPTY is COUNT = 0 (R40). -/
theorem Orb.isEmpty_iff_count (hi : o.inIdx < cap) (ho : o.outIdx < cap) :
    o.isEmpty = true ↔ o.count cap = 0 := by
  rw [Orb.count_of_lt hi ho]
  simp only [Orb.isEmpty, decide_eq_true_eq]
  split_ifs <;> omega

/-- FULL is COUNT = RB_CAPACITY - 1 (R40, R261). -/
theorem Orb.isFull_iff_count (hi : o.inIdx < cap) (ho : o.outIdx < cap) :
    o.isFull cap = true ↔ o.count cap = cap - 1 := by
  rw [Orb.count_of_lt hi ho]
  simp only [Orb.isFull, decide_eq_true_eq, nextIndex_of_lt hi]
  split_ifs <;> omega

theorem Orb.count_lt (ho : o.outIdx < cap) : o.count cap < cap :=
  Nat.mod_lt _ (by omega)

@[simp] theorem Orb.put_outIdx (b : Byte) : (o.put cap b).outIdx = o.outIdx := rfl
@[simp] theorem Orb.put_inIdx (b : Byte) : (o.put cap b).inIdx = nextIndex cap o.inIdx := rfl
@[simp] theorem Orb.put_mem (b : Byte) : (o.put cap b).mem = Memory.write o.mem o.inIdx b := rfl
@[simp] theorem Orb.drop_outIdx : (o.drop cap).outIdx = nextIndex cap o.outIdx := rfl
@[simp] theorem Orb.drop_inIdx : (o.drop cap).inIdx = o.inIdx := rfl
@[simp] theorem Orb.drop_mem : (o.drop cap).mem = o.mem := rfl

theorem Orb.count_put (b : Byte) (hi : o.inIdx < cap) (ho : o.outIdx < cap) (hf : o.isFull cap = false) :
    (o.put cap b).count cap = o.count cap + 1 := by
  have hf' : ¬(nextIndex cap o.inIdx = o.outIdx) := by simpa [Orb.isFull] using hf
  have hn : (o.put cap b).inIdx < cap := nextIndex_lt (Nat.zero_lt_of_lt hi) _
  rw [Orb.count_of_lt hn ho, Orb.count_of_lt hi ho]
  simp only [Orb.put_inIdx, Orb.put_outIdx, nextIndex_of_lt hi] at *
  split_ifs at * <;> omega

theorem Orb.count_drop (hi : o.inIdx < cap) (ho : o.outIdx < cap) (he : o.isEmpty = false) :
    (o.drop cap).count cap + 1 = o.count cap := by
  have he' : ¬(o.inIdx = o.outIdx) := by simpa [Orb.isEmpty] using he
  have hn : (o.drop cap).outIdx < cap := nextIndex_lt (Nat.zero_lt_of_lt hi) _
  rw [Orb.count_of_lt (o := o.drop cap) hi hn, Orb.count_of_lt hi ho]
  simp only [Orb.drop_inIdx, Orb.drop_outIdx, nextIndex_of_lt ho] at *
  split_ifs at * <;> omega

/-- The slot the next push writes is just past the outstanding ones. -/
theorem Orb.slot_count (hi : o.inIdx < cap) (ho : o.outIdx < cap) : o.slot cap (o.count cap) = o.inIdx := by
  rw [Orb.slot_of_lt ho (Orb.count_lt ho), Orb.count_of_lt hi ho]
  split_ifs <;> omega

theorem Orb.slot_ne_in {j : Nat} (hi : o.inIdx < cap) (ho : o.outIdx < cap) (hj : j < o.count cap) :
    o.slot cap j ≠ o.inIdx := by
  have hc := Orb.count_lt ho
  rw [Orb.slot_of_lt ho (by omega)]
  rw [Orb.count_of_lt hi ho] at hj
  split_ifs at * <;> omega

theorem Orb.slot_drop {j : Nat} : (o.drop cap).slot cap j = o.slot cap (j + 1) := by
  simp only [Orb.slot, Orb.drop_outIdx, nextIndex, Nat.mod_add_mod]
  congr 1
  omega

/-- A push keeps the ring buffer good. -/
theorem OrbGood.put (b : Byte) (h : OrbGood cap o) (hf : o.isFull cap = false) : OrbGood cap (o.put cap b) := by
  obtain ⟨hc, hi, ho, hw, hm, hr⟩ := h
  refine ⟨hc, nextIndex_lt (by omega) _, ho, Memory.wf_write _ _ hw, fun x hx => ?_, fun j hj => ?_⟩
  · rcases Memory.mem_write hx with rfl | hx
    · exact hi
    · exact hm x hx
  · rw [Orb.count_put b hi ho hf] at hj
    have hs : (o.put cap b).slot cap j = o.slot cap j := rfl
    rw [hs, Orb.put_mem, Memory.read_write]
    split_ifs with h1
    · rfl
    · refine hr j (lt_of_le_of_ne (by omega) fun h2 => h1 ?_)
      rw [h2, Orb.slot_count hi ho]

/-- A pop keeps the ring buffer good. -/
theorem OrbGood.drop (h : OrbGood cap o) (he : o.isEmpty = false) : OrbGood cap (o.drop cap) := by
  obtain ⟨hc, hi, ho, hw, hm, hr⟩ := h
  refine ⟨hc, hi, nextIndex_lt (by omega) _, hw, hm, fun j hj => ?_⟩
  have := Orb.count_drop hi ho he
  rw [Orb.slot_drop]
  exact hr (j + 1) (by omega)

/-- A push appends to the outstanding bytes (R262). -/
theorem Orb.bytes_put (b : Byte) (hi : o.inIdx < cap) (ho : o.outIdx < cap) (hf : o.isFull cap = false) :
    (o.put cap b).bytes cap = o.bytes cap ++ [b] := by
  unfold Orb.bytes
  rw [Orb.count_put b hi ho hf, List.range_succ, List.filterMap_append]
  congr 1
  · refine List.filterMap_congr fun j hj => ?_
    have hs : (o.put cap b).slot cap j = o.slot cap j := rfl
    rw [hs, Orb.put_mem, Memory.read_write_other _ _ (Orb.slot_ne_in hi ho (List.mem_range.1 hj))]
  · have hs : (o.put cap b).slot cap (o.count cap) = o.inIdx := Orb.slot_count hi ho
    simp [hs, Memory.read_write_same]

/-- A pop takes the oldest outstanding byte (R262). -/
theorem Orb.bytes_drop {b : Byte} (hi : o.inIdx < cap) (ho : o.outIdx < cap) (he : o.isEmpty = false)
    (hb : Memory.read o.mem o.outIdx = some b) : o.bytes cap = b :: (o.drop cap).bytes cap := by
  unfold Orb.bytes
  rw [← Orb.count_drop hi ho he, List.range_succ_eq_map, List.filterMap_cons]
  have hs : o.slot cap 0 = o.outIdx := by simp [Orb.slot, Nat.mod_eq_of_lt ho]
  simp only [hs, hb, List.filterMap_map]
  congr 1
  refine List.filterMap_congr fun j _ => ?_
  simp [Orb.slot_drop]

/-- The oldest byte of a good, non-empty buffer is there to read. -/
theorem OrbGood.read_out (h : OrbGood cap o) (he : o.isEmpty = false) :
    ∃ b, Memory.read o.mem o.outIdx = some b := by
  obtain ⟨_, hi, ho, _, _, hr⟩ := h
  have := Orb.count_drop hi ho he
  have h0 := hr 0 (by omega)
  rw [show o.slot cap 0 = o.outIdx by simp [Orb.slot, Nat.mod_eq_of_lt ho]] at h0
  exact Option.isSome_iff_exists.1 h0

/-- The state after a TxReady query. -/
def afterQuery (s : State) : State := (s.setEnv s.env.drawReady.2).emit (.ready s.env.drawReady.1)

/-- What RB_TRY_POP does in a good buffer (R272). -/
theorem tryPop_cases (h : OrbGood s.cfg.rbCapacity s.orb) :
    (s.orb.isEmpty = true ∧ tryPop s = (none, s)) ∨
    (s.orb.isEmpty = false ∧ ∃ b, Memory.read s.orb.mem s.orb.outIdx = some b ∧
      tryPop s = (some b, s.setOrb (s.orb.drop s.cfg.rbCapacity))) := by
  cases he : s.orb.isEmpty with
  | true => exact .inl ⟨rfl, by simp [tryPop, h.inRange, he]⟩
  | false =>
    obtain ⟨b, hb⟩ := h.read_out he
    exact .inr ⟨rfl, b, hb, by simp [tryPop, h.inRange, he, hb]⟩

/-- What RB_DRAIN does in a good buffer: nothing, a query that fails, or a query and one byte (R273). -/
theorem drain_cases (h : OrbGood s.cfg.rbCapacity s.orb) :
    (s.orb.isEmpty = true ∧ drain s = (false, s)) ∨
    (s.orb.isEmpty = false ∧ s.env.drawReady.1 = false ∧ drain s = (false, afterQuery s)) ∨
    (s.orb.isEmpty = false ∧ s.env.drawReady.1 = true ∧ ∃ b, Memory.read s.orb.mem s.orb.outIdx = some b ∧
      drain s = (true, ((afterQuery s).setOrb (s.orb.drop s.cfg.rbCapacity)).emit (.tx b))) := by
  cases he : s.orb.isEmpty with
  | true => exact .inl ⟨rfl, by simp [drain, h.inRange, he]⟩
  | false =>
    cases hr : s.env.drawReady.1 with
    | false => exact .inr (.inl ⟨rfl, rfl, by simp [drain, txReady, h.inRange, he, hr, afterQuery]⟩)
    | true =>
      refine .inr (.inr ⟨rfl, rfl, ?_⟩)
      obtain ⟨b, hb⟩ := h.read_out he
      exact ⟨b, hb, by simp [drain, txReady, tryPop, txByte, h.inRange, he, hr, hb, afterQuery]⟩

/-- What RB_DRAIN leaves unchanged, in every state. -/
theorem drain_frame (s : State) :
    (drain s).2 = { s with orb := (drain s).2.orb, trace := (drain s).2.trace, env := (drain s).2.env,
                           fault := (drain s).2.fault } := by
  cases hr : s.orb.inRange s.cfg.rbCapacity <;> cases he : s.orb.isEmpty <;> cases hq : s.env.drawReady.1 <;>
    cases hm : Memory.read s.orb.mem s.orb.outIdx <;>
    simp [drain, txReady, tryPop, txByte, hr, he, hq, hm, State.raiseFault, State.emit, State.setEnv, State.setOrb]

/-- An RB_DRAIN that faults makes no other change (spec/60_exceptions.md R326). -/
theorem drain_fault (hf : s.fault = false) (h : (drain s).2.fault = true) : (drain s).2 = s.raiseFault := by
  cases hr : s.orb.inRange s.cfg.rbCapacity <;> cases he : s.orb.isEmpty <;> cases hq : s.env.drawReady.1 <;>
    cases hm : Memory.read s.orb.mem s.orb.outIdx <;> simp_all [drain, txReady, tryPop, txByte]

/-- RB_DRAIN writes no slot, in every state. -/
theorem drain_mem (s : State) : (drain s).2.orb.mem = s.orb.mem := by
  cases hr : s.orb.inRange s.cfg.rbCapacity <;> cases he : s.orb.isEmpty <;> cases hq : s.env.drawReady.1 <;>
    cases hm : Memory.read s.orb.mem s.orb.outIdx <;> simp [drain, txReady, tryPop, txByte, hr, he, hq, hm]

/-- RB_TRY_POP writes no slot, in every state. -/
theorem tryPop_mem (s : State) : (tryPop s).2.orb.mem = s.orb.mem := by
  cases hr : s.orb.inRange s.cfg.rbCapacity <;> cases he : s.orb.isEmpty <;>
    cases hm : Memory.read s.orb.mem s.orb.outIdx <;> simp [tryPop, hr, he, hm]

/-- Pushing keeps the canonical form of the storage, in every state. -/
theorem pushBytes_wf (bs : List Byte) (h : Memory.wf s.orb.mem = true) :
    Memory.wf (pushBytes bs s).2.orb.mem = true := by
  induction bs generalizing s with
  | nil => exact h
  | cons b bs ih =>
    unfold pushBytes
    split
    · split
      · rw [drain_mem]
        exact h
      · exact ih (Memory.wf_write _ _ h)
    · exact h

/-- RB_DRAIN keeps a good buffer good and does not fault. -/
theorem drain_good (h : OrbGood s.cfg.rbCapacity s.orb) :
    (drain s).2.fault = s.fault ∧ OrbGood s.cfg.rbCapacity (drain s).2.orb := by
  rcases drain_cases h with ⟨_, h1⟩ | ⟨_, _, h1⟩ | ⟨he, _, b, _, h1⟩ <;> rw [h1]
  · exact ⟨rfl, h⟩
  · exact ⟨rfl, h⟩
  · exact ⟨rfl, h.drop he⟩

/-- A good buffer holds as many outstanding bytes as COUNT says. -/
theorem OrbGood.length_bytes (h : OrbGood cap o) : (o.bytes cap).length = o.count cap := by
  have key : ∀ n ≤ o.count cap,
      ((List.range n).filterMap fun j => Memory.read o.mem (o.slot cap j)).length = n := by
    intro n hn
    induction n with
    | zero => rfl
    | succ n ih =>
      obtain ⟨b, hb⟩ := Option.isSome_iff_exists.1 (h.2.2.2.2.2 n (by omega))
      simp [List.range_succ, List.filterMap_append, ih (by omega), hb]
  exact key _ le_rfl

theorem Stored.refl (hi : o.inIdx < cap) : Stored cap o o [] :=
  ⟨rfl, by simp [Nat.mod_eq_of_lt hi], by simp, fun _ _ => rfl, by simp⟩

/-- A push followed by pushes. -/
theorem Stored.cons {o' : Orb} {b : Byte} {bs : List Byte} (h : OrbGood cap o) (hf : o.isFull cap = false)
    (h' : OrbGood cap o') (hs : Stored cap (o.put cap b) o' bs) : Stored cap o o' (b :: bs) := by
  have hi := h.2.1
  have hbytes : o'.bytes cap = o.bytes cap ++ b :: bs := by
    rw [hs.2.2.2.2, Orb.bytes_put b h.2.1 h.2.2.1 hf, List.append_assoc, List.singleton_append]
  have hlen : bs.length + 1 < cap := by
    have h1 := congrArg List.length hbytes
    have h2 := Orb.count_lt h'.2.2.1
    rw [h'.length_bytes, List.length_append, List.length_cons] at h1
    omega
  have hidx : ∀ j, ((o.put cap b).inIdx + j) % cap = (o.inIdx + (j + 1)) % cap := fun j => by
    rw [Orb.put_inIdx, nextIndex, Nat.mod_add_mod]
    congr 1
    omega
  refine ⟨hs.1, ?_, ?_, ?_, hbytes⟩
  · rw [hs.2.1, hidx, List.length_cons]
  · intro j c hj
    cases j with
    | zero =>
      obtain rfl : b = c := by simpa using hj
      rw [Nat.add_zero, Nat.mod_eq_of_lt hi, hs.2.2.2.1 _ fun j hj => ?_, Orb.put_mem, Memory.read_write_same]
      rw [hidx]
      by_cases hlt : o.inIdx + (j + 1) < cap
      · rw [Nat.mod_eq_of_lt hlt]
        omega
      · rw [Nat.mod_eq_sub_mod (by omega), Nat.mod_eq_of_lt (by omega)]
        omega
    | succ j => exact hidx j ▸ hs.2.2.1 j c (by simpa using hj)
  · intro i hi'
    rw [hs.2.2.2.1 i fun j hj => ?_, Orb.put_mem, Memory.read_write_other]
    · have := hi' 0 (by simp)
      rwa [Nat.add_zero, Nat.mod_eq_of_lt hi] at this
    · rw [hidx]
      exact hi' (j + 1) (by simpa using hj)

/-- All that pushing a list of bytes can do in a good buffer (R274): the bytes before `left` are stored; then either
nothing is left, or the buffer is full and one drain attempt has been made. -/
theorem pushBytes_cases (bs : List Byte) (h : OrbGood s.cfg.rbCapacity s.orb) :
    ∃ pushed o', bs = pushed ++ (pushBytes bs s).1 ∧ Stored s.cfg.rbCapacity s.orb o' pushed ∧
      OrbGood s.cfg.rbCapacity o' ∧
      (((pushBytes bs s).1 = [] ∧ (pushBytes bs s).2 = s.setOrb o') ∨
       ((pushBytes bs s).1 ≠ [] ∧ o'.isFull s.cfg.rbCapacity = true ∧
         (pushBytes bs s).2 = (drain (s.setOrb o')).2)) := by
  induction bs generalizing s with
  | nil => exact ⟨[], s.orb, rfl, Stored.refl h.2.1, h, .inl ⟨rfl, rfl⟩⟩
  | cons b bs ih =>
    cases hf : s.orb.isFull s.cfg.rbCapacity with
    | true =>
      have e : pushBytes (b :: bs) s = (b :: bs, (drain s).2) := by simp [pushBytes, h.inRange, hf]
      rw [e]
      exact ⟨[], s.orb, rfl, Stored.refl h.2.1, h, .inr ⟨by simp, hf, rfl⟩⟩
    | false =>
      have e : pushBytes (b :: bs) s = pushBytes bs (s.setOrb (s.orb.put s.cfg.rbCapacity b)) := by
        simp [pushBytes, h.inRange, hf]
      obtain ⟨pushed, o', h1, h2, h3, h4⟩ :=
        ih (s := s.setOrb (s.orb.put s.cfg.rbCapacity b)) (h.put b hf)
      rw [e]
      exact ⟨b :: pushed, o', by simpa using h1, Stored.cons h hf h3 h2, h3, h4⟩

/-- Pushes of one list and then of another are pushes of both. -/
theorem Stored.append {o1 o2 : Orb} {bs cs : List Byte} (h : OrbGood cap o) (h2 : OrbGood cap o2)
    (hs1 : Stored cap o o1 bs) (hs2 : Stored cap o1 o2 cs) : Stored cap o o2 (bs ++ cs) := by
  have hbytes : o2.bytes cap = o.bytes cap ++ (bs ++ cs) := by rw [hs2.2.2.2.2, hs1.2.2.2.2, List.append_assoc]
  have hlen : bs.length + cs.length < cap := by
    have e1 := congrArg List.length hbytes
    have e2 := Orb.count_lt h2.2.2.1
    rw [h2.length_bytes, List.length_append, List.length_append] at e1
    omega
  have hidx : ∀ j, (o1.inIdx + j) % cap = (o.inIdx + (bs.length + j)) % cap := fun j => by
    rw [hs1.2.1, Nat.mod_add_mod, Nat.add_assoc]
  have hinj : ∀ i j, i < cap → j < cap → (o.inIdx + i) % cap = (o.inIdx + j) % cap → i = j := by
    intro i j hi hj e
    have hin := h.2.1
    have m1 : ∀ k < cap, (o.inIdx + k) % cap = if o.inIdx + k < cap then o.inIdx + k else o.inIdx + k - cap := by
      intro k hk
      split_ifs with hlt
      · exact Nat.mod_eq_of_lt hlt
      · rw [Nat.mod_eq_sub_mod (by omega), Nat.mod_eq_of_lt (by omega)]
    rw [m1 i hi, m1 j hj] at e
    split_ifs at e <;> omega
  refine ⟨hs2.1.trans hs1.1, ?_, ?_, ?_, hbytes⟩
  · rw [hs2.2.1, hidx, List.length_append]
  · intro j b hj
    by_cases hlt : j < bs.length
    · rw [List.getElem?_append_left hlt] at hj
      rw [hs2.2.2.2.1 _ fun k hk => ?_]
      · exact hs1.2.2.1 j b hj
      · rw [hidx]
        intro e
        have := hinj _ _ (by omega) (by omega) e
        omega
    · rw [List.getElem?_append_right (by omega)] at hj
      have := hs2.2.2.1 (j - bs.length) b hj
      rwa [hidx, Nat.add_sub_cancel' (by omega)] at this
  · intro i hi
    rw [List.length_append] at hi
    rw [hs2.2.2.2.1 i fun k hk => ?_, hs1.2.2.2.1 i fun k hk => hi k (by omega)]
    rw [hidx]
    exact hi _ (by omega)

theorem Stored.count {o' : Orb} {bs : List Byte} (h : OrbGood cap o) (h' : OrbGood cap o')
    (hs : Stored cap o o' bs) : o'.count cap = o.count cap + bs.length := by
  rw [← h'.length_bytes, ← h.length_bytes, hs.2.2.2.2, List.length_append]

/-- With room for all of them, the bytes are stored without a drain attempt (spec/43_event_encoder.md R223). -/
theorem pushBytes_room (bs : List Byte) (h : OrbGood s.cfg.rbCapacity s.orb)
    (hr : s.orb.count s.cfg.rbCapacity + bs.length < s.cfg.rbCapacity) :
    ∃ o', pushBytes bs s = ([], s.setOrb o') ∧ Stored s.cfg.rbCapacity s.orb o' bs ∧
      OrbGood s.cfg.rbCapacity o' := by
  obtain ⟨pushed, o', h1, h2, h3, ⟨h4, h5⟩ | ⟨h4, h5, _⟩⟩ := pushBytes_cases bs h
  · rw [h4, List.append_nil] at h1
    exact ⟨o', Prod.ext h4 h5, h1 ▸ h2, h3⟩
  · exfalso
    rw [Orb.isFull_iff_count h3.2.1 h3.2.2.1, h2.count h h3] at h5
    have := congrArg List.length h1
    have hpos := List.length_pos_iff.2 h4
    rw [List.length_append] at this
    omega

end Sys2Proof.Machine
end

