-- ==== Sys2Proof/Laws/Scan.lean ====
section
/-! SUPPORT. What the scanner's signals and INIT's pins do, as one update of State each, and what a legal configuration
gives (spec/70_reset_and_hazards.md R363). -/

namespace Sys2Proof.Machine

variable {s : State} {c : Cfg}

/-- A pulse only appends its four entries (R130). -/
theorem pulse_eq (pin : Nat) (s : State) : pulse pin s = { s with trace := s.trace ++ pulseTrace s.cfg pin } := by
  simp [pulse, busyWait, gpioWrite, State.emit, pulseTrace]

/-- SR_BEGIN_PASS appends its 14 entries and puts the stimulus at output 0 (R131). -/
theorem beginPass_eq (s : State) :
    beginPass s = { s with trace := s.trace ++ beginPassTrace s.cfg, chain := some 0 } := by
  simp [beginPass, clockPulse, latchPulse, pulse, busyWait, gpioWrite, State.emit, State.setChain, beginPassTrace]

/-- SR_STEP appends its 4 or 8 entries and moves the stimulus one output on (R132). -/
theorem stepChain_eq (s : State) :
    stepChain s = { s with trace := s.trace ++ stepTrace s.cfg, chain := s.chain.map (· + 1) } := by
  cases h : s.cfg.latchRequired <;>
    simp [stepChain, clockPulse, latchPulse, pulse_eq, h, State.setChain, stepTrace]

/-- SNAP_READ makes two draws, records them and fills one half of the snapshot (R133). -/
theorem snapRead_eq (w : Line) (s : State) :
    snapRead w s =
      ((s.env.drawMask.1, s.env.drawMask.2.drawTime.1),
        { s with
          seq := s.seq.snap w s.env.drawMask.1 s.env.drawMask.2.drawTime.1
          trace := s.trace ++ [.mask s.env.drawMask.1, .time s.env.drawMask.2.drawTime.1]
          env := s.env.drawMask.2.drawTime.2 }) := by
  simp [snapRead, readMask, readCounter, State.emit, State.setEnv, State.setSeq]

/-- Setting the directions of a list of input pins only appends to TRACE. -/
theorem foldl_setDir (ps : List Nat) (s : State) :
    ps.foldl (fun s p => gpioSetDirection p .input s) s =
      { s with trace := s.trace ++ ps.map (.setDir · .input) } := by
  induction ps generalizing s with
  | nil => simp
  | cons p ps ih =>
    rw [List.foldl_cons, ih]
    simp [gpioSetDirection, State.emit]

/-- INIT's GPIO calls only append their 16 entries (R361). -/
theorem initPins_eq (s : State) : initPins s = { s with trace := s.trace ++ initTrace s.cfg } := by
  simp only [initPins, foldl_setDir]
  simp [gpioSetDirection, gpioWrite, State.emit, initTrace]

/-- The first failing check, against the table of spec/60_exceptions.md R325. -/
theorem configOk_iff_facts :
    ConfigOk c ↔
      1 ≤ c.numBanks ∧ c.keysPerBank = 8 ∧ (0 ≤ c.noteOffset ∧ c.noteOffset + (c.numKeys : Int) - 1 ≤ 127)
        ∧ 1 < c.rbCapacity ∧ c.minKeyTimeUs.toNat < c.maxKeyTimeUs.toNat
        ∧ (1 ≤ c.minVelocity ∧ c.minVelocity ≤ c.maxVelocity ∧ c.maxVelocity ≤ 127)
        ∧ c.midiChannel ≤ 15 ∧ (0 ≤ c.debounceUs ∧ c.debounceUs < 4294967296)
        ∧ (c.pins.Nodup ∧ c.srResetActive ≤ 1) := by
  simp only [ConfigOk, configChecks, firstFailure]
  constructor
  · intro h
    split_ifs at h
    simp_all
  · rintro ⟨h1, h2, ⟨h3, h3'⟩, h4, h5, ⟨h6, h6', h6''⟩, h7, ⟨h8, h8'⟩, h9, h9'⟩
    simp [h1, h2, h3, h3', h4, h5, h6, h6', h6'', h7, h8, h8', h9, h9']

/-- The number of keys of a legal configuration. -/
theorem ConfigOk.numKeys (h : ConfigOk c) : c.numKeys = c.numBanks * 8 := by
  rw [Cfg.numKeys, (configOk_iff_facts.1 h).2.1]

/-- A key of a bank that exists is a key (R101). -/
theorem ConfigOk.keyId_lt {b p : Nat} (h : ConfigOk c) (hb : b < c.numBanks) (hp : p < 8) :
    keyId b p < c.numKeys := by
  rw [h.numKeys, keyId]
  omega

/-- Every key of a legal configuration has a 7-bit note (spec/30_encoding.md R109). -/
theorem ConfigOk.noteOf {k : Nat} (h : ConfigOk c) (hk : k < c.numKeys) :
    noteOf c k = some (BitVec.ofNat 8 ((k : Int) + c.noteOffset).toNat) := by
  obtain ⟨_, _, ⟨h1, h2⟩, _⟩ := configOk_iff_facts.1 h
  rw [Machine.noteOf, if_pos ⟨by omega, by omega⟩]

/-- VELMAP has a value under a legal configuration (R206). -/
theorem ConfigOk.velocityOk (h : ConfigOk c) : velocityOk c = true := by
  obtain ⟨_, _, _, _, h1, ⟨h2, h3, h4⟩, _⟩ := configOk_iff_facts.1 h
  simp [Machine.velocityOk, h1, h2, h3, h4]

theorem ConfigOk.velocityOf (h : ConfigOk c) (d : U32) : ∃ v, velocityOf c d = some v :=
  ⟨_, by rw [Machine.velocityOf, if_pos h.velocityOk]⟩

theorem ConfigOk.encodeOff {k : Nat} (h : ConfigOk c) (hk : k < c.numKeys) : ∃ m, encodeOff c k = some m :=
  ⟨_, by rw [Machine.encodeOff, h.noteOf hk]⟩

theorem ConfigOk.hitMessage {k : Nat} (h : ConfigOk c) (hk : k < c.numKeys) (d : U32) :
    ∃ m, hitMessage c k d = some m := by
  obtain ⟨v, hv⟩ := h.velocityOf d
  exact ⟨_, by simp only [Machine.hitMessage, hv, encodeOn, h.noteOf hk]; rfl⟩

/-- All that INIT can do: refuse with the first failing check's code, or make its calls and write the initial state
(R361). -/
theorem initialise_cases (s : State) :
    (∃ code, firstFailure (configChecks s.cfg) = some code ∧
      initialise s = { s with
        trace := s.trace ++ [.refused code], seq := { s.seq with phase := .refused }, refused := true }) ∨
    (ConfigOk s.cfg ∧
      initialise s = { s with
        ks := List.replicate s.cfg.numKeys KeyEntry.initial
        orb := { s.orb with inIdx := 0, outIdx := 0 }
        seq := Seq.initial
        trace := s.trace ++ initTrace s.cfg }) := by
  cases h : firstFailure (configChecks s.cfg) with
  | some code => exact .inl ⟨code, rfl, by simp [initialise, h, raiseConfigRefused, State.setPhase, State.setSeq, State.emit]⟩
  | none => exact .inr ⟨h, by simp [initialise, h, initPins_eq]⟩

end Sys2Proof.Machine
end

