-- ==== Sys2Proof/Laws/Key.lean ====
section
/-! SUPPORT. What one evaluation of a key can do, and the running of a body's statements. -/

namespace Sys2Proof.Machine

variable {s : State}

@[simp] theorem keyStOfCode_code (x : KeySt) : keyStOfCode x.code = some x := by cases x <;> rfl

/-- A code other than 3 stands for a state (R104). -/
theorem keyStOfCode_of_ne_three {x : BitVec 2} (h : x ≠ 3) : ∃ st, keyStOfCode x = some st := by
  have key : ∀ x : BitVec 2, x ≠ 3 → (keyStOfCode x).isSome := by decide
  exact Option.isSome_iff_exists.1 (key x h)

/-- The state a code stands for has that code. -/
theorem code_of_keyStOfCode {x : BitVec 2} {st : KeySt} (h : keyStOfCode x = some st) : st.code = x := by
  unfold keyStOfCode at h
  split_ifs at h with h0 h1 h2 <;> cases h <;> simp_all [KeySt.code]

/-- A legal entry makes no illegal transition. -/
theorem transition_ne_illegal {c : Cfg} {line : Line} {e : KeyEntry} {d : Bool} {t : U32} (h : e.st ≠ 3) :
    transition c line e d t ≠ .illegal := by
  obtain ⟨st, hst⟩ := keyStOfCode_of_ne_three h
  cases st <;> cases line <;> cases d <;> simp [transition, hst]
  split_ifs <;> simp

/-- A legal entry stays legal. -/
theorem entryAfter_ne_three {c : Cfg} {line : Line} {e : KeyEntry} {d : Bool} {t : U32} (h : e.st ≠ 3) :
    (entryAfter c line e d t).st ≠ 3 := by
  obtain ⟨st, hst⟩ := keyStOfCode_of_ne_three h
  cases st <;> cases line <;> cases d <;> simp only [entryAfter, transition, hst] <;>
    (try split_ifs) <;> first | exact h | simp [KeySt.code]

/-- An evaluation of a key that exists, in a legal state: it writes the entry of R162, records any diagnostic and hands
over the bytes of any event; it does not fault. -/
theorem evalKey_eq {line : Line} {k : Nat} {d : Bool} {t : U32} (hc : ConfigOk s.cfg) (hks : KsGood s.cfg s.ks)
    (hk : k < s.cfg.numKeys) :
    ∃ msg, messageBytes msg = eventBytes s.cfg line k (s.ks.getD k KeyEntry.initial) d t ∧
      evalKey line k d t s =
        (msg, { s with
          ks := s.ks.set k (entryAfter s.cfg line (s.ks.getD k KeyEntry.initial) d t)
          trace := s.trace ++ diagEvents s.cfg line k (s.ks.getD k KeyEntry.initial) d t }) := by
  have hlen : k < s.ks.length := hks.1 ▸ hk
  have hget : s.ks.getD k KeyEntry.initial = s.ks[k] := by simp [hlen]
  have hget? : s.ks[k]? = some s.ks[k] := by simp [hlen]
  have hne : s.ks[k].st ≠ 3 := hks.2 _ (List.getElem_mem hlen)
  have hset : s.ks.set k s.ks[k] = s.ks := List.set_getElem_self hlen
  rw [hget]
  cases ht : transition s.cfg line s.ks[k] d t with
  | keep => exact ⟨none, by simp [eventBytes, ht, messageBytes], by simp [evalKey, hlen, ht, entryAfter, diagEvents]⟩
  | move e => exact ⟨none, by simp [eventBytes, ht, messageBytes], by simp [evalKey, hlen, ht, entryAfter, diagEvents, State.setKs]⟩
  | hit e du =>
    obtain ⟨m, hm⟩ := hc.hitMessage hk du
    exact ⟨some m, by simp [eventBytes, ht, hm], by simp [evalKey, hlen, ht, hm, entryAfter, diagEvents, State.setKs]⟩
  | release e =>
    obtain ⟨m, hm⟩ := hc.encodeOff hk
    exact ⟨some m, by simp [eventBytes, ht, hm], by simp [evalKey, hlen, ht, hm, entryAfter, diagEvents, State.setKs]⟩
  | inconsistent =>
    exact ⟨none, by simp [eventBytes, ht, messageBytes],
      by simp [evalKey, hlen, ht, entryAfter, diagEvents, signalDiag, State.emit]⟩
  | illegal => exact absurd ht (transition_ne_illegal hne)

/-- Writing an entry keeps the key-state file good. -/
theorem KsGood.set {c : Cfg} {ks : List KeyEntry} (h : KsGood c ks) (k : Nat) {e : KeyEntry} (he : e.st ≠ 3) :
    KsGood c (ks.set k e) :=
  ⟨by rw [List.length_set]; exact h.1, fun x hx => by
    rcases List.mem_or_eq_of_mem_set hx with hx | rfl
    · exact h.2 x hx
    · exact he⟩

/-- An entry of a good key-state file is legal. -/
theorem KsGood.getD {c : Cfg} {ks : List KeyEntry} (h : KsGood c ks) (k : Nat) :
    (ks.getD k KeyEntry.initial).st ≠ 3 := by
  rw [List.getD_eq_getElem?_getD]
  cases hk : ks[k]? with
  | none => decide
  | some e => exact h.2 e (List.mem_of_getElem? hk)

/-! ## Running a body -/

@[simp] theorem runOps_nil (s : State) : runOps [] s = complete s := rfl

/-- A statement that ends lets the next one run. -/
theorem runOps_cons_done {m : Micro} {ms : List Micro} {s1 : State} (h : doMicro m s = ([], s1))
    (hf : s1.fault = false) : runOps (m :: ms) s = runOps ms s1 := by
  simp [runOps, h, hf]

/-- A statement whose push has to wait stands in `busy` with the rest. -/
theorem runOps_cons_wait {m : Micro} {ms : List Micro} {s1 : State} {b : Byte} {bs : List Byte}
    (h : doMicro m s = (b :: bs, s1)) (hf : s1.fault = false) :
    runOps (m :: ms) s = s1.setBusy (.push (b :: bs) :: ms) := by
  simp [runOps, h, hf]

/-- A model fault ends the operation. -/
theorem runOps_cons_fault {m : Micro} {ms : List Micro} {s1 : State} {left : List Byte}
    (h : doMicro m s = (left, s1)) (hf : s1.fault = true) : runOps (m :: ms) s = s1.setBusy [] := by
  simp [runOps, h, hf]

end Sys2Proof.Machine
end

