-- ==== Sys2Proof/Laws/Body.lean ====
section
/-! SUPPORT. What one statement of a body can do, what a body that runs keeps, and what it leaves unchanged. -/

namespace Sys2Proof.Machine

variable {s : State}

/-! ## A fault makes no other change -/

/-- An operation that does not fault keeps all it did. -/
@[simp] theorem orFault_of_ok {t : State} (h : t.fault = false) : s.orFault t = t := by simp [State.orFault, h]

/-- An operation that faults keeps nothing it did (spec/60_exceptions.md R326). -/
@[simp] theorem orFault_of_fault {t : State} (h : t.fault = true) : s.orFault t = s.raiseFault := by
  simp [State.orFault, h]

/-- All that `orFault` can answer. -/
theorem orFault_cases (s t : State) :
    (t.fault = false ∧ s.orFault t = t) ∨ (t.fault = true ∧ s.orFault t = s.raiseFault) := by
  cases h : t.fault <;> simp [h]

/-- An evaluation that faults makes no other change. -/
theorem evalKey_fault {line : Line} {k : Nat} {d : Bool} {t : U32} (hf : s.fault = false)
    (h : (evalKey line k d t s).2.fault = true) : (evalKey line k d t s).2 = s.raiseFault := by
  unfold evalKey at h ⊢
  split at h
  · simp_all
  · split at h <;> (try split at h) <;> simp_all [signalDiag]

/-! ## Pushes, evaluations and statements -/

/-- What a push leaves unchanged, in every state. -/
theorem pushBytes_frame (bs : List Byte) (s : State) :
    (pushBytes bs s).2 = { s with orb := (pushBytes bs s).2.orb, trace := (pushBytes bs s).2.trace,
                                  env := (pushBytes bs s).2.env, fault := (pushBytes bs s).2.fault } := by
  induction bs generalizing s with
  | nil => rfl
  | cons b bs ih =>
    unfold pushBytes
    split
    · split
      · exact drain_frame s
      · rw [ih]
        rfl
    · rfl

/-- What an evaluation leaves unchanged, in every state. -/
theorem evalKey_frame (line : Line) (k : Nat) (d : Bool) (t : U32) (s : State) :
    (evalKey line k d t s).2 = { s with ks := (evalKey line k d t s).2.ks, trace := (evalKey line k d t s).2.trace,
                                        fault := (evalKey line k d t s).2.fault } := by
  unfold evalKey
  split
  · rfl
  · split <;> first | rfl | (split <;> rfl)

/-- Pushing in a good buffer keeps it good and does not fault. -/
theorem pushBytes_good (bs : List Byte) (h : OrbGood s.cfg.rbCapacity s.orb) :
    (pushBytes bs s).2.fault = s.fault ∧ OrbGood s.cfg.rbCapacity (pushBytes bs s).2.orb := by
  obtain ⟨pushed, o', _, _, h3, ⟨_, h5⟩ | ⟨_, _, h5⟩⟩ := pushBytes_cases bs h <;> rw [h5]
  · exact ⟨rfl, h3⟩
  · exact drain_good (s := s.setOrb o') h3

/-- A push keeps the invariant. -/
theorem Live.push (bs : List Byte) (h : Live s) : Live (pushBytes bs s).2 := by
  obtain ⟨hc, hf, hr, hp, hp', ho, hk, hq, hb⟩ := h
  have hg := pushBytes_good bs ho
  rw [pushBytes_frame]
  exact ⟨hc, hg.1.trans hf, hr, hp, hp', hg.2, hk, hq, hb⟩

/-- A drain attempt keeps the invariant. -/
theorem Live.drain (h : Live s) : Live (drain s).2 := by
  obtain ⟨hc, hf, hr, hp, hp', ho, hk, hq, hb⟩ := h
  have hg := drain_good ho
  rw [drain_frame]
  exact ⟨hc, hg.1.trans hf, hr, hp, hp', hg.2, hk, hq, hb⟩

/-- An evaluation of a key that exists keeps the invariant. -/
theorem Live.eval {line : Line} {k : Nat} {d : Bool} {t : U32} (h : Live s) (hk : k < s.cfg.numKeys) :
    Live (evalKey line k d t s).2 := by
  obtain ⟨hc, hf, hr, hp, hp', ho, hks, hq, hb⟩ := h
  obtain ⟨msg, _, he⟩ := evalKey_eq (line := line) (d := d) (t := t) hc hks hk
  rw [he]
  exact ⟨hc, hf, hr, hp, hp', ho, hks.set k (entryAfter_ne_three (hks.getD k)), hq, hb⟩

/-- The sequencer's bank and position change within their ranges. -/
theorem Live.seq {q : Seq} (h : Live s) (hq : SeqGood s.cfg q) (hp : q.phase ≠ .init) (hp' : q.phase ≠ .refused) :
    Live (s.setSeq q) := by
  obtain ⟨hc, hf, hr, _, _, ho, hks, _, hb⟩ := h
  exact ⟨hc, hf, hr, hp, hp', ho, hks, hq, hb⟩

theorem SeqGood.snap {c : Cfg} {q : Seq} (h : SeqGood c q) (w : Line) (m : Byte) (t : U32) :
    SeqGood c (q.snap w m t) ∧ (q.snap w m t).phase = q.phase := by
  cases w <;> exact ⟨h, rfl⟩

/-- A read of a contact line keeps the invariant. -/
theorem Live.snapRead (w : Line) (h : Live s) : Live (snapRead w s).2 := by
  obtain ⟨hc, hf, hr, hp, hp', ho, hks, hq, hb⟩ := h
  rw [snapRead_eq]
  obtain ⟨h1, h2⟩ := SeqGood.snap hq w s.env.drawMask.1 s.env.drawMask.2.drawTime.1
  exact ⟨hc, hf, hr, h2 ▸ hp, h2 ▸ hp', ho, hks, h1, hb⟩

/-- The result register is no part of the invariant. -/
theorem Live.setRes (r : Result) (h : Live s) : Live (s.setRes r) := h

/-- SR_BEGIN_PASS keeps the invariant. -/
theorem Live.beginPass (h : Live s) : Live (beginPass s) := by
  rw [beginPass_eq]
  exact h

/-- SR_STEP keeps the invariant. -/
theorem Live.stepChain (h : Live s) : Live (stepChain s) := by
  rw [stepChain_eq]
  exact h

/-- What a statement of a body leaves unchanged, in every state. -/
theorem doMicro_frame (m : Micro) (s : State) :
    (doMicro m s).2.cfg = s.cfg ∧ (doMicro m s).2.refused = s.refused ∧ (doMicro m s).2.running = s.running
      ∧ (doMicro m s).2.busy = s.busy ∧ (doMicro m s).2.port = s.port ∧ (doMicro m s).2.res = s.res
      ∧ (doMicro m s).2.seq.phase = s.seq.phase := by
  cases m with
  | push bs => simp only [doMicro]; rw [pushBytes_frame]; simp
  | drain => simp only [doMicro]; rw [drain_frame]; simp
  | beginPass => simp [doMicro, beginPass_eq]
  | srStep => simp [doMicro, stepChain_eq]
  | snapRead w => cases w <;> simp [doMicro, snapRead_eq, Seq.snap]
  | setBank b => simp [doMicro, State.setBank]
  | setPos p => simp [doMicro, State.setPos]
  | evalStart b p =>
    simp only [doMicro]
    split_ifs <;> (try rw [pushBytes_frame]) <;> rw [evalKey_frame] <;> simp [State.setPos]
  | evalEnd b p =>
    simp only [doMicro]
    split_ifs <;> (try rw [pushBytes_frame]) <;> (try rw [evalKey_frame]) <;> simp [State.setPos]

/-- A statement that names keys and banks that exist keeps the invariant. -/
theorem Live.doMicro {m : Micro} (h : Live s) (hm : MicroGood s.cfg m) : Live (doMicro m s).2 := by
  have hq := h.2.2.2.2.2.2.2.1
  cases m with
  | push bs => exact h.push bs
  | drain => exact h.drain
  | beginPass => exact h.beginPass
  | srStep => exact h.stepChain
  | snapRead w => exact h.snapRead w
  | setBank b => exact h.seq ⟨hm, hq.2⟩ h.2.2.2.1 h.2.2.2.2.1
  | setPos p => exact h.seq ⟨hq.1, hm, hq.2.2⟩ h.2.2.2.1 h.2.2.2.2.1
  | evalStart b p =>
    have h1 : Live (s.setPos p) := h.seq ⟨hq.1, Nat.le_of_lt hm.2, hq.2.2⟩ h.2.2.2.1 h.2.2.2.2.1
    have h2 := h1.eval (line := .startLine) (d := buttonDown s.seq.sb p) (t := s.seq.st) (h1.1.keyId_lt hm.1 hm.2)
    simp only [Machine.doMicro]
    split_ifs
    · exact h2
    · exact h2.push _
  | evalEnd b p =>
    have h1 : Live (s.setPos p) := h.seq ⟨hq.1, Nat.le_of_lt hm.2, hq.2.2⟩ h.2.2.2.1 h.2.2.2.2.1
    have h2 := h1.eval (line := .endLine) (d := buttonDown s.seq.eb p) (t := s.seq.et) (h1.1.keyId_lt hm.1 hm.2)
    simp only [Machine.doMicro]
    split_ifs
    · exact h
    · exact h2
    · exact h2.push _

/-- An event has at most three bytes. -/
theorem eventBytes_length (c : Cfg) (line : Line) (k : Nat) (e : KeyEntry) (d : Bool) (t : U32) :
    (eventBytes c line k e d t).length ≤ 3 := by
  have hm : ∀ m : Option Message, (messageBytes m).length ≤ 3 := fun m => by
    cases m <;> simp [messageBytes, Message.bytes]
  unfold eventBytes
  split <;> simp [hm]

/-- A start evaluation with room for its event completes: the key's entry, the event's bytes and POS are written
(a start read records no diagnostic). -/
theorem doMicro_evalStart_room {b p : Nat} (h : Live s) (hb : b < s.cfg.numBanks) (hp : p < 8)
    (hr : s.orb.count s.cfg.rbCapacity + 3 < s.cfg.rbCapacity) :
    ∃ o', Machine.doMicro (.evalStart b p) s = ([], { s with
        ks := s.ks.set (keyId b p) (entryAfter s.cfg .startLine (s.ks.getD (keyId b p) KeyEntry.initial)
          (buttonDown s.seq.sb p) s.seq.st)
        trace := s.trace ++ diagEvents s.cfg .startLine (keyId b p) (s.ks.getD (keyId b p) KeyEntry.initial)
          (buttonDown s.seq.sb p) s.seq.st
        orb := o', seq := { s.seq with pos := p } }) ∧
      Stored s.cfg.rbCapacity s.orb o' (eventBytes s.cfg .startLine (keyId b p)
        (s.ks.getD (keyId b p) KeyEntry.initial) (buttonDown s.seq.sb p) s.seq.st) ∧
      OrbGood s.cfg.rbCapacity o' := by
  obtain ⟨hc, hf, _, _, _, ho, hks, _, _⟩ := h
  obtain ⟨msg, hm, he⟩ := evalKey_eq (s := s.setPos p) (line := .startLine) (d := buttonDown s.seq.sb p) (t := s.seq.st)
    hc hks (hc.keyId_lt hb hp)
  have hlen := eventBytes_length s.cfg .startLine (keyId b p) (s.ks.getD (keyId b p) KeyEntry.initial)
    (buttonDown s.seq.sb p) s.seq.st
  obtain ⟨o', h1, h2, h3⟩ := pushBytes_room (s := (evalKey .startLine (keyId b p) (buttonDown s.seq.sb p) s.seq.st
    (s.setPos p)).2) (messageBytes msg) (by rw [he]; exact ho) (by
      rw [he, hm]
      show s.orb.count s.cfg.rbCapacity + _ < s.cfg.rbCapacity
      exact lt_of_le_of_lt (Nat.add_le_add_left hlen _) hr)
  rw [he] at h1 h2 h3
  refine ⟨o', ?_, ?_, h3⟩
  · simp only [Machine.doMicro, he]
    rw [if_neg (by simp [State.setPos, hf]), h1]
    rfl
  · rw [hm] at h2
    exact h2

/-- An end evaluation with room for its event completes: the key's entry, any diagnostic, the event's bytes and POS are
written; with EB = 0x00 it is skipped. -/
theorem doMicro_evalEnd_room {b p : Nat} (h : Live s) (hb : b < s.cfg.numBanks) (hp : p < 8)
    (hr : s.orb.count s.cfg.rbCapacity + 3 < s.cfg.rbCapacity) :
    (s.seq.eb = 0 ∧ Machine.doMicro (.evalEnd b p) s = ([], s)) ∨
    (s.seq.eb ≠ 0 ∧ ∃ o', Machine.doMicro (.evalEnd b p) s = ([], { s with
        ks := s.ks.set (keyId b p) (entryAfter s.cfg .endLine (s.ks.getD (keyId b p) KeyEntry.initial)
          (buttonDown s.seq.eb p) s.seq.et)
        trace := s.trace ++ diagEvents s.cfg .endLine (keyId b p) (s.ks.getD (keyId b p) KeyEntry.initial)
          (buttonDown s.seq.eb p) s.seq.et
        orb := o', seq := { s.seq with pos := p } }) ∧
      Stored s.cfg.rbCapacity s.orb o' (eventBytes s.cfg .endLine (keyId b p)
        (s.ks.getD (keyId b p) KeyEntry.initial) (buttonDown s.seq.eb p) s.seq.et) ∧
      OrbGood s.cfg.rbCapacity o') := by
  by_cases hz : s.seq.eb = 0
  · exact .inl ⟨hz, by simp [Machine.doMicro, hz]⟩
  refine .inr ⟨hz, ?_⟩
  obtain ⟨hc, hf, _, _, _, ho, hks, _, _⟩ := h
  obtain ⟨msg, hm, he⟩ := evalKey_eq (s := s.setPos p) (line := .endLine) (d := buttonDown s.seq.eb p) (t := s.seq.et)
    hc hks (hc.keyId_lt hb hp)
  have hlen := eventBytes_length s.cfg .endLine (keyId b p) (s.ks.getD (keyId b p) KeyEntry.initial)
    (buttonDown s.seq.eb p) s.seq.et
  obtain ⟨o', h1, h2, h3⟩ := pushBytes_room (s := (evalKey .endLine (keyId b p) (buttonDown s.seq.eb p) s.seq.et
    (s.setPos p)).2) (messageBytes msg) (by rw [he]; exact ho) (by
      rw [he, hm]
      show s.orb.count s.cfg.rbCapacity + _ < s.cfg.rbCapacity
      exact lt_of_le_of_lt (Nat.add_le_add_left hlen _) hr)
  rw [he] at h1 h2 h3
  refine ⟨o', ?_, ?_, h3⟩
  · simp only [Machine.doMicro, he, if_neg hz]
    rw [if_neg (by simp [State.setPos, hf]), h1]
    rfl
  · rw [hm] at h2
    exact h2

/-- Statements that name keys and banks that exist keep the invariant. -/
theorem Live.runOps {ms : List Micro} (h : Live s) (hms : ∀ m ∈ ms, MicroGood s.cfg m) : Live (runOps ms s) := by
  induction ms generalizing s with
  | nil =>
    obtain ⟨hc, hf, hr, hp, hp', ho, hks, hq, _⟩ := h
    exact ⟨hc, hf, hr, hp, hp', ho, hks, hq, by simp [complete]⟩
  | cons m ms ih =>
    have h1 := h.doMicro (hms m (List.mem_cons_self ..))
    have hcfg := (doMicro_frame m s).1
    have hms' : ∀ x ∈ ms, MicroGood (Machine.doMicro m s).2.cfg x := fun x hx =>
      hcfg ▸ hms x (List.mem_cons_of_mem _ hx)
    simp only [Machine.runOps, h1.2.1]
    cases hl : (Machine.doMicro m s).1 with
    | nil => exact ih h1 hms'
    | cons b bs =>
      obtain ⟨hc, hf, hr, hp, hp', ho, hks, hq, _⟩ := h1
      refine ⟨hc, hf, hr, hp, hp', ho, hks, hq, fun x hx => ?_⟩
      rcases List.mem_cons.1 hx with rfl | hx
      · trivial
      · exact hms' x hx

/-- The body of a command in a live state does not fault, so nothing of it is taken back. -/
theorem Live.orFault_runOps {t : State} {ms : List Micro} (h : Live s) (hms : ∀ m ∈ ms, MicroGood s.cfg m) :
    t.orFault (Machine.runOps ms s) = Machine.runOps ms s :=
  orFault_of_ok (h.runOps hms).2.1

/-- A body leaves these fields as they are. -/
theorem runOps_frame (ms : List Micro) (s : State) :
    (runOps ms s).cfg = s.cfg ∧ (runOps ms s).refused = s.refused ∧ (runOps ms s).running = s.running
      ∧ (runOps ms s).port = s.port ∧ (runOps ms s).seq.phase = s.seq.phase := by
  induction ms generalizing s with
  | nil => simp [complete]
  | cons m ms ih =>
    obtain ⟨h1, h2, h3, _, h5, _, h7⟩ := doMicro_frame m s
    simp only [runOps]
    split_ifs
    · exact ⟨h1, h2, h3, h5, h7⟩
    · split
      · obtain ⟨i1, i2, i3, i4, i5⟩ := ih (doMicro m s).2
        exact ⟨i1.trans h1, i2.trans h2, i3.trans h3, i4.trans h5, i5.trans h7⟩
      · exact ⟨h1, h2, h3, h5, h7⟩

/-- The body of SCAN_BANK names only keys of its bank. -/
theorem scanBankBody_good {c : Cfg} {b : Nat} (hb : b < c.numBanks) : ∀ m ∈ scanBankBody b, MicroGood c m := by
  intro m hm
  have hbegin : ∀ x ∈ (if b = 0 then [Micro.beginPass] else []), MicroGood c x := by
    intro x hx
    split_ifs at hx <;> simp at hx
    subst hx
    trivial
  simp only [scanBankBody, List.cons_append, List.mem_cons, List.mem_append, List.mem_map, List.mem_range,
    List.not_mem_nil, or_false, or_assoc] at hm
  rcases hm with rfl | hm | rfl | ⟨a, ha, rfl⟩ | rfl | rfl | rfl | ⟨a, ha, rfl⟩ | rfl | rfl
  · exact hb
  · exact hbegin m hm
  all_goals trivial

/-- The body of SCAN_PASS names only banks that exist. -/
theorem scanPassBody_good (c : Cfg) : ∀ m ∈ scanPassBody c, MicroGood c m := by
  intro m hm
  simp only [scanPassBody, List.mem_flatMap, List.mem_range] at hm
  obtain ⟨b, hb, h⟩ := hm
  exact scanBankBody_good hb m h

/-- A command that answers a next state was accepted. -/
theorem accept_next {t : State} {f : State → Host.Outcome State Fault Refusal} (h : accept s f = .next t) :
    s.fault = false ∧ s.busy = [] ∧ s.seq.phase ≠ .init ∧ s.refused = false ∧ s.running = false ∧ f s = .next t := by
  unfold accept at h
  split_ifs at h
  simp_all

/-- A command the port accepts runs its meaning. -/
theorem accept_of_open (h : PortOpen s) (f : State → Host.Outcome State Fault Refusal) : accept s f = f s := by
  obtain ⟨h1, h2, h3, h4, h5⟩ := h
  simp [accept, h1, h2, h3, h4, h5]

/-- A command on a key that answers a next state had a key in range. -/
theorem withKey_next {t : State} {k : Byte} {f : State → Host.Outcome State Fault Refusal}
    (h : withKey k f s = .next t) : k.toNat < s.cfg.numKeys ∧ f s = .next t := by
  unfold withKey at h
  split_ifs at h with h1
  exact ⟨by simpa [keyInRange] using h1, h⟩

/-- Running two bodies in a row is running the first and, if it ends without a wait or a fault, the second. -/
theorem runOps_append {ms ns : List Micro} (h : (runOps ms s).busy = []) (hf : (runOps ms s).fault = false) :
    ∃ u, runOps ms s = complete u ∧ runOps (ms ++ ns) s = runOps ns u := by
  induction ms generalizing s with
  | nil => exact ⟨s, rfl, rfl⟩
  | cons m ms ih =>
    cases hd : doMicro m s with
    | mk left s1 =>
      cases hf1 : s1.fault with
      | true => rw [runOps_cons_fault hd hf1] at hf; simp [hf1] at hf
      | false =>
        cases left with
        | nil =>
          rw [runOps_cons_done hd hf1] at h hf ⊢
          rw [List.cons_append, runOps_cons_done hd hf1]
          exact ih h hf
        | cons b bs => rw [runOps_cons_wait hd hf1] at h; simp at h

end Sys2Proof.Machine
end

