-- ==== Sys2Proof/Laws/PerInstr.lean ====
section
/-! SUPPORT. Each constructor against its row of spec/opcode_table.json: the bits its encoding fixes are the row's
`match` under the row's `mask`. -/

namespace Sys2Proof.Laws

/-- A row of the opcode table: how many bits, which of them are fixed, and their values. -/
structure Row where
  nbits : Nat
  mask : BitVec 24
  fixed : BitVec 24
  deriving DecidableEq, Repr

/-- A row of format OP8, all of whose bits are fixed (spec/30_encoding.md R115). -/
def opRow (opsel : BitVec 24) : Row := { nbits := 8, mask := 0xFF, fixed := opsel }

/-- The table's row of an instruction. -/
def rowOf : Instr → Row
  | .srBeginPass => opRow 0x01
  | .srStep => opRow 0x02
  | .snapRead _ => opRow 0x03
  | .scanBank _ => opRow 0x04
  | .elapsed _ _ => opRow 0x10
  | .ksmStart _ _ _ => opRow 0x11
  | .ksmEnd _ _ _ => opRow 0x12
  | .velmap _ => opRow 0x20
  | .notenum _ => opRow 0x30
  | .encOn _ _ => opRow 0x31
  | .encOff _ => opRow 0x32
  | .emitHit _ _ => opRow 0x33
  | .emitRel _ => opRow 0x34
  | .rbIsEmpty => opRow 0x40
  | .rbIsFull => opRow 0x41
  | .rbTryPop => opRow 0x42
  | .rbDrain => opRow 0x43
  | .rbPush _ => opRow 0x44
  | .scanPass => opRow 0x50
  | .loopIter => opRow 0x51
  | .run => opRow 0x52
  | .init => opRow 0xF0
  | .midiNoteOn _ _ _ => { nbits := 24, mask := 0xF08080, fixed := 0x900000 }
  | .midiNoteOff _ _ => { nbits := 24, mask := 0xF080FF, fixed := 0x800000 }

/-- The bits the table numbers, of a unit of bits: OPSEL, or the three bytes with the first at bits 23..16. -/
def tableBits : Wire → Nat × BitVec 24
  | .op8 p => (8, p.opsel.setWidth 24)
  | .midi3 status note velocity => (24, status ++ note ++ velocity)

/-- A well-formed instruction's encoding has its row's length and fixed bits. -/
def TableMatch.Statement (i : Instr) : Prop :=
  i.wf = true → (tableBits (encode i)).1 = (rowOf i).nbits ∧
    (tableBits (encode i)).2 &&& (rowOf i).mask = (rowOf i).fixed

/-- An OP8 encoding whose OPSEL is the row's. -/
theorem matches_op {i : Instr} {p : Ports} (he : encode i = .op8 p) (hr : rowOf i = opRow (p.opsel.setWidth 24)) :
    TableMatch.Statement i := fun _ => by
  refine ⟨by rw [he, hr]; rfl, ?_⟩
  rw [he, hr]
  exact (by decide : ∀ x : Byte, x.setWidth 24 &&& (0xFF : BitVec 24) = x.setWidth 24) p.opsel

/-- The fixed bits of three bytes are those of each byte. -/
theorem message_and (a b c x y z : Byte) : (a ++ b ++ c) &&& (x ++ y ++ z) = (a &&& x) ++ (b &&& y) ++ (c &&& z) := by
  rw [BitVec.and_append, BitVec.and_append]

theorem TableMatch.srBeginPass : TableMatch.Statement (.srBeginPass) := matches_op rfl rfl

theorem TableMatch.srStep : TableMatch.Statement (.srStep) := matches_op rfl rfl

theorem TableMatch.snapRead (w : Line) : TableMatch.Statement (.snapRead w) := matches_op rfl rfl

theorem TableMatch.scanBank (bk : Byte) : TableMatch.Statement (.scanBank bk) := matches_op rfl rfl

theorem TableMatch.elapsed (t0 t1 : U32) : TableMatch.Statement (.elapsed t0 t1) := matches_op rfl rfl

theorem TableMatch.ksmStart (k : Byte) (d : Bool) (t0 : U32) : TableMatch.Statement (.ksmStart k d t0) := matches_op rfl rfl

theorem TableMatch.ksmEnd (k : Byte) (d : Bool) (t0 : U32) : TableMatch.Statement (.ksmEnd k d t0) := matches_op rfl rfl

theorem TableMatch.velmap (t0 : U32) : TableMatch.Statement (.velmap t0) := matches_op rfl rfl

theorem TableMatch.notenum (k : Byte) : TableMatch.Statement (.notenum k) := matches_op rfl rfl

theorem TableMatch.encOn (k v : Byte) : TableMatch.Statement (.encOn k v) := matches_op rfl rfl

theorem TableMatch.encOff (k : Byte) : TableMatch.Statement (.encOff k) := matches_op rfl rfl

theorem TableMatch.emitHit (k : Byte) (t0 : U32) : TableMatch.Statement (.emitHit k t0) := matches_op rfl rfl

theorem TableMatch.emitRel (k : Byte) : TableMatch.Statement (.emitRel k) := matches_op rfl rfl

theorem TableMatch.rbIsEmpty : TableMatch.Statement (.rbIsEmpty) := matches_op rfl rfl

theorem TableMatch.rbIsFull : TableMatch.Statement (.rbIsFull) := matches_op rfl rfl

theorem TableMatch.rbTryPop : TableMatch.Statement (.rbTryPop) := matches_op rfl rfl

theorem TableMatch.rbDrain : TableMatch.Statement (.rbDrain) := matches_op rfl rfl

theorem TableMatch.rbPush (b : Byte) : TableMatch.Statement (.rbPush b) := matches_op rfl rfl

theorem TableMatch.scanPass : TableMatch.Statement (.scanPass) := matches_op rfl rfl

theorem TableMatch.loopIter : TableMatch.Statement (.loopIter) := matches_op rfl rfl

theorem TableMatch.run : TableMatch.Statement (.run) := matches_op rfl rfl

theorem TableMatch.init : TableMatch.Statement (.init) := matches_op rfl rfl

theorem TableMatch.midiNoteOn (c n v : Byte) : TableMatch.Statement (.midiNoteOn c n v) := by
  intro h
  simp only [Instr.wf, wfChannel, wfData, Bool.and_eq_true, decide_eq_true_eq] at h
  have hc := (by decide : ∀ x : Byte, x.toNat < 16 → (0x90 ||| x) &&& 0xF0 = 0x90) c h.1.1
  have hn := (by decide : ∀ x : Byte, x.toNat < 128 → x &&& 0x80 = 0) n h.1.2
  have hv := (by decide : ∀ x : Byte, x.toNat < 128 → x &&& 0x80 = 0) v h.2
  have key := message_and (0x90 ||| c) n v 0xF0 0x80 0x80
  rw [hc, hn, hv] at key
  exact ⟨rfl, key⟩

theorem TableMatch.midiNoteOff (c n : Byte) : TableMatch.Statement (.midiNoteOff c n) := by
  intro h
  simp only [Instr.wf, wfChannel, wfData, Bool.and_eq_true, decide_eq_true_eq] at h
  have hc := (by decide : ∀ x : Byte, x.toNat < 16 → (0x80 ||| x) &&& 0xF0 = 0x80) c h.1
  have hn := (by decide : ∀ x : Byte, x.toNat < 128 → x &&& 0x80 = 0) n h.2
  have key := message_and (0x80 ||| c) n 0 0xF0 0x80 0xFF
  rw [hc, hn] at key
  exact ⟨rfl, key⟩

end Sys2Proof.Laws
end

