-- ==== Sys2Proof/Tests/Slice0.lean ====
section
/-! SUPPORT. Tests. Expected values come from spec/95_test_vectors.md (named by section in each comment) or from the
encoding tables of spec/30_encoding.md. Then, for each statement of Sys2Proof/Certificates/Slice0/Obligations.lean that
has hypotheses, a state and operands that meet them. -/

open Sys2Proof Sys2Proof.Machine

namespace Sys2Proof.Tests

/-! ## Well-formedness: each check refuses an ill-formed term -/

theorem test_wf_channel_on : (Instr.midiNoteOn 16 0 0).wf = false := by decide
theorem test_wf_note_on : (Instr.midiNoteOn 0 128 0).wf = false := by decide
theorem test_wf_velocity_on : (Instr.midiNoteOn 0 0 128).wf = false := by decide
theorem test_wf_channel_off : (Instr.midiNoteOff 16 0).wf = false := by decide
theorem test_wf_note_off : (Instr.midiNoteOff 0 128).wf = false := by decide

/-! ## Decoding: the words of R114, with a different value on each operand port, and of R106, R107 -/

/-- The operand ports of program P1 and P2 of 95, all driven at once: K = 5, BK = 1, D = 1, W = 1, T0 = 20000,
T1 = 0xFFFFFFF0, V = 99, BY = 0xEE. -/
def driven (opsel : Byte) : Wire := .op8 ⟨opsel, 5, 1, 1, 1, 20000, 0xFFFFFFF0, 99, 0xEE⟩

theorem test_decode_srBeginPass : decode (driven 0b00000001) = .ok .srBeginPass := by decide
theorem test_decode_srStep : decode (driven 0b00000010) = .ok .srStep := by decide
theorem test_decode_snapRead : decode (driven 0b00000011) = .ok (.snapRead .endLine) := by decide
theorem test_decode_scanBank : decode (driven 0b00000100) = .ok (.scanBank 1) := by decide
theorem test_decode_elapsed : decode (driven 0b00010000) = .ok (.elapsed 20000 0xFFFFFFF0) := by decide
theorem test_decode_ksmStart : decode (driven 0b00010001) = .ok (.ksmStart 5 true 20000) := by decide
theorem test_decode_ksmEnd : decode (driven 0b00010010) = .ok (.ksmEnd 5 true 20000) := by decide
theorem test_decode_velmap : decode (driven 0b00100000) = .ok (.velmap 20000) := by decide
theorem test_decode_notenum : decode (driven 0b00110000) = .ok (.notenum 5) := by decide
theorem test_decode_encOn : decode (driven 0b00110001) = .ok (.encOn 5 99) := by decide
theorem test_decode_encOff : decode (driven 0b00110010) = .ok (.encOff 5) := by decide
theorem test_decode_emitHit : decode (driven 0b00110011) = .ok (.emitHit 5 20000) := by decide
theorem test_decode_emitRel : decode (driven 0b00110100) = .ok (.emitRel 5) := by decide
theorem test_decode_rbIsEmpty : decode (driven 0b01000000) = .ok .rbIsEmpty := by decide
theorem test_decode_rbIsFull : decode (driven 0b01000001) = .ok .rbIsFull := by decide
theorem test_decode_rbTryPop : decode (driven 0b01000010) = .ok .rbTryPop := by decide
theorem test_decode_rbDrain : decode (driven 0b01000011) = .ok .rbDrain := by decide
theorem test_decode_rbPush : decode (driven 0b01000100) = .ok (.rbPush 0xEE) := by decide
theorem test_decode_scanPass : decode (driven 0b01010000) = .ok .scanPass := by decide
theorem test_decode_loopIter : decode (driven 0b01010001) = .ok .loopIter := by decide
theorem test_decode_run : decode (driven 0b01010010) = .ok .run := by decide
theorem test_decode_init : decode (driven 0b11110000) = .ok .init := by decide
theorem test_decode_snapRead_start : decode (.op8 (.ofOpsel 0b00000011)) = .ok (.snapRead .startLine) := by decide
theorem test_decode_midiNoteOn :
    decode (.midi3 0b10010101 0b00011010 0b01100011) = .ok (.midiNoteOn 0b0101 0b0011010 0b1100011) := by decide
theorem test_decode_midiNoteOff :
    decode (.midi3 0b10001111 0b00011010 0b00000000) = .ok (.midiNoteOff 0b1111 0b0011010) := by decide
theorem test_decode_table_midiNoteOn : decodeTableWord 24 0x951A63 = some (.midiNoteOn 5 0x1A 0x63) := by decide

/-! ## States -/

/-- D28 with another buffer capacity. -/
def capacity (n : Nat) : Cfg := { Cfg.atReset with rbCapacity := n }

/-- The state after a successful INIT (INIT's TRACE entries aside), with scripted answers. -/
def idle (c : Cfg) (masks : List Byte) (times : List U32) (readies : List Bool) : State :=
  { State.powerOn c with seq := Seq.initial, env := { masks, times, readies, draws := 0 } }

/-- After INIT with D28 and nothing scripted. -/
def s0 : State := idle Cfg.atReset [] [] []

/-- The same with one key's entry given. -/
def withKeyAt (k : Nat) (st : BitVec 2) (pt : U32) : State := s0.setKs (s0.ks.set k { st, pt })

/-- A buffer with indices as given and every slot of eight holding 0x10 + its index, as in program P2. -/
def ring (i o : Nat) : Orb :=
  { mem := [(0, 0x10), (1, 0x11), (2, 0x12), (3, 0x13), (4, 0x14), (5, 0x15), (6, 0x16), (7, 0x17)]
    inIdx := i, outIdx := o }

/-- After INIT with D28, that buffer, and scripted readiness. -/
def withRing (i o : Nat) (readies : List Bool) : State := (idle Cfg.atReset [] [] readies).setOrb (ring i o)

/-- The next state, where there is one. -/
def nextOf (x : Host.Outcome State Fault Refusal) : Option State :=
  match x with
  | .next t => some t
  | .fault _ => none
  | .refused _ => none

/-- The refusal, where there is one. -/
def refusalOf (x : Host.Outcome State Fault Refusal) : Option Refusal :=
  match x with
  | .next _ => none
  | .fault _ => none
  | .refused r => some r

/-- The fault, where there is one. -/
def faultOf (x : Host.Outcome State Fault Refusal) : Option Fault :=
  match x with
  | .next _ => none
  | .fault r => some r
  | .refused _ => none

/-- What an outcome shows of its next state. -/
def shows {α : Type} (f : State → α) (x : Host.Outcome State Fault Refusal) : Option α := (nextOf x).map f

/-! ## One step of each instruction -/

-- 95 §2.6
theorem test_srBeginPass : shows State.trace (exec .srBeginPass s0) = some
    [.write 0 0, .wait 0, .write 0 1, .wait 0, .write 1 1, .write 2 1, .wait 0, .write 2 0, .wait 0, .write 1 0,
      .write 3 1, .wait 0, .write 3 0, .wait 0] := by decide
theorem test_srStep : shows State.trace (exec .srStep s0) = some [.write 2 1, .wait 0, .write 2 0, .wait 0] := by decide
theorem test_snapRead_start : shows (fun t => (t.seq.sb, t.seq.st, t.seq.eb, t.trace))
    (exec (.snapRead .startLine) (idle Cfg.atReset [0x20] [1000] []))
      = some (0x20, 1000, 0, [.mask 0x20, .time 1000]) := by decide
theorem test_snapRead_end : shows (fun t => (t.seq.sb, t.seq.eb, t.seq.et))
    (exec (.snapRead .endLine) (idle Cfg.atReset [0x81] [0xFFFFFFFF] [])) = some (0, 0x81, 0xFFFFFFFF) := by decide
theorem test_scanBank : shows (fun t => (t.ks[5]?, t.trace.length))
    (exec (.scanBank 0) (idle Cfg.atReset [0x20, 0] [1000, 1010] [])) = some (some ⟨1, 1000⟩, 26) := by decide
theorem test_scanBank_range : refusalOf (exec (.scanBank 2) s0) = some (.operandRange .bk) := by decide
-- 95 §2.1
theorem test_elapsed_wraps : shows State.res (exec (.elapsed 5 0xFFFFFFF0) s0) = some (.u32 21) := by decide
theorem test_elapsed_largest : shows State.res (exec (.elapsed 0xFFFFFFFE 0xFFFFFFFF) s0)
    = some (.u32 0xFFFFFFFF) := by decide
-- 95 §2.2
theorem test_ksmStart_debounce : shows (fun t => t.ks[0]?)
    (exec (.ksmStart 0 false 0x389) (withKeyAt 0 1 0xFFFFF000)) = some (some ⟨0, 0xFFFFF000⟩) := by decide
theorem test_ksmStart_release : shows (fun t => (t.ks[5]?, outstanding t))
    (exec (.ksmStart 5 false 30000) (withKeyAt 5 2 1000)) = some (some ⟨0, 1000⟩, [0x80, 0x1A, 0x00]) := by decide
theorem test_ksmEnd_hit : shows (fun t => (t.ks[15]?, outstanding t))
    (exec (.ksmEnd 15 true 1000) (withKeyAt 15 1 1000)) = some (some ⟨2, 1000⟩, [0x90, 0x24, 0x7F]) := by decide
theorem test_ksmEnd_inconsistent : shows (fun t => (t.ks[5]?, t.trace))
    (exec (.ksmEnd 5 true 1000) s0) = some (some ⟨0, 0⟩, [.diag 1 5]) := by decide
-- 95 §2.3
theorem test_velmap_half_up : shows State.res (exec (.velmap 9325) s0) = some (.u8 117) := by decide
theorem test_velmap_negative : velocityRaw Cfg.atReset 4294967295 = -7018881 := by decide
-- 95 §2.4
theorem test_notenum : shows State.res (exec (.notenum 15) s0) = some (.u8 36) := by decide
theorem test_encOn : shows State.res
    (exec (.encOn 5 99) (idle { Cfg.atReset with midiChannel := 9 } [] [] [])) = some (.msg ⟨0x99, 0x1A, 0x63⟩) := by
  decide
theorem test_encOn_range : refusalOf (exec (.encOn 5 128) s0) = some (.operandRange .v) := by decide
theorem test_encOff : shows State.res
    (exec (.encOff 5) (idle { Cfg.atReset with midiChannel := 15 } [] [] [])) = some (.msg ⟨0x8F, 0x1A, 0x00⟩) := by
  decide
theorem test_encOff_range : refusalOf (exec (.encOff 16) s0) = some (.operandRange .k) := by decide
theorem test_emitHit : shows (fun t => t.orb) (exec (.emitHit 5 20000) s0)
    = some ⟨[(0, 0x90), (1, 0x1A), (2, 0x63)], 3, 0⟩ := by decide
theorem test_emitRel : shows (fun t => (t.orb.inIdx, outstanding t)) (exec (.emitRel 5) (withRing 3 0 []))
    = some (6, [0x10, 0x11, 0x12, 0x80, 0x1A, 0x00]) := by decide
-- 95 §2.5
theorem test_rbIsEmpty : shows State.res (exec .rbIsEmpty (withRing 3 3 [])) = some (.bool true) := by decide
theorem test_rbIsFull : shows State.res (exec .rbIsFull (withRing 0 1 [])) = some (.bool true) := by decide
theorem test_rbTryPop_wraps : shows (fun t => (t.res, t.orb.outIdx)) (exec .rbTryPop (withRing 0 7 []))
    = some (.optU8 (some 0x17), 0) := by decide
theorem test_rbTryPop_empty : shows State.res (exec .rbTryPop s0) = some (.optU8 none) := by decide
theorem test_rbDrain_ready : shows (fun t => (t.res, t.orb.outIdx, t.trace)) (exec .rbDrain (withRing 3 0 [true]))
    = some (.bool true, 1, [.ready true, .tx 0x10]) := by decide
theorem test_rbDrain_not_ready : shows (fun t => (t.res, t.orb.outIdx, t.trace)) (exec .rbDrain (withRing 3 0 [false]))
    = some (.bool false, 0, [.ready false]) := by decide
theorem test_rbPush_room : shows (fun t => (t.orb.inIdx, t.trace)) (exec (.rbPush 0xEE) (withRing 6 0 []))
    = some (7, []) := by decide
theorem test_rbPush_full : shows (fun t => (t.orb.inIdx, t.orb.outIdx, t.trace, t.busy))
    (exec (.rbPush 0xEE) (withRing 7 0 [true])) = some (7, 1, [.ready true, .tx 0x10], [.push [0xEE]]) := by decide
-- 95 §3, P3, iteration 1
theorem test_scanPass : shows (fun t => (t.trace.length, t.seq.bank))
    (exec .scanPass (idle Cfg.atReset [0x20, 0, 0, 0] [1000, 1010, 1020, 1030] [])) = some (38, 1) := by decide
theorem test_loopIter : shows (fun t => (t.ks[5]?, t.trace.length))
    (exec .loopIter (idle Cfg.atReset [0x20, 0, 0, 0] [1000, 1010, 1020, 1030] [])) = some (some ⟨1, 1000⟩, 38) := by
  decide
theorem test_run : shows (fun t => (t.running, t.seq.phase)) (exec .run s0) = some (true, .iterDrain) := by decide
-- 95 §2.8
theorem test_init : shows (fun t => (t.trace.length, t.seq.phase)) (exec .init State.reset) = some (16, .iterDrain) := by
  decide
theorem test_init_refused : shows (fun t => (t.trace, t.refused, t.seq.phase))
    (exec .init (State.powerOn { Cfg.atReset with numBanks := 0, rbCapacity := 1 }))
      = some ([.refused 0x10], true, .refused) := by decide
-- R299, R320: a command offered after RUN does not hold the sequencer back (log 19)
theorem test_step_after_run : shows (fun t => t.seq.phase)
    (step { s0 with running := true, port := [driven 0x43] }) = some .passBegin := by decide
theorem test_midiNoteOn : refusalOf (exec (.midiNoteOn 0 26 99) s0) = some .noMidiInput := by decide
theorem test_midiNoteOff : refusalOf (exec (.midiNoteOff 0 26) s0) = some .noMidiInput := by decide

/-! ## Witnesses: the hypotheses of each statement can be met -/

/-- `Live`, from its decidable parts, where no operation is in progress. -/
theorem live_of {s : State} (hb : s.busy = []) (h : ConfigOk s.cfg ∧ s.fault = false ∧ s.refused = false
    ∧ s.seq.phase ≠ .init ∧ s.seq.phase ≠ .refused ∧ OrbGood s.cfg.rbCapacity s.orb ∧ KsGood s.cfg s.ks
    ∧ SeqGood s.cfg s.seq) : Live s := by
  obtain ⟨h1, h2, h3, h4, h5, h6, h7, h8⟩ := h
  exact ⟨h1, h2, h3, h4, h5, h6, h7, h8, by simp [hb]⟩

/-- An outcome that is a next state, by name. -/
theorem next_of {x : Host.Outcome State Fault Refusal} (h : (nextOf x).isSome = true) : ∃ t, x = .next t := by
  cases x with
  | next t => exact ⟨t, rfl⟩
  | fault r => simp [nextOf] at h
  | refused r => simp [nextOf] at h

/-- The sequencer running, in a phase, with its other registers given. -/
def seqAt (phase : Phase) (bank pos : Nat) : State :=
  { idle Cfg.atReset [0x81] [0xFFFFFFFF] [true] with
    running := true
    seq := { Seq.initial with bank := bank, pos := pos, phase := phase } }

/-- The sequencer waiting with a Note On to push. -/
def seqPushing (n i o : Nat) : State :=
  (seqAt .push 0 6).setSeq { (seqAt .push 0 6).seq with msg := ⟨0x90, 0x1A, 0x63⟩, msgN := n } |>.setOrb (ring i o)

theorem witness_DecodeEncodeAgree :
    (Instr.midiNoteOn 15 127 127).wf = true ∧ (Instr.midiNoteOff 15 127).wf = true ∧ (Instr.ksmEnd 255 true 0).wf = true := by decide
theorem witness_MessageBytesHaveOneReading :
    decode (.midi3 0x9F 0x7F 0x00) = .ok (.midiNoteOn 15 127 0) ∧
    decode (.midi3 0x80 0x00 0x00) = .ok (.midiNoteOff 0 0) := by decide
/-- The ends of the ranges of R118 (95 §2.8). -/
theorem witness_ReservedCodesAreRefused :
    ∀ c ∈ [0x00, 0x05, 0x0F, 0x13, 0x1F, 0x21, 0x2F, 0x35, 0x3F, 0x45, 0x4F, 0x53, 0xEF, 0xF1, 0xFF],
      refusalOf (step { s0 with port := [.op8 (.ofOpsel c)] }) = some .reservedOpcode := by decide
theorem witness_StepRunsTheDecodedCommand :
    (s0.fault = false ∧ s0.busy = [] ∧ s0.running = false ∧ ({ s0 with port := [driven 0x30] } : State).port = driven 0x30 :: [] ∧
      decode (driven 0x30) = .ok (.notenum 5)) ∧ decodeTableWord 8 0x43 = some .rbDrain := by decide
theorem witness_EncodedEventsAreMidiMessages :
    ConfigOk Cfg.atReset ∧ 0 < Cfg.atReset.numKeys ∧ 15 < Cfg.atReset.numKeys := by decide
/-- For the clauses 'every port value with this OPSEL decodes to …'. -/
theorem witness_opsel_hypotheses :
    ∀ x : Byte, (Ports.ofOpsel x).opsel = x := fun _ => rfl
/-- For SrBeginPass…, Elapsed…, RunStarts…, OutOfRange…, NoStepBetweenCommands. -/
theorem witness_PortOpen :
    PortOpen s0 ∧ s0.port = [] := by decide
theorem witness_SrStepMovesTheStimulus :
    (PortOpen s0 ∧ s0.cfg.latchRequired = false) ∧
    PortOpen (idle { Cfg.atReset with latchRequired := true } [] [] []) ∧
    (idle { Cfg.atReset with latchRequired := true } [] [] []).cfg.latchRequired = true := by decide
theorem witness_SnapReadFillsItsHalf :
    PortOpen (idle Cfg.atReset [0x81] [0xFFFFFFFF] []) ∧
    (idle Cfg.atReset [0x81] [0xFFFFFFFF] []).env.drawMask = (0x81, ⟨[], [0xFFFFFFFF], [], 1⟩) ∧
    Env.drawTime ⟨[], [0xFFFFFFFF], [], 1⟩ = (0xFFFFFFFF, ⟨[], [], [], 2⟩) := by decide

/-- A state with room for the events of two banks, and four reads scripted. -/
def roomy : State := idle (capacity 128) [0x20, 0x20, 0x81, 0x00] [20990, 21000, 21010, 21020] []

theorem live_roomy : Live roomy := live_of rfl (by decide)

theorem witness_ScanBankRunsThePerBankProtocol :
    PortOpen roomy ∧ Live roomy ∧ (0 : Byte).toNat < roomy.cfg.numBanks ∧ (1 : Byte).toNat < roomy.cfg.numBanks ∧
    roomy.orb.count roomy.cfg.rbCapacity + 48 < roomy.cfg.rbCapacity ∧
    roomy.env.drawMask = (0x20, ⟨[0x20, 0x81, 0x00], [20990, 21000, 21010, 21020], [], 1⟩) ∧
    Env.drawTime ⟨[0x20, 0x81, 0x00], [20990, 21000, 21010, 21020], [], 1⟩
      = (20990, ⟨[0x20, 0x81, 0x00], [21000, 21010, 21020], [], 2⟩) ∧
    Env.drawMask ⟨[0x20, 0x81, 0x00], [21000, 21010, 21020], [], 2⟩
      = (0x20, ⟨[0x81, 0x00], [21000, 21010, 21020], [], 3⟩) ∧
    Env.drawTime ⟨[0x81, 0x00], [21000, 21010, 21020], [], 3⟩ = (21000, ⟨[0x81, 0x00], [21010, 21020], [], 4⟩) := 
  ⟨by decide, live_roomy, by decide⟩
/-- Also for LoopIterDrainsThenScans. -/
theorem witness_ScanPassScansEveryBank :
    PortOpen roomy ∧ Live roomy ∧
    roomy.orb.count roomy.cfg.rbCapacity + 48 * roomy.cfg.numBanks < roomy.cfg.rbCapacity := ⟨by decide, live_roomy, by decide⟩

/-- Every mask of a pass reads 0x00. -/
def quiet : State := idle Cfg.atReset [0, 0, 0, 0, 0x20] [] []

theorem witness_QuietScanPassChangesNoKey :
    PortOpen quiet ∧ Live quiet ∧ (∀ e ∈ quiet.ks, e.st = 0) ∧
    quiet.env.masks = List.replicate (2 * quiet.cfg.numBanks) 0 ++ [0x20] := 
  ⟨by decide, live_of rfl (by decide), by decide⟩
theorem witness_KsmStartRecordsThePress :
    PortOpen (withKeyAt 15 0 0) ∧ (15 : Byte).toNat < (withKeyAt 15 0 0).cfg.numKeys ∧
    (withKeyAt 15 0 0).ks[(15 : Byte).toNat]? = some ⟨0, 0⟩ := by decide
theorem witness_KsmStartRejectsABounce :
    PortOpen (withKeyAt 0 1 0xFFFFF000) ∧ (0 : Byte).toNat < (withKeyAt 0 1 0xFFFFF000).cfg.numKeys ∧
    (withKeyAt 0 1 0xFFFFF000).ks[(0 : Byte).toNat]? = some ⟨1, 0xFFFFF000⟩ ∧
    (((0x389 : U32) - 0xFFFFF000).toNat : Int) > Cfg.atReset.debounceUs := by decide
theorem witness_KsmStartReleases :
    PortOpen (withKeyAt 15 2 1000) ∧ Live (withKeyAt 15 2 1000) ∧ (15 : Byte).toNat < (withKeyAt 15 2 1000).cfg.numKeys ∧
    (withKeyAt 15 2 1000).ks[(15 : Byte).toNat]? = some ⟨2, 1000⟩ ∧
    (withKeyAt 15 2 1000).orb.count (withKeyAt 15 2 1000).cfg.rbCapacity + 3 < (withKeyAt 15 2 1000).cfg.rbCapacity := 
  ⟨by decide, live_of rfl (by decide), by decide⟩
theorem witness_KsmStartKeepsTheRest_idle :
    PortOpen (withKeyAt 0 0 0) ∧ (0 : Byte).toNat < (withKeyAt 0 0 0).cfg.numKeys ∧
    (withKeyAt 0 0 0).ks[(0 : Byte).toNat]? = some ⟨0, 0⟩ := by decide
theorem witness_KsmStartKeepsTheRest_started :
    PortOpen (withKeyAt 15 1 1000) ∧ (15 : Byte).toNat < (withKeyAt 15 1 1000).cfg.numKeys ∧
    (withKeyAt 15 1 1000).ks[(15 : Byte).toNat]? = some ⟨1, 1000⟩ ∧
    (((6000 : U32) - 1000).toNat : Int) ≤ Cfg.atReset.debounceUs := by decide
theorem witness_KsmStartKeepsTheRest_hit :
    PortOpen (withKeyAt 15 2 1000) ∧ (15 : Byte).toNat < (withKeyAt 15 2 1000).cfg.numKeys ∧
    (withKeyAt 15 2 1000).ks[(15 : Byte).toNat]? = some ⟨2, 1000⟩ := by decide
theorem witness_KsmEndHits :
    PortOpen (withKeyAt 0 1 1000) ∧ Live (withKeyAt 0 1 1000) ∧ (0 : Byte).toNat < (withKeyAt 0 1 1000).cfg.numKeys ∧
    (withKeyAt 0 1 1000).ks[(0 : Byte).toNat]? = some ⟨1, 1000⟩ ∧
    (withKeyAt 0 1 1000).orb.count (withKeyAt 0 1 1000).cfg.rbCapacity + 3 < (withKeyAt 0 1 1000).cfg.rbCapacity := 
  ⟨by decide, live_of rfl (by decide), by decide⟩
theorem witness_KsmEndReportsTheInconsistency :
    PortOpen (withKeyAt 15 0 0) ∧ (15 : Byte).toNat < (withKeyAt 15 0 0).cfg.numKeys ∧
    (withKeyAt 15 0 0).ks[(15 : Byte).toNat]? = some ⟨0, 0⟩ := by decide
theorem witness_KsmEndKeepsTheRest :
    PortOpen (withKeyAt 15 2 1000) ∧ (15 : Byte).toNat < (withKeyAt 15 2 1000).cfg.numKeys ∧
    (withKeyAt 15 2 1000).ks[(15 : Byte).toNat]? = some ⟨2, 1000⟩ := by decide
theorem witness_KsmEndKeepsTheRest_idle :
    PortOpen (withKeyAt 0 0 7) ∧ (0 : Byte).toNat < (withKeyAt 0 0 7).cfg.numKeys ∧
    (withKeyAt 0 0 7).ks[(0 : Byte).toNat]? = some ⟨0, 7⟩ := by decide
theorem witness_KsmEndKeepsTheRest_started :
    PortOpen (withKeyAt 0 1 7) ∧ (0 : Byte).toNat < (withKeyAt 0 1 7).cfg.numKeys ∧
    (withKeyAt 0 1 7).ks[(0 : Byte).toNat]? = some ⟨1, 7⟩ := by decide
theorem witness_IllegalKeyCodeFaults :
    PortOpen (withKeyAt 15 3 0) ∧ (15 : Byte).toNat < (withKeyAt 15 3 0).cfg.numKeys ∧
    (withKeyAt 15 3 0).ks[(15 : Byte).toNat]? = some ⟨3, 0⟩ := by decide
theorem witness_IllegalKeyCodeFaults_sequencer :
    ∀ p ∈ [Phase.startEval, Phase.endEval],
    let s := (seqAt p 1 7).setKs (s0.ks.set 15 ⟨3, 0⟩)
    s.seq.phase = p ∧ s.seq.pos < 8 ∧ s.seq.bank < s.cfg.numBanks ∧ s.ks[s.seq.bank * 8 + s.seq.pos]? = some ⟨3, 0⟩ := by decide
theorem witness_EventsFollowTheCycle :
    transition Cfg.atReset .endLine ⟨1, 1000⟩ true 21000 = .hit ⟨2, 1000⟩ 20000 ∧
    transition Cfg.atReset .startLine ⟨2, 1000⟩ false 30000 = .release ⟨0, 1000⟩ ∧
    (entryAfter Cfg.atReset .startLine ⟨2, 1000⟩ true 0).st = 2 ∧
    (entryAfter Cfg.atReset .startLine ⟨2, 1000⟩ false 0).st ≠ 2 := by decide
/-- Also for NotenumAddsTheOffset, EncOnBuildsNoteOn, EncOffBuildsNoteOff with the keys below. -/
theorem witness_VelmapIsTheIntegerFormula :
    PortOpen s0 ∧ ConfigOk s0.cfg := by decide
theorem witness_VelmapRoundsHalfUp :
    velocityOf Cfg.atReset 9325 = some 117 ∧ velocityOf Cfg.atReset 4294967295 = some 1 := by decide
theorem witness_VelmapLaws :
    ConfigOk Cfg.atReset ∧ velocityOf Cfg.atReset 0 = some 127 ∧ velocityOf Cfg.atReset 80001 = some 1 ∧
    (0 : U32).toNat ≤ (80001 : U32).toNat := by decide
theorem witness_EncOnBuildsNoteOn :
    (0 : Byte).toNat < s0.cfg.numKeys ∧ (15 : Byte).toNat < s0.cfg.numKeys ∧
    (127 : Byte).toNat ≤ 127 ∧ 127 < (128 : Byte).toNat := by decide
/-- Also for EmitRelPushesNoteOff. -/
theorem witness_EmitHitPushesNoteOn :
    PortOpen (withRing 4 0 []) ∧ Live (withRing 4 0 []) ∧ (15 : Byte).toNat < (withRing 4 0 []).cfg.numKeys ∧
    (withRing 4 0 []).orb.count (withRing 4 0 []).cfg.rbCapacity + 3 < (withRing 4 0 []).cfg.rbCapacity := 
  ⟨by decide, live_of rfl (by decide), by decide⟩
theorem witness_RbFlagsReportEmptyAndFull :
    PortOpen (withRing 7 0 []) ∧ (withRing 7 0 []).orb.inIdx < (withRing 7 0 []).cfg.rbCapacity ∧ (withRing 7 0 []).orb.outIdx < (withRing 7 0 []).cfg.rbCapacity := by decide
theorem witness_CountEmptyAndFullAgree :
    1 < 2 ∧ (⟨[], 1, 0⟩ : Orb).inIdx < 2 ∧ (⟨[], 1, 0⟩ : Orb).outIdx < 2 := by decide
theorem witness_TryPopReturnsTheOldestByte :
    (PortOpen s0 ∧ Live s0 ∧ s0.orb.inIdx = s0.orb.outIdx) ∧
    PortOpen (withRing 0 7 []) ∧ Live (withRing 0 7 []) ∧ (withRing 0 7 []).orb.inIdx ≠ (withRing 0 7 []).orb.outIdx := 
  ⟨⟨by decide, live_of rfl (by decide), by decide⟩, by decide, live_of rfl (by decide), by decide⟩
theorem witness_DrainSendsAtMostOneByte :
    ∀ r : Bool, PortOpen (withRing 3 0 [r]) ∧ Live (withRing 3 0 [r]) ∧
    (withRing 3 0 [r]).env.drawReady = (r, ⟨[], [], [], 1⟩) ∧
    (withRing 3 0 [r]).orb.inIdx ≠ (withRing 3 0 [r]).orb.outIdx := 
  fun r => by cases r <;> exact ⟨by decide, live_of rfl (by decide), by decide⟩
theorem witness_DrainSendsAtMostOneByte_empty :
    PortOpen s0 ∧ Live s0 ∧ s0.env.drawReady = (Config.freeReady 0, ⟨[], [], [], 1⟩) ∧ s0.orb.inIdx = s0.orb.outIdx := 
  ⟨by decide, live_of rfl (by decide), rfl, rfl⟩
theorem witness_PushWritesTheNextSlot :
    PortOpen (withRing 6 0 []) ∧ Live (withRing 6 0 []) ∧ ((withRing 6 0 []).orb.inIdx + 1) % (withRing 6 0 []).cfg.rbCapacity ≠ (withRing 6 0 []).orb.outIdx := 
  ⟨by decide, live_of rfl (by decide), by decide⟩
theorem witness_PushOnFullDrainsOneByteFirst :
    PortOpen (withRing 0 1 [true]) ∧ Live (withRing 0 1 [true]) ∧ ((withRing 0 1 [true]).orb.inIdx + 1) % (withRing 0 1 [true]).cfg.rbCapacity = (withRing 0 1 [true]).orb.outIdx ∧
    (withRing 0 1 [true]).env.drawReady = (true, ⟨[], [], [], 1⟩) := 
  ⟨by decide, live_of rfl (by decide), by decide⟩
theorem witness_PushWaitsWithoutEnd :
    PortOpen (withRing 7 0 [false, false, true]) ∧ Live (withRing 7 0 [false, false, true]) ∧ ((withRing 7 0 [false, false, true]).orb.inIdx + 1) % (withRing 7 0 [false, false, true]).cfg.rbCapacity = (withRing 7 0 [false, false, true]).orb.outIdx ∧
    (withRing 7 0 [false, false, true]).env.readies = List.replicate (1 + 1) false ++ [true] := 
  ⟨by decide, live_of rfl (by decide), by decide⟩
theorem witness_RunStartsTheSequencer :
    let s := { seqAt .iterDrain 0 0 with port := [driven 0x43] };
    s.fault = false ∧ s.busy = [] ∧ s.port ≠ [] ∧ s.running = true := by decide
theorem witness_InitWritesTheInitialState :
    BeforeInit State.reset ∧ ConfigOk State.reset.cfg ∧ State.reset.port = [] := by decide

/-- One configuration for each check of R325, in order. -/
def refusedCfgs : List Cfg :=
  [ { Cfg.atReset with numBanks := 0 }, { Cfg.atReset with keysPerBank := 7 }, { Cfg.atReset with noteOffset := 113 },
    { Cfg.atReset with rbCapacity := 1 }, { Cfg.atReset with minKeyTimeUs := 5000, maxKeyTimeUs := 5000 },
    { Cfg.atReset with minVelocity := 0 }, { Cfg.atReset with midiChannel := 16 },
    { Cfg.atReset with debounceUs := 4294967296 }, { Cfg.atReset with pinLatch := 2 } ]

theorem witness_InitRefusesTheFirstFailingCheck :
    refusedCfgs.map refusalCode
      = [some 0x10, some 0x11, some 0x12, some 0x13, some 0x14, some 0x15, some 0x16, some 0x17, some 0x18] ∧
    refusalCode { Cfg.atReset with noteOffset := 112 } = none ∧
    ∀ c ∈ refusedCfgs, BeforeInit (State.powerOn c) ∧ (State.powerOn c).port = [] := 
  ⟨by decide, by decide, by decide⟩
theorem witness_LifecycleRefusesCommands :
    (State.reset.fault = false ∧ State.reset.busy = [] ∧ State.reset.seq.phase = .init) ∧
    (let s := { s0 with refused := true, seq := { s0.seq with phase := .refused } };
      s.fault = false ∧ s.busy = [] ∧ s.seq.phase ≠ .init ∧ s.refused = true) ∧
    (let s := seqAt .startRead 0 0;
      s.fault = false ∧ s.busy = [] ∧ s.seq.phase ≠ .init ∧ s.refused = false ∧ s.running = true) ∧ PortOpen s0 := by decide
theorem witness_OutOfRangeOperandsAreRefused :
    s0.cfg.numKeys ≤ (16 : Byte).toNat ∧ s0.cfg.numKeys ≤ (255 : Byte).toNat ∧ s0.cfg.numBanks ≤ (2 : Byte).toNat ∧
    (15 : Byte).toNat < s0.cfg.numKeys ∧ 127 < (128 : Byte).toNat := by decide
theorem witness_SequencerReadsAndSteps :
    let at_ := fun p b q => seqAt p b q
    (∀ p : Phase, p ≠ .init → p ≠ .refused → p ≠ .push → ∀ b ∈ [0, 1], ∀ q ∈ [0, 8], Live (at_ p b q)) ∧
    (at_ .endRead 0 0).env.drawMask = (0x81, ⟨[], [0xFFFFFFFF], [true], 1⟩) ∧
    Env.drawTime ⟨[], [0xFFFFFFFF], [true], 1⟩ = (0xFFFFFFFF, ⟨[], [], [true], 2⟩) ∧
    (at_ .startEval 0 8).seq.pos = 8 ∧ (at_ .stepToNext 0 8).seq.bank + 1 < Cfg.atReset.numBanks ∧
    (at_ .stepToNext 1 8).seq.bank + 1 = Cfg.atReset.numBanks := by
  refine ⟨fun p h1 h2 h3 b hb q hq => live_of rfl ?_, by decide, by decide, by decide, by decide, by decide⟩
  cases p <;> simp at h1 h2 h3 <;> fin_cases hb <;> fin_cases hq <;> decide

/-- A key with an event due at position 7 of bank 1: Hit with the contact open at a start read, Started with the contact
closed at an end read; and position 0 of bank 0 with none. -/
def evalAt (line : Line) (bank pos : Nat) : State :=
  match line with
  | .startLine => (seqAt .startEval bank pos).setKs (s0.ks.set 15 ⟨2, 1000⟩)
  | .endLine =>
    { (seqAt .endEval bank pos).setKs (s0.ks.set 15 ⟨1, 1000⟩) with
      seq := { (seqAt .endEval bank pos).seq with eb := 0x80, et := 21000 } }

theorem witness_SequencerEvaluatesOneKey :
    ∀ line : Line, Live (evalAt line 1 7) ∧ (evalAt line 1 7).seq.pos < 8 ∧ Live (evalAt line 0 0) ∧
    (evalAt line 1 7).seq.phase = (match line with | .startLine => .startEval | .endLine => .endEval) ∧
    shows (fun t => (t.seq.pos, t.seq.msgN, t.seq.phase)) (seqStep (evalAt line 1 7)) = some (8, 3, .push) ∧
    shows (fun t => (t.seq.pos, t.seq.msgN)) (seqStep (evalAt line 0 0)) = some (1, 0) := 
  fun line => by
    cases line <;> exact ⟨live_of rfl (by decide), by decide, live_of rfl (by decide), by decide⟩
theorem witness_SequencerPushesTheMessage :
    Live (seqPushing 3 7 0) ∧ (seqPushing 3 7 0).orb.isFull 8 = true ∧
    Live (seqPushing 1 6 0) ∧ Live (seqPushing 3 6 0) ∧ (seqPushing 1 6 0).orb.isFull 8 = false ∧
    (seqPushing 1 6 0).seq.phase = .push := 
  ⟨live_of rfl (by decide), by decide, live_of rfl (by decide), live_of rfl (by decide), by decide, by decide⟩
theorem witness_NoStepAfterFaultOrRefusal :
    s0.raiseFault.fault = true ∧
    ConfigRefused { s0 with refused := true, seq := { s0.seq with phase := .refused } } ∧ s0.port = [] := by decide
theorem witness_CommandsLeaveThePhase :
    ∃ t, exec (.rbPush 1) s0 = .next t := next_of (by decide)
theorem witness_QueriesWriteOnlyTheResult :
    ∀ i ∈ [Instr.rbIsEmpty, .rbIsFull, .elapsed 0 1, .velmap 0, .notenum 15, .encOn 15 127, .encOff 15],
    ∃ t, exec i s0 = .next t := 
  fun i hi => next_of (by fin_cases hi <;> decide)
/-- Also for StepKeepsMemoryCanonical and StepKeepsCfgAndExtendsTrace. -/
theorem witness_StepKeepsReachable :
    (Reachable State.reset ∧ ∃ t, step State.reset = .next t) ∧
    ∃ t, Live (seqPushing 1 6 0) ∧ step (seqPushing 1 6 0) = .next t := 
  ⟨⟨.inl (by decide), next_of (by decide)⟩,
    (next_of (x := step (seqPushing 1 6 0)) (by decide)).imp fun _ h => ⟨live_of rfl (by decide), h⟩⟩
theorem witness_StepKeepsMemoryCanonical :
    Memory.wf (seqPushing 1 6 0).orb.mem = true := by decide
theorem witness_BytesAreSentInPushOrder :
    ∃ t, Live { withRing 3 0 [true] with port := [driven 0x43] } ∧
    step { withRing 3 0 [true] with port := [driven 0x43] } = .next t ∧ decode (driven 0x43) ≠ .ok .rbTryPop := 
  (next_of (x := step { withRing 3 0 [true] with port := [driven 0x43] }) (by decide)).imp fun _ h =>
    ⟨live_of rfl (by decide), h, by decide⟩
theorem witness_TheStreamIsWholeMessages :
    BeforeInit State.reset ∧ ConfigOk State.reset.cfg ∧ State.reset.trace = [] ∧ State.reset.port = [] ∧
    ∃ t, step State.reset = .next t := 
  ⟨by decide, by decide, rfl, rfl, next_of (by decide)⟩

/-- The sequencer with 0x80 of a Note Off sent, 0x1A outstanding and the last byte still to push. -/
def midMessage : State :=
  { seqAt .push 0 6 with
    orb := { mem := [(0, 0x80), (1, 0x1A)], inIdx := 2, outIdx := 1 }
    trace := [.tx 0x80]
    seq := { (seqAt .push 0 6).seq with msg := ⟨0x80, 0x1A, 0x00⟩, msgN := 1 } }

theorem witness_TheStreamIsWholeMessages_step :
    ∃ t, Live midMessage ∧ midMessage.running = true ∧ midMessage.busy = [] ∧ midMessage.port = [] ∧
    midMessage.seq.phase = .push ∧
    readStream (txBytes midMessage.trace ++ outstanding midMessage ++ unpushed midMessage.seq)
      = some [.midiNoteOff 0 0x1A] ∧ step midMessage = .next t := 
  (next_of (x := step midMessage) (by decide)).imp fun _ h =>
    ⟨live_of rfl (by decide), by decide, by decide, by decide, by decide, by decide, h⟩

/-- A full buffer, key 5 due a Release, one attempt of the pass's pushes failing. -/
def waiting : State :=
  { (withKeyAt 5 2 1000).setOrb (ring 7 0) with
    env := { masks := [0, 0, 0, 0], times := [1, 2, 3, 4], readies := [true, true, false, true], draws := 0 } }

/-- A command that answers a next state from which `n` further steps end its waits. -/
theorem finishes_of (n : Nat) {x : Host.Outcome State Fault Refusal}
    (h : shows (fun s => shows State.busy (runSteps n s)) x = some (some [])) : ∃ u t, x = .next u ∧ Finishes u t := by
  cases x with
  | next u =>
    cases h1 : runSteps n u with
    | next t => exact ⟨u, t, rfl, n, h1, by simpa [shows, nextOf, h1] using h⟩
    | fault r => simp [shows, nextOf, h1] at h
    | refused r => simp [shows, nextOf, h1] at h
  | fault r => simp [shows, nextOf] at h
  | refused r => simp [shows, nextOf] at h

theorem witness_LoopIterMatchesTheSequencer :
    PortOpen waiting ∧ Live waiting ∧ waiting.port = [] ∧
    ∃ s1 t, exec .loopIter waiting = .next s1 ∧ Finishes s1 t := 
  ⟨by decide, live_of rfl (by decide), rfl, finishes_of 3 (by decide)⟩

/-- One bank, no key pressed. -/
def oneBank : State := idle { Cfg.atReset with numBanks := 1 } [0, 0] [1, 2] []

theorem witness_LoopIterMatchesTheSequencer_sequencer :
    PortOpen oneBank ∧ Live oneBank ∧ oneBank.port = [] ∧ ∃ u, FirstReturn oneBank u := by
  refine ⟨by decide, live_of rfl (by decide), rfl, ?_⟩
  obtain ⟨u, hu⟩ := next_of (x := runSteps (15 + 1) { oneBank with running := true }) (by decide)
  have hp : shows (fun t => t.seq.phase) (runSteps (15 + 1) { oneBank with running := true }) = some .iterDrain := by decide
  have hj : ∀ j < 15, shows (fun t => t.seq.phase) (runSteps (j + 1) { oneBank with running := true })
      ≠ some .iterDrain := by decide
  refine ⟨u, 15, hu, by simpa [hu, shows, nextOf] using hp, fun j h v hv => ?_⟩
  simpa [hv, shows, nextOf] using hj j h

/-- The buffer two bytes from full, key 5 due a Release and key 6 a Hit, every attempt of the waits succeeding. -/
def crowded : State :=
  { (idle Cfg.atReset [0, 0x40, 0, 0] [30000, 30010, 30020, 30030] (List.replicate 48 true)) with
    ks := (s0.ks.set 5 { st := 2, pt := 1000 }).set 6 { st := 1, pt := 30000 }
    orb := ring 5 0 }

theorem witness_ScanBankRunsThePerBankProtocol_waits :
    PortOpen crowded ∧ Live crowded ∧ crowded.port = [] ∧ (0 : Byte).toNat < crowded.cfg.numBanks ∧
    crowded.env.masks = 0 :: 0x40 :: [0, 0] ∧ crowded.env.times = 30000 :: 30010 :: [30020, 30030] ∧
    crowded.env.readies = List.replicate 48 true ++ [] ∧
    ∃ u t, exec (.scanBank 0) crowded = .next u ∧ Finishes u t := 
  ⟨by decide, live_of rfl (by decide), rfl, by decide, rfl, rfl, rfl, finishes_of 4 (by decide)⟩
theorem witness_ScanPassScansEveryBank_waits :
    PortOpen crowded ∧ Live crowded ∧ crowded.port = [] ∧ ∃ u t, exec .scanPass crowded = .next u ∧ Finishes u t := 
  ⟨by decide, live_of rfl (by decide), rfl, finishes_of 4 (by decide)⟩
/-- Also for EmitRelPushesNoteOff. -/
theorem witness_EmitHitPushesNoteOn_waits :
    PortOpen crowded ∧ Live crowded ∧ (15 : Byte).toNat < crowded.cfg.numKeys ∧ crowded.port = [] ∧
    crowded.cfg.rbCapacity - 1 - crowded.orb.count crowded.cfg.rbCapacity < 3 ∧
    crowded.env.readies = List.replicate 3 true ++ List.replicate 45 true ∧
    ∃ u t, exec (.emitHit 15 0) crowded = .next u ∧ Finishes u t := 
  ⟨by decide, live_of rfl (by decide), by decide, rfl, by decide, by decide, finishes_of 1 (by decide)⟩

/-- A buffer whose outstanding slot holds no value, with the transmitter ready. -/
def unwritten : State :=
  { (idle Cfg.atReset [] [] [true]) with orb := { mem := [], inIdx := 1, outIdx := 0 }, port := [driven 0x43] }

theorem witness_AFaultMakesNoOtherChange :
    ∃ t, step unwritten = .next t ∧ t.fault = true ∧ t.trace = [] := by
  obtain ⟨t, h⟩ := next_of (x := step unwritten) (by decide)
  have h1 : shows (fun t => (t.fault, t.trace)) (step unwritten) = some (true, []) := by decide
  rw [h] at h1
  exact ⟨t, h, by simpa [shows, nextOf] using h1⟩

end Sys2Proof.Tests
end

/-! # Proofs: the state (spec/10_state.md)

What a step and a command can be, said once (`step_next`, `exec_next`); then what every step keeps: CFG, TRACE and the
canonical form of the storage from every state (`Extends`), and the invariant of R57 (`Reachable`, by `Live.step`). -/

/-! ## What a step can be -/

namespace Sys2Proof.Machine

variable {s t : State}

/-- All that a step can be, where it answers a next state: more of the operation in progress, a step of the sequencer,
a command taken off the port, or the sequencer's own INIT. -/
theorem step_next (h : step s = .next t) : s.fault = false ∧
    ((s.busy ≠ [] ∧ t = s.orFault (runOps s.busy s)) ∨
     (s.busy = [] ∧ s.running = true ∧ seqStep s = .next t) ∨
     (s.busy = [] ∧ s.running = false ∧
        ∃ w rest i, s.port = w :: rest ∧ decode w = .ok i ∧ exec i { s with port := rest } = .next t) ∨
     (s.busy = [] ∧ s.running = false ∧ s.port = [] ∧ s.seq.phase = .init ∧
        t = { initialise s with running := !(initialise s).refused })) := by
  unfold step at h
  cases hf : s.fault with
  | true => simp [hf] at h
  | false =>
    refine ⟨rfl, ?_⟩
    simp only [hf, Bool.false_eq_true, if_false] at h
    cases hb : s.busy with
    | cons m ms =>
      simp only [hb] at h
      exact .inl ⟨List.cons_ne_nil _ _, (Host.Outcome.next.inj h).symm⟩
    | nil =>
      simp only [hb] at h
      cases hr : s.running with
      | true => exact .inr (.inl ⟨rfl, rfl, by simpa [hr] using h⟩)
      | false =>
        simp only [hr, Bool.false_eq_true, if_false] at h
        cases hp : s.port with
        | cons w rest =>
          simp only [hp, stepCommand] at h
          cases hd : decode w with
          | ok i => exact .inr (.inr (.inl ⟨rfl, rfl, w, rest, i, rfl, hd, by simpa [hd, hf, hb, hr] using h⟩))
          | error e => simp [hd] at h
        | nil =>
          simp only [hp, stepIdle] at h
          split_ifs at h with hi
          exact .inr (.inr (.inr ⟨rfl, rfl, rfl, hi, (Host.Outcome.next.inj h).symm⟩))

/-- All that an accepted command can do to the state. A query or an event that finds no value faults, and only where the
configuration is illegal or an index is out of range (logs 12, 13). -/
inductive Effect (s : State) : State → Prop
  | result (r : Result) : Effect s (s.setRes r)
  | fault (h : ¬(ConfigOk s.cfg ∧ s.orb.inIdx < s.cfg.rbCapacity ∧ s.orb.outIdx < s.cfg.rbCapacity)) :
    Effect s s.raiseFault
  | beginPass : Effect s ((beginPass s).setRes .none)
  | srStep : Effect s ((stepChain s).setRes .none)
  | snapRead (w : Line) (r : Result) : Effect s ((snapRead w s).2.setRes r)
  | body (ms : List Micro) (h : ∀ m ∈ ms, MicroGood s.cfg m) : Effect s (s.orFault (runOps ms s))
  | evaluate (line : Line) (k : Byte) (d : Bool) (time : U32) (h : k.toNat < s.cfg.numKeys) :
    Effect s (evaluate line k d time s)
  | tryPop (r : Result) : Effect s (if (tryPop s).2.fault then (tryPop s).2 else (tryPop s).2.setRes r)
  | drain (r : Result) : Effect s (if (drain s).2.fault then (drain s).2 else (drain s).2.setRes r)
  | run : Effect s { s.setPhase .iterDrain with running := true }

/-! The bodies of the port's operations name only keys and banks that exist. -/

theorem push_good (c : Cfg) (bs : List Byte) : ∀ m ∈ [Micro.push bs], MicroGood c m := by
  intro m hm
  obtain rfl := List.mem_singleton.1 hm
  trivial

theorem loopIterBody_good (c : Cfg) : ∀ m ∈ loopIterBody c, MicroGood c m := by
  intro m hm
  rcases List.mem_cons.1 hm with rfl | hm
  · trivial
  · exact scanPassBody_good c m hm

/-- A flag query (R270, R271). -/
theorem effect_resFlag (flag : Bool) (s : State) : Effect s (resFlag flag s) := by
  unfold resFlag
  split_ifs with h
  · exact .result _
  · exact .fault fun hc => h (Orb.inRange_iff.2 hc.2)

/-- The answer of ENC_ON or ENC_OFF, where only an illegal configuration leaves no message. -/
theorem effect_resMessage {m : Option Message} (hm : ConfigOk s.cfg → ∃ x, m = some x) :
    Effect s (resMessage m s) := by
  cases m with
  | some x => exact .result _
  | none => exact .fault fun hc => by simpa using hm hc.1

/-- The pushes of EMIT_HIT or EMIT_REL, where only an illegal configuration leaves no message. -/
theorem effect_emitMessage {m : Option Message} (hm : ConfigOk s.cfg → ∃ x, m = some x) :
    Effect s (emitMessage m s) := by
  cases m with
  | some x => exact .body _ (push_good _ _)
  | none => exact .fault fun hc => by simpa using hm hc.1

theorem ConfigOk.encodeOn {c : Cfg} {k : Nat} (h : ConfigOk c) (hk : k < c.numKeys) (v : Byte) :
    ∃ m, encodeOn c k v = some m :=
  ⟨_, by rw [Machine.encodeOn, h.noteOf hk]⟩

/-- A command the port accepted has the effect of its meaning. -/
theorem accept_effect {f : State → Host.Outcome State Fault Refusal} (h : accept s f = .next t)
    (hf : f s = .next t → Effect s t) : s.seq.phase ≠ .init ∧ s.refused = false ∧ Effect s t := by
  obtain ⟨_, _, hp, hr, _, h⟩ := accept_next h
  exact ⟨hp, hr, hf h⟩

/-- A command on a key that the port accepted has the effect of its meaning, on a key that exists. -/
theorem accept_withKey_effect {k : Byte} {f : State → Host.Outcome State Fault Refusal}
    (h : accept s (withKey k f) = .next t) (hf : k.toNat < s.cfg.numKeys → f s = .next t → Effect s t) :
    s.seq.phase ≠ .init ∧ s.refused = false ∧ Effect s t :=
  accept_effect h fun h => hf (withKey_next h).1 (withKey_next h).2

/-- A meaning that always answers a next state has the effect of that state. -/
theorem effect_of_next {u : State} (hu : Effect s u)
    (h : Host.Outcome.next u = (.next t : Host.Outcome State Fault Refusal)) : Effect s t :=
  Host.Outcome.next.inj h ▸ hu

/-- All that a command can be, where it answers a next state: INIT in P_INIT, or an accepted command (R120). -/
theorem exec_next {i : Instr} (h : exec i s = .next t) :
    (s.seq.phase = .init ∧ t = (initialise s).setRes .none) ∨
    (s.seq.phase ≠ .init ∧ s.refused = false ∧ Effect s t) := by
  cases i <;> simp only [exec, execSrBeginPass, execSrStep, execSnapRead, execScanBank, execElapsed, execKsmStart,
    execKsmEnd, execVelmap, execNotenum, execEncOn, execEncOff, execEmitHit, execEmitRel, execRbIsEmpty, execRbIsFull,
    execRbTryPop, execRbDrain, execRbPush, execScanPass, execLoopIter, execRun, execInit, execMidiNoteOn,
    execMidiNoteOff, reduceCtorEq] at h
  case init =>
    split_ifs at h with _ _ _ _ hp
    exact .inl ⟨not_not.1 hp, (Host.Outcome.next.inj h).symm⟩
  all_goals right
  case srBeginPass => exact accept_effect h (effect_of_next .beginPass)
  case srStep => exact accept_effect h (effect_of_next .srStep)
  case snapRead w => exact accept_effect h (effect_of_next (.snapRead w _))
  case elapsed t0 t1 => exact accept_effect h (effect_of_next (.result _))
  case rbIsEmpty => exact accept_effect h (effect_of_next (effect_resFlag _ s))
  case rbIsFull => exact accept_effect h (effect_of_next (effect_resFlag _ s))
  case rbTryPop => exact accept_effect h (effect_of_next (.tryPop _))
  case rbDrain => exact accept_effect h (effect_of_next (.drain _))
  case rbPush b => exact accept_effect h (effect_of_next (.body _ (push_good _ _)))
  case scanPass => exact accept_effect h (effect_of_next (.body _ (scanPassBody_good _)))
  case loopIter => exact accept_effect h (effect_of_next (.body _ (loopIterBody_good _)))
  case run => exact accept_effect h (effect_of_next .run)
  case ksmStart k d t0 => exact accept_withKey_effect h fun hk => effect_of_next (.evaluate _ k d t0 hk)
  case ksmEnd k d t0 => exact accept_withKey_effect h fun hk => effect_of_next (.evaluate _ k d t0 hk)
  case encOff k =>
    exact accept_withKey_effect h fun hk => effect_of_next (effect_resMessage fun hc => hc.encodeOff hk)
  case emitHit k t0 =>
    exact accept_withKey_effect h fun hk => effect_of_next (effect_emitMessage fun hc => hc.hitMessage hk t0)
  case emitRel k =>
    exact accept_withKey_effect h fun hk => effect_of_next (effect_emitMessage fun hc => hc.encodeOff hk)
  case scanBank bk =>
    refine accept_effect h fun h => ?_
    split_ifs at h with hb
    exact effect_of_next (.body _ (scanBankBody_good (by simpa [bankInRange] using hb))) h
  case encOn k v =>
    refine accept_withKey_effect h fun hk h => ?_
    split_ifs at h
    exact effect_of_next (effect_resMessage fun hc => hc.encodeOn hk v) h
  case notenum k =>
    refine accept_withKey_effect h fun hk h => ?_
    split at h
    · exact effect_of_next (.result _) h
    · next hn => exact effect_of_next (.fault fun hc => by simp [hc.1.noteOf hk] at hn) h
  case velmap t0 =>
    refine accept_effect h fun h => ?_
    split at h
    · exact effect_of_next (.result _) h
    · next hn =>
      refine effect_of_next (.fault fun hc => ?_) h
      obtain ⟨v, hv⟩ := hc.1.velocityOf t0
      simp [hn] at hv

end Sys2Proof.Machine

/-! ## CFG, TRACE and the form of the storage, from every state -/

namespace Sys2Proof.Machine

variable {s t u : State}

/-- What no operation breaks, whatever state it starts in: CFG is the same (R48), TRACE has only grown (R52), and the
storage has the canonical form if it had it (R37). -/
structure Extends (s t : State) : Prop where
  cfg : t.cfg = s.cfg
  trace : s.trace <+: t.trace
  mem : Memory.wf s.orb.mem = true → Memory.wf t.orb.mem = true

theorem Extends.refl (s : State) : Extends s s := ⟨rfl, List.prefix_rfl, id⟩

theorem Extends.trans (h : Extends s t) (h' : Extends t u) : Extends s u :=
  ⟨h'.cfg.trans h.cfg, h.trace.trans h'.trace, h'.mem ∘ h.mem⟩

/-- An update of other fields. -/
theorem Extends.congr (h : Extends s t) (hc : u.cfg = t.cfg) (ht : u.trace = t.trace) (ho : u.orb = t.orb) :
    Extends s u :=
  ⟨hc.trans h.cfg, ht ▸ h.trace, ho ▸ h.mem⟩

/-- An operation that leaves CFG, TRACE and the storage as they are. -/
theorem Extends.of_frame (hc : t.cfg = s.cfg) (ht : t.trace = s.trace) (hm : t.orb.mem = s.orb.mem) : Extends s t :=
  ⟨hc, ht ▸ List.prefix_rfl, hm ▸ id⟩

/-- An operation that leaves CFG and the storage as they are and appends to TRACE. -/
theorem Extends.of_append {es : List Event} (hc : t.cfg = s.cfg) (ht : t.trace = s.trace ++ es)
    (hm : t.orb.mem = s.orb.mem) : Extends s t :=
  ⟨hc, ht ▸ List.prefix_append .., hm ▸ id⟩

theorem Extends.setRes (h : Extends s t) (r : Result) : Extends s (t.setRes r) := h.congr rfl rfl rfl
theorem Extends.setSeq (h : Extends s t) (q : Seq) : Extends s (t.setSeq q) := h.congr rfl rfl rfl
theorem Extends.setBusy (h : Extends s t) (ms : List Micro) : Extends s (t.setBusy ms) := h.congr rfl rfl rfl
theorem Extends.raiseFault (h : Extends s t) : Extends s t.raiseFault := h.congr rfl rfl rfl

/-- All that RB_TRY_POP can do, in every state: nothing, fault, or take the oldest byte (R272). -/
theorem tryPop_any (s : State) :
    tryPop s = (none, s) ∨ tryPop s = (none, s.raiseFault) ∨
    ∃ b, tryPop s = (some b, s.setOrb (s.orb.drop s.cfg.rbCapacity)) := by
  unfold tryPop
  split_ifs
  · exact .inl rfl
  · cases Memory.read s.orb.mem s.orb.outIdx with
    | some b => exact .inr (.inr ⟨b, rfl⟩)
    | none => exact .inr (.inl rfl)
  · exact .inr (.inl rfl)

/-- All that RB_DRAIN can do, in every state: nothing, fault, a query, or a query and one byte (R273). -/
theorem drain_any (s : State) :
    (drain s).2 = s ∨ (drain s).2 = s.raiseFault ∨ (drain s).2 = afterQuery s ∨
    ∃ b, (drain s).2 = ((afterQuery s).setOrb (s.orb.drop s.cfg.rbCapacity)).emit (.tx b) := by
  have hq : txReady s = (s.env.drawReady.1, afterQuery s) := rfl
  unfold drain
  split_ifs
  · exact .inl rfl
  · cases hr : s.env.drawReady.1 with
    | false => exact .inr (.inr (.inl (by simp [hq, hr])))
    | true =>
      rcases tryPop_any (afterQuery s) with hp | hp | ⟨b, hp⟩
      · exact .inr (.inl (by simp [hq, hr, hp]))
      · exact .inr (.inl (by simp [hq, hr, hp]))
      · exact .inr (.inr (.inr ⟨b, by simp only [hq, hr, hp]; rfl⟩))
  · exact .inr (.inl rfl)

theorem tryPop_extends (s : State) : Extends s (tryPop s).2 := by
  rcases tryPop_any s with h | h | ⟨b, h⟩ <;> rw [h]
  · exact .refl s
  · exact (Extends.refl s).raiseFault
  · exact .of_frame rfl rfl rfl

theorem drain_extends (s : State) : Extends s (drain s).2 := by
  have hq : Extends s (afterQuery s) := .of_append rfl rfl rfl
  rcases drain_any s with h | h | h | ⟨b, h⟩ <;> rw [h]
  · exact .refl s
  · exact (Extends.refl s).raiseFault
  · exact hq
  · exact hq.trans (.of_append rfl rfl rfl)

theorem put_extends (b : Byte) (s : State) : Extends s (s.setOrb (s.orb.put s.cfg.rbCapacity b)) :=
  ⟨rfl, List.prefix_rfl, Memory.wf_write _ _⟩

theorem pushBytes_extends (bs : List Byte) (s : State) : Extends s (pushBytes bs s).2 := by
  induction bs generalizing s with
  | nil => exact .refl s
  | cons b bs ih =>
    unfold pushBytes
    split_ifs
    · exact drain_extends s
    · exact (put_extends b s).trans (ih _)
    · exact (Extends.refl s).raiseFault

theorem beginPass_extends (s : State) : Extends s (beginPass s) := by
  rw [beginPass_eq]
  exact .of_append rfl rfl rfl

theorem stepChain_extends (s : State) : Extends s (stepChain s) := by
  rw [stepChain_eq]
  exact .of_append rfl rfl rfl

theorem snapRead_extends (w : Line) (s : State) : Extends s (snapRead w s).2 := by
  rw [snapRead_eq]
  exact .of_append rfl rfl rfl

theorem initialise_extends (s : State) : Extends s (initialise s) := by
  rcases initialise_cases s with ⟨code, _, h⟩ | ⟨_, h⟩ <;> rw [h] <;> exact .of_append rfl rfl rfl

/-- One evaluation writes KS, raises a fault or records a diagnostic (R162, R167). -/
theorem evalKey_extends (line : Line) (k : Nat) (d : Bool) (time : U32) (s : State) :
    Extends s (evalKey line k d time s).2 := by
  have hfault := (Extends.refl s).raiseFault
  have hset (ks : List KeyEntry) : Extends s (s.setKs ks) := .of_frame rfl rfl rfl
  unfold evalKey
  split
  · exact hfault
  · split
    · exact .refl s
    · exact hset _
    · split
      · exact hset _
      · exact hfault
    · split
      · exact hset _
      · exact hfault
    · exact .of_append rfl rfl rfl
    · exact hfault

theorem doMicro_extends (m : Micro) (s : State) : Extends s (doMicro m s).2 := by
  have heval (line : Line) (p k : Nat) (d : Bool) (time : U32) : Extends s (evalKey line k d time (s.setPos p)).2 :=
    ((Extends.refl s).setSeq _).trans (evalKey_extends line k d time (s.setPos p))
  cases m with
  | push bs => exact pushBytes_extends bs s
  | drain => exact drain_extends s
  | beginPass => exact beginPass_extends s
  | srStep => exact stepChain_extends s
  | snapRead w => exact snapRead_extends w s
  | setBank b => exact (Extends.refl s).setSeq _
  | setPos p => exact (Extends.refl s).setSeq _
  | evalStart b p =>
    simp only [doMicro]
    split_ifs
    · exact heval ..
    · exact (heval ..).trans (pushBytes_extends ..)
  | evalEnd b p =>
    simp only [doMicro]
    split_ifs
    · exact .refl s
    · exact heval ..
    · exact (heval ..).trans (pushBytes_extends ..)

theorem runOps_extends (ms : List Micro) (s : State) : Extends s (runOps ms s) := by
  induction ms generalizing s with
  | nil => exact ((Extends.refl s).setBusy []).setRes .none
  | cons m ms ih =>
    have hm := doMicro_extends m s
    simp only [runOps]
    split_ifs
    · exact hm.setBusy _
    · split
      · exact hm.trans (ih _)
      · exact hm.setBusy _

theorem orFault_extends (h : Extends s t) : Extends s (s.orFault t) := by
  unfold State.orFault
  split_ifs
  · exact (Extends.refl s).raiseFault
  · exact h

theorem evaluate_extends (line : Line) (k : Byte) (d : Bool) (time : U32) (s : State) :
    Extends s (evaluate line k d time s) := by
  have he := evalKey_extends line k.toNat d time s
  simp only [evaluate]
  split_ifs
  · exact he
  · exact orFault_extends (he.trans (runOps_extends ..))

theorem Effect.extends (h : Effect s t) : Extends s t := by
  cases h with
  | result r => exact (Extends.refl s).setRes r
  | fault => exact (Extends.refl s).raiseFault
  | beginPass => exact (beginPass_extends s).setRes _
  | srStep => exact (stepChain_extends s).setRes _
  | snapRead w r => exact (snapRead_extends w s).setRes r
  | body ms => exact orFault_extends (runOps_extends ms s)
  | evaluate line k d time => exact evaluate_extends line k d time s
  | tryPop r =>
    split_ifs
    · exact tryPop_extends s
    · exact (tryPop_extends s).setRes r
  | drain r =>
    split_ifs
    · exact drain_extends s
    · exact (drain_extends s).setRes r
  | run => exact .of_frame rfl rfl rfl

theorem exec_extends {i : Instr} (h : exec i s = .next t) : Extends s t := by
  rcases exec_next h with ⟨_, rfl⟩ | ⟨_, _, he⟩
  · exact (initialise_extends s).setRes _
  · exact he.extends

theorem seqEval_extends (line : Line) (mask : Byte) (time : U32) (ret : RetPhase) (after : Phase) (s : State) :
    Extends s (seqEval line mask time ret after s) := by
  have he := evalKey_extends line (keyId s.seq.bank s.seq.pos) (buttonDown mask s.seq.pos) time s
  simp only [seqEval]
  split_ifs
  · exact (Extends.refl s).setSeq _
  · exact he
  · split
    · exact he.setSeq _
    · exact he.setSeq _
  · exact (Extends.refl s).raiseFault

theorem seqPush_extends (s : State) : Extends s (seqPush s) := by
  unfold seqPush
  split
  · split
    · exact drain_extends s
    · split
      · exact (put_extends _ s).setSeq _
      · exact (Extends.refl s).raiseFault
  · exact (Extends.refl s).raiseFault

theorem seqNextBank_extends (s : State) : Extends s (seqNextBank s) := by
  simp only [seqNextBank]
  split_ifs
  · exact ((stepChain_extends s).setSeq _).setSeq _
  · exact (stepChain_extends s).setSeq _
  · exact (Extends.refl s).raiseFault

theorem seqStep_extends (h : seqStep s = .next t) : Extends s t := by
  cases hp : s.seq.phase <;> simp only [seqStep, hp, Host.Outcome.next.injEq, reduceCtorEq] at h <;> subst h
  case init => exact initialise_extends s
  case iterDrain =>
    split
    · exact drain_extends s
    · exact (drain_extends s).setSeq _
  case passBegin => exact (((Extends.refl s).setSeq _).trans (beginPass_extends _)).setSeq _
  case startRead => exact ((snapRead_extends ..).setSeq _).setSeq _
  case startEval => exact seqEval_extends ..
  case stepToEnd => exact (stepChain_extends s).setSeq _
  case endRead => exact ((snapRead_extends ..).setSeq _).setSeq _
  case endEval => exact seqEval_extends ..
  case stepToNext => exact seqNextBank_extends s
  case push => exact seqPush_extends s

theorem step_extends (h : step s = .next t) : Extends s t := by
  rcases (step_next h).2 with ⟨_, rfl⟩ | ⟨_, _, h⟩ | ⟨_, _, w, rest, i, _, _, h⟩ | ⟨_, _, _, _, rfl⟩
  · exact orFault_extends (runOps_extends ..)
  · exact seqStep_extends h
  · have hport : Extends s { s with port := rest } := .of_frame rfl rfl rfl
    exact hport.trans (exec_extends h)
  · exact (initialise_extends s).congr rfl rfl rfl

/-- Settles O56: no operation writes CFG or takes an entry off TRACE, so no step does (`step_extends`). -/
theorem stepKeepsCfgAndExtendsTrace : Obligations.StepKeepsCfgAndExtendsTrace := fun _ _ h =>
  ⟨(step_extends h).cfg, (step_extends h).trace.imp fun _ => Eq.symm⟩

/-- Settles O55: a slot is written by pushes alone, which keep the rising order (`put_extends`). -/
theorem stepKeepsMemoryCanonical : Obligations.StepKeepsMemoryCanonical := fun _ _ hwf h =>
  (step_extends h).mem hwf

end Sys2Proof.Machine

/-! ## The invariant of R57 -/

namespace Sys2Proof.Machine

variable {s t : State}

/-- A phase in which no message is pushed is within the invariant. -/
theorem Live.setPhase {p : Phase} (h : Live s) (hp : p ≠ .init ∧ p ≠ .refused ∧ p ≠ .push) : Live (s.setPhase p) := by
  obtain ⟨_, _, _, _, _, _, _, ⟨hbank, hpos, hn, _⟩, _⟩ := id h
  exact h.seq ⟨hbank, hpos, hn, fun e => absurd e hp.2.2⟩ hp.1 hp.2.1

theorem Live.setPos {p : Nat} (h : Live s) (hp : p ≤ 8) : Live (s.setPos p) :=
  h.doMicro (m := .setPos p) hp

theorem Live.setBank {b : Nat} (h : Live s) (hb : b < s.cfg.numBanks) : Live (s.setBank b) :=
  h.doMicro (m := .setBank b) hb

theorem Live.setOrb {o : Orb} (h : Live s) (ho : OrbGood s.cfg.rbCapacity o) : Live (s.setOrb o) := by
  obtain ⟨hc, hf, hr, hp, hp', _, hks, hq, hb⟩ := h
  exact ⟨hc, hf, hr, hp, hp', ho, hks, hq, hb⟩

/-- RB_TRY_POP keeps the invariant. -/
theorem Live.tryPop (h : Live s) : Live (tryPop s).2 := by
  obtain ⟨_, _, _, _, _, ho, _⟩ := id h
  rcases tryPop_cases ho with ⟨_, e⟩ | ⟨he, b, _, e⟩ <;> rw [e]
  · exact h
  · exact h.setOrb (ho.drop he)

/-- One evaluation from the command port, with the pushes of its event, keeps the invariant. -/
theorem Live.evaluate {line : Line} {k : Byte} {d : Bool} {time : U32} (h : Live s) (hk : k.toNat < s.cfg.numKeys) :
    Live (evaluate line k d time s) := by
  have he : Live (evalKey line k.toNat d time s).2 := h.eval hk
  simp only [Machine.evaluate]
  split_ifs
  · exact he
  · rw [he.orFault_runOps (push_good _ _)]
    exact he.runOps (push_good _ _)

/-- An accepted command keeps the invariant; none of the reasons for a fault is there. -/
theorem Live.effect (h : Live s) (he : Effect s t) : Live t := by
  cases he with
  | result r => exact h.setRes r
  | fault hbad =>
    obtain ⟨hc, _, _, _, _, ⟨_, hi, ho, _⟩, _⟩ := h
    exact absurd ⟨hc, hi, ho⟩ hbad
  | beginPass => exact h.beginPass.setRes _
  | srStep => exact h.stepChain.setRes _
  | snapRead w r => exact (h.snapRead w).setRes r
  | body ms hms =>
    rw [h.orFault_runOps hms]
    exact h.runOps hms
  | evaluate line k d time hk => exact h.evaluate hk
  | tryPop r =>
    split
    · exact h.tryPop
    · exact h.tryPop.setRes r
  | drain r =>
    split
    · exact h.drain
    · exact h.drain.setRes r
  | run => exact h.setPhase (by decide)

/-- P_START_EVAL and P_END_EVAL keep the invariant: the position stays in range, and an event leaves three bytes to
push (R44). -/
theorem Live.seqEval {line : Line} {mask : Byte} {time : U32} {ret : RetPhase} {after : Phase} (h : Live s)
    (ha : after ≠ .init ∧ after ≠ .refused ∧ after ≠ .push) : Live (seqEval line mask time ret after s) := by
  obtain ⟨hc, _, _, _, _, _, _, ⟨hbank, hpos, _, _⟩, _⟩ := id h
  unfold Machine.seqEval
  split_ifs with h8 hin
  · exact h.setPhase ha
  · have he := h.eval (line := line) (d := buttonDown mask s.seq.pos) (t := time) (hc.keyId_lt hin.2 hin.1)
    obtain ⟨_, hf', _, _, _, _, _, ⟨hbank', _⟩, _⟩ := id he
    simp only [hf', Bool.false_eq_true, if_false]
    split
    · exact he.setPos hin.1
    · exact he.seq ⟨hbank', hin.1, le_rfl, fun _ => show 1 ≤ 3 by decide⟩ (by simp) (by simp)
  · exact absurd ⟨by omega, hbank⟩ hin

/-- Each of the three positions of a message holds a byte (R44). -/
theorem Message.byte_of_lt {i : Nat} (m : Message) (h : i < 3) : ∃ b, m.byte i = some b :=
  ⟨m.bytes[i], List.getElem?_eq_getElem _⟩

/-- P_PUSH keeps the invariant: a byte is left to push there, and the phase is left with the last one (R292, R294). -/
theorem Live.seqPush (h : Live s) (hp : s.seq.phase = .push) : Live (seqPush s) := by
  obtain ⟨_, _, _, _, _, ho, _, ⟨hbank, hpos, hn, hpush⟩, _⟩ := id h
  have hn1 := hpush hp
  obtain ⟨b, hb⟩ := s.seq.msg.byte_of_lt (i := 3 - s.seq.msgN) (by omega)
  rw [Machine.seqPush, if_pos ⟨ho.inRange, hn1, hn⟩]
  cases hf : s.orb.isFull s.cfg.rbCapacity with
  | true => exact h.drain
  | false =>
    simp only [hb, Bool.false_eq_true, if_false]
    refine (h.setOrb (ho.put b hf)).seq ⟨hbank, hpos, (Nat.sub_le _ _).trans hn, ?_⟩ ?_ ?_
    · intro e
      show 1 ≤ s.seq.msgN - 1
      by_contra hlast
      rw [if_pos (by omega)] at e
      cases hr : s.seq.ret <;> simp [hr, phaseOfRet] at e
    all_goals
      show (if s.seq.msgN - 1 = 0 then phaseOfRet s.seq.ret else Phase.push) ≠ _
      split_ifs
      · cases s.seq.ret <;> simp [phaseOfRet]
      · simp

/-- P_STEP_TO_NEXT keeps the invariant: BANK advances to a bank that exists, or stays (R46). -/
theorem Live.seqNextBank (h : Live s) : Live (seqNextBank s) := by
  have hs : Live (Machine.stepChain s) := h.stepChain
  obtain ⟨_, _, _, _, _, _, _, ⟨hbank, _⟩, _⟩ := id h
  rw [Machine.seqNextBank, if_pos hbank]
  dsimp only
  split_ifs with hnext
  · exact (hs.setBank hnext).setPhase (by decide)
  · exact hs.setPhase (by decide)

/-- Every step of the sequencer keeps the invariant. -/
theorem Live.seqStep (h : Live s) (hs : seqStep s = .next t) : Live t := by
  obtain ⟨hc, _, _, hi, _⟩ := id h
  cases hp : s.seq.phase <;> simp only [Machine.seqStep, hp, Host.Outcome.next.injEq, reduceCtorEq] at hs <;> subst hs
  case init => exact absurd hp hi
  case iterDrain =>
    split
    · exact h.drain
    · exact h.drain.setPhase (by decide)
  case passBegin => exact (h.setBank (configOk_iff_facts.1 hc).1).beginPass.setPhase (by decide)
  case startRead => exact ((h.snapRead .startLine).setPos (Nat.zero_le _)).setPhase (by decide)
  case startEval => exact h.seqEval (by decide)
  case stepToEnd => exact h.stepChain.setPhase (by decide)
  case endRead => exact ((h.snapRead .endLine).setPos (by split_ifs <;> omega)).setPhase (by decide)
  case endEval => exact h.seqEval (by decide)
  case stepToNext => exact h.seqNextBank
  case push => exact h.seqPush hp

/-- An unwritten buffer with both indices at 0 is good (R361). -/
theorem OrbGood.empty {cap : Nat} {o : Orb} (h : 1 < cap) (hm : o.mem = []) (hi : o.inIdx = 0) (ho : o.outIdx = 0) :
    OrbGood cap o := by
  have hcount : o.count cap = 0 := by simp [Orb.count, hi, ho]
  exact ⟨h, by omega, by omega, by rw [hm, Memory.wf_nil], by simp [hm], by simp [hcount]⟩

/-- The registers INIT writes to SEQ are in range (R361). -/
theorem SeqGood.initial {c : Cfg} (h : 1 ≤ c.numBanks) : SeqGood c Seq.initial :=
  ⟨h, by decide, by decide, by decide⟩

/-- The key-state file INIT writes is good (R361). -/
theorem KsGood.initial (c : Cfg) : KsGood c (List.replicate c.numKeys KeyEntry.initial) :=
  ⟨List.length_replicate, fun e he => by
    rw [List.eq_of_mem_replicate he]
    decide⟩

/-- INIT refuses the configuration or leaves a live state (R361, R363). -/
theorem BeforeInit.initialise (h : BeforeInit s) :
    ConfigRefused (initialise s) ∨ Live (initialise s) := by
  obtain ⟨_, hf, hr, hb, hm, hrun⟩ := h
  rcases initialise_cases s with ⟨code, _, e⟩ | ⟨hc, e⟩ <;> rw [e]
  · exact .inl ⟨rfl, hf, rfl, hb, hrun⟩
  · obtain ⟨hbanks, _, _, hcap, _⟩ := configOk_iff_facts.1 hc
    exact .inr ⟨hc, hf, hr, by simp [Seq.initial], by simp [Seq.initial], .empty hcap hm rfl rfl, .initial _,
      .initial hbanks, by simp [hb]⟩

/-- Before INIT a step is INIT, from the port or the sequencer's own (R120, R360). -/
theorem BeforeInit.step (h : BeforeInit s) (hs : step s = .next t) : ConfigRefused t ∨ Live t := by
  obtain ⟨hp, _, _, hb, _, hrun⟩ := id h
  rcases (step_next hs).2 with ⟨hb', _⟩ | ⟨_, hrun', _⟩ | ⟨_, _, w, rest, i, _, _, he⟩ | ⟨_, _, _, _, rfl⟩
  · exact absurd hb hb'
  · simp [hrun] at hrun'
  · rcases exec_next he with ⟨_, rfl⟩ | ⟨hp', _⟩
    · have h' : BeforeInit { s with port := rest } := h
      exact h'.initialise
    · exact absurd hp hp'
  · rcases h.initialise with ⟨h1, h2, h3, h4, _⟩ | hl
    · exact .inl ⟨h1, h2, h3, h4, by simp [h3]⟩
    · exact .inr hl

/-- No step is left once INIT has refused the configuration (R50, R120). -/
theorem ConfigRefused.no_step (h : ConfigRefused s) : step s ≠ .next t := by
  intro hs
  obtain ⟨hp, _, hr, hb, hrun⟩ := h
  rcases (step_next hs).2 with ⟨hb', _⟩ | ⟨_, hrun', _⟩ | ⟨_, _, w, rest, i, _, _, he⟩ | ⟨_, _, _, hp', _⟩
  · exact absurd hb hb'
  · simp [hrun] at hrun'
  · rcases exec_next he with ⟨hp', _⟩ | ⟨_, hr', _⟩
    · simp [hp] at hp'
    · simp [hr] at hr'
  · simp [hp] at hp'

/-- After a successful INIT every step keeps the invariant of R57. -/
theorem Live.step (h : Live s) (hs : step s = .next t) : Live t := by
  obtain ⟨_, _, _, hi, _, _, _, _, hb⟩ := id h
  rcases (step_next hs).2 with ⟨_, rfl⟩ | ⟨_, _, hs⟩ | ⟨_, _, w, rest, i, _, _, he⟩ | ⟨_, _, _, hp, _⟩
  · rw [h.orFault_runOps hb]
    exact h.runOps hb
  · exact h.seqStep hs
  · have h' : Live { s with port := rest } := h
    rcases exec_next he with ⟨hp, _⟩ | ⟨_, _, he⟩
    · exact absurd hp hi
    · exact h'.effect he
  · exact absurd hp hi

/-- Settles O54: INIT leaves a refused or a live state, a refused one has no step, and each part of a step keeps a live
one. -/
theorem stepKeepsReachable : Obligations.StepKeepsReachable := by
  rintro s t (h | h | h) hs
  · exact .inr (h.step hs)
  · exact absurd hs h.no_step
  · exact .inr (.inr (h.step hs))

/-- Settles O53: the state after reset is before INIT, with every configuration. -/
theorem resetIsReachable : Obligations.ResetIsReachable :=
  ⟨rfl, fun _ => ⟨.inl ⟨rfl, rfl, rfl, rfl, rfl, rfl⟩, rfl, rfl, rfl, rfl, rfl, Memory.read_nil⟩⟩

end Sys2Proof.Machine

/-! ## The flags of the ring buffer -/

namespace Sys2Proof.Machine

/-- COUNT, taken in the naturals, is the integer remainder of `in - out` (R40). -/
theorem Orb.count_eq_emod {cap : Nat} {o : Orb} (ho : o.outIdx < cap) :
    (o.count cap : Int) = ((o.inIdx : Int) - (o.outIdx : Int)) % (cap : Int) := by
  calc (o.count cap : Int) = ((o.inIdx : Int) + ((cap : Int) - (o.outIdx : Int))) % (cap : Int) := by
        rw [Orb.count, Int.natCast_emod, Nat.cast_add, Nat.cast_sub ho.le]
    _ = ((o.inIdx : Int) - (o.outIdx : Int) + (cap : Int)) % (cap : Int) := by congr 1; ring
    _ = ((o.inIdx : Int) - (o.outIdx : Int)) % (cap : Int) := Int.add_emod_right ..

/-- Settles O32: COUNT as an integer remainder, with the laws of the flags in `Orb.isEmpty_iff_count` and
`Orb.isFull_iff_count`. -/
theorem countEmptyAndFullAgree : Obligations.CountEmptyAndFullAgree := fun _ _ _ hi ho =>
  ⟨Orb.count_eq_emod ho, Nat.le_sub_one_of_lt (Orb.count_lt ho), Orb.isEmpty_iff_count hi ho,
    Orb.isFull_iff_count hi ho⟩

end Sys2Proof.Machine

/-! # Proofs: the memories (spec/20_memory.md)

The byte stream of a state is what has been sent followed by what is outstanding. Every operation appends to it exactly
the bytes it pushes, and a drain only moves the border between the two parts (R94). So each operation's law is one
equation about `stream`, and the laws of statements, bodies, commands and the sequencer are put together from them. -/

/-! ## The byte stream of a state -/

namespace Sys2Proof.Machine

variable {s t : State}

/-- The bytes sent, then the outstanding ones: all bytes pushed so far, in order (R94). -/
def stream (s : State) : List Byte := txBytes s.trace ++ outstanding s

theorem stream_congr (hc : t.cfg = s.cfg) (ho : t.orb = s.orb) (ht : txBytes t.trace = txBytes s.trace) :
    stream t = stream s := by
  rw [stream, stream, outstanding, outstanding, hc, ho, ht]

@[simp] theorem stream_raiseFault (s : State) : stream s.raiseFault = stream s := rfl
@[simp] theorem stream_setRes (r : Result) (s : State) : stream (s.setRes r) = stream s := rfl
@[simp] theorem stream_setSeq (q : Seq) (s : State) : stream (s.setSeq q) = stream s := rfl
@[simp] theorem stream_setBusy (ms : List Micro) (s : State) : stream (s.setBusy ms) = stream s := rfl
@[simp] theorem stream_setPhase (p : Phase) (s : State) : stream (s.setPhase p) = stream s := rfl
@[simp] theorem stream_setBank (b : Nat) (s : State) : stream (s.setBank b) = stream s := rfl
@[simp] theorem stream_setPos (p : Nat) (s : State) : stream (s.setPos p) = stream s := rfl
@[simp] theorem stream_complete (s : State) : stream (complete s) = stream s := rfl

@[simp] theorem txBytes_append (as bs : List Event) : txBytes (as ++ bs) = txBytes as ++ txBytes bs :=
  List.filterMap_append

/-! Only the transmitter's entries hold sent bytes. -/

@[simp] theorem txBytes_beginPassTrace (c : Cfg) : txBytes (beginPassTrace c) = [] := rfl

@[simp] theorem txBytes_stepTrace (c : Cfg) : txBytes (stepTrace c) = [] := by
  unfold stepTrace
  split_ifs <;> rfl

@[simp] theorem txBytes_diagEvents (c : Cfg) (line : Line) (k : Nat) (e : KeyEntry) (d : Bool) (time : U32) :
    txBytes (diagEvents c line k e d time) = [] := by
  unfold diagEvents
  split <;> rfl

@[simp] theorem stream_beginPass (s : State) : stream (beginPass s) = stream s := by
  rw [beginPass_eq]
  exact stream_congr rfl rfl (by simp)

@[simp] theorem stream_stepChain (s : State) : stream (stepChain s) = stream s := by
  rw [stepChain_eq]
  exact stream_congr rfl rfl (by simp)

@[simp] theorem stream_snapRead (w : Line) (s : State) : stream (snapRead w s).2 = stream s := by
  rw [snapRead_eq]
  exact stream_congr rfl rfl ((txBytes_append ..).trans (List.append_nil _))

/-- A drain attempt moves the oldest outstanding byte to the end of those sent, or does nothing to either (R273). -/
theorem stream_drain (h : OrbGood s.cfg.rbCapacity s.orb) : stream (drain s).2 = stream s := by
  have hquery : txBytes (afterQuery s).trace = txBytes s.trace := (txBytes_append ..).trans (List.append_nil _)
  rcases drain_cases h with ⟨_, e⟩ | ⟨_, _, e⟩ | ⟨hne, _, b, hb, e⟩ <;> rw [e]
  · exact stream_congr rfl rfl hquery
  · obtain ⟨_, hin, hout, _⟩ := h
    calc stream (((afterQuery s).setOrb (s.orb.drop s.cfg.rbCapacity)).emit (.tx b))
        = txBytes (afterQuery s).trace ++ [b] ++ (s.orb.drop s.cfg.rbCapacity).bytes s.cfg.rbCapacity :=
          congrArg (· ++ _) (txBytes_append ..)
      _ = txBytes s.trace ++ s.orb.bytes s.cfg.rbCapacity := by
          rw [hquery, Orb.bytes_drop hin hout hne hb, List.append_assoc, List.singleton_append]

/-- Storing bytes in the buffer appends them to the stream (R262). -/
theorem stream_setOrb_of_stored {o : Orb} {bs : List Byte} (h : Stored s.cfg.rbCapacity s.orb o bs) :
    stream (s.setOrb o) = stream s ++ bs := by
  obtain ⟨_, _, _, _, hbytes⟩ := h
  calc stream (s.setOrb o) = txBytes s.trace ++ o.bytes s.cfg.rbCapacity := rfl
    _ = stream s ++ bs := by rw [hbytes, ← List.append_assoc]; rfl

/-- Of the bytes asked for, those pushed when `left` still have to be. -/
def pushedOf (asked left : List Byte) : List Byte := asked.take (asked.length - left.length)

@[simp] theorem pushedOf_nil_right (asked : List Byte) : pushedOf asked [] = asked := by simp [pushedOf]

@[simp] theorem pushedOf_nil_left (left : List Byte) : pushedOf [] left = [] := by simp [pushedOf]

theorem pushedOf_append (pushed left : List Byte) : pushedOf (pushed ++ left) left = pushed := by simp [pushedOf]

/-- Pushes append all that they do not leave for a later step, in order (R262, R274). -/
theorem stream_pushBytes (bs : List Byte) (h : OrbGood s.cfg.rbCapacity s.orb) :
    stream (pushBytes bs s).2 = stream s ++ pushedOf bs (pushBytes bs s).1 := by
  obtain ⟨pushed, o, hbs, hstored, ho, hend⟩ := pushBytes_cases bs h
  have hp : pushedOf bs (pushBytes bs s).1 = pushed := (congrArg (pushedOf · _) hbs).trans (pushedOf_append ..)
  rw [hp, ← stream_setOrb_of_stored hstored]
  rcases hend with ⟨_, e⟩ | ⟨_, _, e⟩ <;> rw [e]
  exact stream_drain (s := s.setOrb o) ho

/-- How many bytes a push leaves depends on the buffer alone. -/
theorem pushBytes_left_congr (bs : List Byte) (hc : t.cfg = s.cfg) (ho : t.orb = s.orb) :
    (pushBytes bs t).1 = (pushBytes bs s).1 := by
  induction bs generalizing s t with
  | nil => rfl
  | cons b bs ih =>
    simp only [pushBytes, hc, ho]
    split_ifs
    · rfl
    · exact ih hc rfl
    · rfl

/-- An evaluation of a key that exists hands over its event's bytes and pushes none itself (R165, R166). -/
theorem evalKey_stream {line : Line} {k : Nat} {d : Bool} {time : U32} (h : Live s) (hk : k < s.cfg.numKeys) :
    messageBytes (evalKey line k d time s).1 = eventBytes s.cfg line k (s.ks.getD k KeyEntry.initial) d time ∧
      stream (evalKey line k d time s).2 = stream s := by
  obtain ⟨hc, _, _, _, _, _, hks, _⟩ := h
  obtain ⟨msg, hmsg, e⟩ := evalKey_eq (line := line) (d := d) (t := time) hc hks hk
  rw [e]
  exact ⟨hmsg, stream_congr rfl rfl (by simp)⟩

/-- An evaluation and then the pushes of its event, as a statement of a body or a command runs them. -/
theorem stream_eval_push {line : Line} {k : Nat} {d : Bool} {time : U32} (h : Live s) (hk : k < s.cfg.numKeys) :
    stream (pushBytes (messageBytes (evalKey line k d time s).1) (evalKey line k d time s).2).2 =
      stream s ++ pushedOf (eventBytes s.cfg line k (s.ks.getD k KeyEntry.initial) d time)
        (pushBytes (messageBytes (evalKey line k d time s).1) (evalKey line k d time s).2).1 := by
  obtain ⟨_, _, _, _, _, ho, _⟩ := h.eval (line := line) (d := d) (t := time) hk
  obtain ⟨hmsg, hstream⟩ := evalKey_stream (line := line) (d := d) (time := time) h hk
  rw [stream_pushBytes _ ho, hstream, hmsg]

/-! ## Statements and bodies -/

/-- A statement appends what it asks to push, less what it leaves for a later step. -/
theorem stream_doMicro {m : Micro} (h : Live s) (hm : MicroGood s.cfg m) :
    stream (doMicro m s).2 = stream s ++ pushedOf (m.asked s) (doMicro m s).1 := by
  obtain ⟨hc, _, _, _, _, ho, _⟩ := id h
  have heval (line : Line) (b p : Nat) (d : Bool) (time : U32) (hb : b < s.cfg.numBanks) (hp : p < 8) :
      (evalKey line (keyId b p) d time (s.setPos p)).2.fault = false := by
    obtain ⟨_, hf, _⟩ := (h.setPos hp.le).eval (line := line) (d := d) (t := time) (hc.keyId_lt hb hp)
    exact hf
  cases m with
  | push bs => exact stream_pushBytes bs ho
  | drain => simp [doMicro, Micro.asked, stream_drain ho]
  | beginPass => simp [doMicro, Micro.asked]
  | srStep => simp [doMicro, Micro.asked]
  | snapRead w => simp [doMicro, Micro.asked]
  | setBank b => simp [doMicro, Micro.asked]
  | setPos p => simp [doMicro, Micro.asked]
  | evalStart b p =>
    obtain ⟨hb, hp⟩ := hm
    simp only [doMicro, heval _ b p _ _ hb hp, Bool.false_eq_true, if_false]
    exact stream_eval_push (h.setPos hp.le) (hc.keyId_lt hb hp)
  | evalEnd b p =>
    obtain ⟨hb, hp⟩ := hm
    by_cases hz : s.seq.eb = 0
    · simp [doMicro, Micro.asked, hz]
    · simp only [doMicro, Micro.asked, hz, heval _ b p _ _ hb hp, Bool.false_eq_true, if_false]
      exact stream_eval_push (h.setPos hp.le) (hc.keyId_lt hb hp)

/-- A statement that ends has pushed all it asks for, and the rest of the body follows. -/
theorem bodyPushes_cons_done {m : Micro} {ms : List Micro} (h : (doMicro m s).1 = []) :
    bodyPushes (m :: ms) s = m.asked s ++ bodyPushes ms (doMicro m s).2 := by
  rw [bodyPushes, ← Prod.eta (doMicro m s), h]

/-- A statement that has to wait ends the step's pushes. -/
theorem bodyPushes_cons_wait {m : Micro} {ms : List Micro} (h : (doMicro m s).1 ≠ []) :
    bodyPushes (m :: ms) s = pushedOf (m.asked s) (doMicro m s).1 := by
  cases hd : doMicro m s with
  | mk left u =>
    cases left with
    | nil => exact absurd (by rw [hd]) h
    | cons b bs => simp only [bodyPushes, hd, pushedOf]

/-- A body appends what its statements ask to push, up to the byte that has to wait (R274, R275). -/
theorem stream_runOps {ms : List Micro} (h : Live s) (hms : ∀ m ∈ ms, MicroGood s.cfg m) :
    stream (runOps ms s) = stream s ++ bodyPushes ms s := by
  induction ms generalizing s with
  | nil => simp [bodyPushes]
  | cons m ms ih =>
    have hm := hms m (List.mem_cons_self ..)
    have hlive := h.doMicro hm
    have hstream := stream_doMicro h hm
    obtain ⟨_, hf, _⟩ := id hlive
    obtain ⟨hcfg, _⟩ := doMicro_frame m s
    cases hl : (doMicro m s).1 with
    | nil =>
      have hms' : ∀ x ∈ ms, MicroGood (doMicro m s).2.cfg x := fun x hx => hcfg ▸ hms x (List.mem_cons_of_mem _ hx)
      rw [runOps_cons_done (Prod.ext hl rfl) hf, bodyPushes_cons_done hl, ih hlive hms', hstream, hl,
        pushedOf_nil_right, List.append_assoc]
    | cons b bs =>
      rw [runOps_cons_wait (Prod.ext hl rfl) hf, bodyPushes_cons_wait (by simp [hl]), stream_setBusy, hstream]

/-- The body of a command, run in a live state where nothing of it is taken back. -/
theorem stream_orFault_runOps {ms : List Micro} (h : Live s) (hms : ∀ m ∈ ms, MicroGood s.cfg m) :
    stream (s.orFault (runOps ms s)) = stream s ++ bodyPushes ms s := by
  rw [h.orFault_runOps hms, stream_runOps h hms]

/-! ## Commands -/

/-- What a body of one push pushes. -/
theorem bodyPushes_push (bs : List Byte) (s : State) : bodyPushes [.push bs] s = pushedOf bs (pushBytes bs s).1 := by
  by_cases h : (doMicro (.push bs) s).1 = []
  · rw [bodyPushes_cons_done h, show (pushBytes bs s).1 = [] from h]
    simp [bodyPushes, Micro.asked]
  · exact bodyPushes_cons_wait h

/-- One evaluation from the command port appends its event's bytes, up to the one that has to wait (R165, R166). -/
theorem stream_evaluate {line : Line} {k : Byte} {d : Bool} {time : U32} (h : Live s) (hk : k.toNat < s.cfg.numKeys) :
    stream (evaluate line k d time s) = stream s ++
      bodyPushes [.push (eventBytes s.cfg line k.toNat (s.ks.getD k.toNat KeyEntry.initial) d time)] s := by
  have hlive : Live (evalKey line k.toNat d time s).2 := h.eval hk
  obtain ⟨hmsg, hstream⟩ := evalKey_stream (line := line) (d := d) (time := time) h hk
  obtain ⟨_, hf, _⟩ := id hlive
  have hleft (bs : List Byte) : (pushBytes bs (evalKey line k.toNat d time s).2).1 = (pushBytes bs s).1 := by
    rw [evalKey_frame]
    exact pushBytes_left_congr bs rfl rfl
  simp only [evaluate, hf, Bool.false_eq_true, if_false]
  rw [hlive.orFault_runOps (push_good _ _), stream_runOps hlive (push_good _ _), hstream, hmsg, bodyPushes_push,
    bodyPushes_push, hleft]

/-- The pushes of EMIT_HIT and EMIT_REL, whose message a legal configuration gives (R223, R224). -/
theorem stream_emitMessage {m : Option Message} (h : Live s) (hm : ∃ x, m = some x) :
    stream (emitMessage m s) = stream s ++ bodyPushes [.push (messageBytes m)] s := by
  obtain ⟨x, rfl⟩ := hm
  exact stream_orFault_runOps h (push_good _ _)

@[simp] theorem stream_resFlag (flag : Bool) (s : State) : stream (resFlag flag s) = stream s := by
  unfold resFlag
  split_ifs <;> rfl

@[simp] theorem stream_resMessage (m : Option Message) (s : State) : stream (resMessage m s) = stream s := by
  cases m <;> rfl

/-- A command the port accepted answers what its meaning answers. -/
theorem accept_meaning {f : State → Host.Outcome State Fault Refusal} (h : accept s f = .next t) : f s = .next t := by
  obtain ⟨_, _, _, _, _, h⟩ := accept_next h
  exact h

/-- An accepted command on a key answers what its meaning answers, on a key that exists. -/
theorem accept_withKey_meaning {k : Byte} {f : State → Host.Outcome State Fault Refusal}
    (h : accept s (withKey k f) = .next t) : k.toNat < s.cfg.numKeys ∧ f s = .next t :=
  withKey_next (accept_meaning h)

/-- An accepted command whose meaning always answers a next state answers that state. -/
theorem accept_answer {f : State → State} (h : accept s (fun s => .next (f s)) = .next t) : f s = t :=
  have h := accept_meaning h
  Host.Outcome.next.inj h

/-- The same for a command on a key, which then exists. -/
theorem accept_withKey_answer {k : Byte} {f : State → State}
    (h : accept s (withKey k fun s => .next (f s)) = .next t) : k.toNat < s.cfg.numKeys ∧ f s = t :=
  (accept_withKey_meaning h).imp id Host.Outcome.next.inj

/-- Every command but RB_TRY_POP appends to the stream exactly the bytes it pushes (R94). -/
theorem stream_exec {i : Instr} (h : Live s) (hpop : i ≠ .rbTryPop) (he : exec i s = .next t) :
    stream t = stream s ++ commandPushes i s := by
  obtain ⟨hc, _, _, hphase, _, ho, _⟩ := id h
  cases i <;> simp only [exec, execSrBeginPass, execSrStep, execSnapRead, execScanBank, execElapsed, execKsmStart,
    execKsmEnd, execVelmap, execNotenum, execEncOn, execEncOff, execEmitHit, execEmitRel, execRbIsEmpty, execRbIsFull,
    execRbDrain, execRbPush, execScanPass, execLoopIter, execRun, execInit, execMidiNoteOn, execMidiNoteOff,
    reduceCtorEq] at he
  case rbTryPop => exact absurd rfl hpop
  case init =>
    split_ifs at he
  case srBeginPass | srStep | snapRead | elapsed | rbIsEmpty | rbIsFull =>
    obtain rfl := accept_answer he
    simp [commandPushes]
  case run =>
    obtain rfl := accept_answer he
    exact (List.append_nil _).symm
  case rbDrain =>
    obtain rfl := accept_answer he
    split_ifs <;> simp [commandPushes, stream_drain ho]
  case velmap =>
    have he := accept_meaning he
    split at he <;> obtain rfl := Host.Outcome.next.inj he <;> simp [commandPushes]
  case notenum =>
    obtain ⟨_, he⟩ := accept_withKey_meaning he
    split at he <;> obtain rfl := Host.Outcome.next.inj he <;> simp [commandPushes]
  case encOn =>
    obtain ⟨_, he⟩ := accept_withKey_meaning he
    split_ifs at he
    obtain rfl := Host.Outcome.next.inj he
    simp [commandPushes]
  case encOff =>
    obtain ⟨_, rfl⟩ := accept_withKey_answer he
    simp [commandPushes]
  case rbPush =>
    obtain rfl := accept_answer he
    exact stream_orFault_runOps h (push_good _ _)
  case scanPass =>
    obtain rfl := accept_answer he
    exact stream_orFault_runOps h (scanPassBody_good _)
  case loopIter =>
    obtain rfl := accept_answer he
    exact stream_orFault_runOps h (loopIterBody_good _)
  case scanBank =>
    have he := accept_meaning he
    split_ifs at he with hb
    obtain rfl := Host.Outcome.next.inj he
    exact stream_orFault_runOps h (scanBankBody_good (by simpa [bankInRange] using hb))
  case ksmStart | ksmEnd =>
    obtain ⟨hk, rfl⟩ := accept_withKey_answer he
    exact stream_evaluate h hk
  case emitHit =>
    obtain ⟨hk, rfl⟩ := accept_withKey_answer he
    exact stream_emitMessage h (hc.hitMessage hk _)
  case emitRel =>
    obtain ⟨hk, rfl⟩ := accept_withKey_answer he
    exact stream_emitMessage h (hc.encodeOff hk)

/-! ## The port takes no part in what is pushed

A step takes its command off the port before the command runs; `commandPushes` is stated of the state before that. -/

/-- The commands that stand on the port. -/
def State.setPort (p : List Wire) (s : State) : State := { s with port := p }

@[simp] theorem setPort_cfg (p : List Wire) (s : State) : (s.setPort p).cfg = s.cfg := rfl
@[simp] theorem setPort_ks (p : List Wire) (s : State) : (s.setPort p).ks = s.ks := rfl
@[simp] theorem setPort_orb (p : List Wire) (s : State) : (s.setPort p).orb = s.orb := rfl
@[simp] theorem setPort_seq (p : List Wire) (s : State) : (s.setPort p).seq = s.seq := rfl
@[simp] theorem setPort_fault (p : List Wire) (s : State) : (s.setPort p).fault = s.fault := rfl

theorem tryPop_setPort (p : List Wire) (s : State) : tryPop (s.setPort p) = ((tryPop s).1, (tryPop s).2.setPort p) := by
  by_cases hr : s.orb.inRange s.cfg.rbCapacity = true
  · by_cases he : s.orb.isEmpty = true
    · simp only [tryPop, setPort_cfg, setPort_orb, hr, he, if_true]
    · simp only [tryPop, setPort_cfg, setPort_orb, hr, he, if_true]
      cases Memory.read s.orb.mem s.orb.outIdx <;> rfl
  · simp only [tryPop, setPort_cfg, setPort_orb, hr]
    rfl

theorem drain_setPort (p : List Wire) (s : State) : drain (s.setPort p) = ((drain s).1, (drain s).2.setPort p) := by
  have hquery : txReady (s.setPort p) = ((txReady s).1, (txReady s).2.setPort p) := rfl
  simp only [drain, setPort_cfg, setPort_orb, hquery]
  split_ifs
  · rfl
  · obtain ⟨r, u⟩ := txReady s
    cases r with
    | false => rfl
    | true =>
      simp only [tryPop_setPort]
      obtain ⟨b, v⟩ := tryPop u
      cases b <;> rfl
  · rfl

theorem pushBytes_setPort (bs : List Byte) (p : List Wire) (s : State) :
    pushBytes bs (s.setPort p) = ((pushBytes bs s).1, (pushBytes bs s).2.setPort p) := by
  induction bs generalizing s with
  | nil => rfl
  | cons b bs ih =>
    simp only [pushBytes, setPort_cfg, setPort_orb, drain_setPort]
    split_ifs
    · rfl
    · exact ih (s.setOrb (s.orb.put s.cfg.rbCapacity b))
    · rfl

theorem evalKey_setPort (line : Line) (k : Nat) (d : Bool) (time : U32) (p : List Wire) (s : State) :
    evalKey line k d time (s.setPort p) = ((evalKey line k d time s).1, (evalKey line k d time s).2.setPort p) := by
  simp only [evalKey, setPort_cfg, setPort_ks]
  split
  · rfl
  · split
    · rfl
    · rfl
    · split <;> rfl
    · split <;> rfl
    · rfl
    · rfl

/-- A statement does the same whatever stands on the port. -/
theorem doMicro_setPort (m : Micro) (p : List Wire) (s : State) :
    doMicro m (s.setPort p) = ((doMicro m s).1, (doMicro m s).2.setPort p) := by
  have heval (line : Line) (q k : Nat) (d : Bool) (time : U32) :
      evalKey line k d time ((s.setPort p).setPos q) = ((evalKey line k d time (s.setPos q)).1,
        (evalKey line k d time (s.setPos q)).2.setPort p) := evalKey_setPort line k d time p (s.setPos q)
  cases m with
  | push bs => exact pushBytes_setPort bs p s
  | drain => simp only [doMicro, drain_setPort]
  | beginPass => simp only [doMicro, beginPass_eq]; rfl
  | srStep => simp only [doMicro, stepChain_eq]; rfl
  | snapRead w => rfl
  | setBank b => rfl
  | setPos q => rfl
  | evalStart b q =>
    simp only [doMicro, heval, setPort_seq, setPort_fault, pushBytes_setPort]
    split_ifs <;> rfl
  | evalEnd b q =>
    simp only [doMicro, heval, setPort_seq, setPort_fault, pushBytes_setPort]
    split_ifs <;> rfl

theorem bodyPushes_setPort (ms : List Micro) (p : List Wire) (s : State) :
    bodyPushes ms (s.setPort p) = bodyPushes ms s := by
  induction ms generalizing s with
  | nil => rfl
  | cons m ms ih =>
    have hleft : (doMicro m (s.setPort p)).1 = (doMicro m s).1 := by rw [doMicro_setPort]
    by_cases h : (doMicro m s).1 = []
    · rw [bodyPushes_cons_done h, bodyPushes_cons_done (hleft.trans h), doMicro_setPort, ih]
      rfl
    · rw [bodyPushes_cons_wait h, bodyPushes_cons_wait (hleft ▸ h), hleft]
      rfl

theorem commandPushes_setPort (i : Instr) (p : List Wire) (s : State) :
    commandPushes i (s.setPort p) = commandPushes i s := by
  cases i <;> simp only [commandPushes, bodyPushes_setPort, setPort_cfg, setPort_ks]

/-! ## The sequencer -/

/-- P_START_EVAL and P_END_EVAL push nothing: an event's message goes to SEQ.MSG (R292). -/
theorem stream_seqEval {line : Line} {mask : Byte} {time : U32} {ret : RetPhase} {after : Phase} (h : Live s) :
    stream (seqEval line mask time ret after s) = stream s := by
  obtain ⟨hc, _, _, _, _, _, _, ⟨hbank, _⟩, _⟩ := id h
  simp only [seqEval]
  split_ifs with h8 hin hf
  · rfl
  · obtain ⟨hpos, _⟩ := hin
    exact (evalKey_stream h (hc.keyId_lt hbank hpos)).2
  · obtain ⟨hpos, _⟩ := hin
    have he := (evalKey_stream (line := line) (d := buttonDown mask s.seq.pos) (time := time) h
      (hc.keyId_lt hbank hpos)).2
    split <;> exact he
  · rfl

/-- P_PUSH appends the next byte of SEQ.MSG where there is room, and none where it drains (R292, R294). -/
theorem stream_seqPush (h : Live s) (hp : s.seq.phase = .push) :
    stream (seqPush s) = stream s ++ sequencerPushes s := by
  obtain ⟨_, _, _, _, _, ho, _, ⟨_, _, hn, hpush⟩, _⟩ := h
  have hn1 := hpush hp
  obtain ⟨b, hb⟩ := s.seq.msg.byte_of_lt (i := 3 - s.seq.msgN) (by omega)
  rw [seqPush, if_pos ⟨ho.inRange, hn1, hn⟩]
  cases hf : s.orb.isFull s.cfg.rbCapacity with
  | true => simp [sequencerPushes, hf, stream_drain ho]
  | false =>
    obtain ⟨_, hin, hout, _⟩ := ho
    have hbytes := Orb.bytes_put b hin hout hf
    simp [sequencerPushes, hp, hf, hb, stream, outstanding, hbytes]

theorem sequencerPushes_of_ne_push (h : s.seq.phase ≠ .push) : sequencerPushes s = [] :=
  if_neg fun ⟨hp, _⟩ => h hp

/-- A step of the sequencer appends what P_PUSH pushes, and nothing in any other phase (R292). -/
theorem stream_seqStep (h : Live s) (hs : seqStep s = .next t) : stream t = stream s ++ sequencerPushes s := by
  obtain ⟨_, _, _, hinit, _, ho, _⟩ := id h
  by_cases hpush : s.seq.phase = .push
  · simp only [seqStep, hpush, Host.Outcome.next.injEq] at hs
    exact hs ▸ stream_seqPush h hpush
  rw [sequencerPushes_of_ne_push hpush, List.append_nil]
  cases hp : s.seq.phase <;> simp only [seqStep, hp, Host.Outcome.next.injEq, reduceCtorEq] at hs <;> subst hs
  case init => exact absurd hp hinit
  case push => exact absurd hp hpush
  case iterDrain => split_ifs <;> simp [stream_drain ho]
  case passBegin => simp
  case startRead => simp
  case startEval => exact stream_seqEval h
  case stepToEnd => simp
  case endRead => simp
  case endEval => exact stream_seqEval h
  case stepToNext =>
    simp only [seqNextBank]
    split_ifs <;> simp

/-! ## The steps of the machine -/

/-- Settles O57: more of a body, a step of the sequencer and a command from the port each append to the stream the bytes
they push (`stream_runOps`, `stream_seqStep`, `stream_exec`). -/
theorem bytesAreSentInPushOrder : Obligations.BytesAreSentInPushOrder := by
  intro s t h hs hpop
  obtain ⟨_, _, _, hinit, _, _, _, _, hbusy⟩ := id h
  rcases (step_next hs).2 with ⟨hb, rfl⟩ | ⟨hb, hr, hseq⟩ | ⟨hb, hr, w, rest, i, hport, hd, he⟩ | ⟨_, _, _, hphase, _⟩
  · have hpushes : stepPushes s = bodyPushes s.busy s := by
      obtain ⟨m, ms, hms⟩ := List.exists_cons_of_ne_nil hb
      simp only [stepPushes, hms]
    exact hpushes ▸ stream_orFault_runOps h hbusy
  · have hpushes : stepPushes s = sequencerPushes s := by simp [stepPushes, hb, hr]
    exact hpushes ▸ stream_seqStep h hseq
  · have hpushes : stepPushes s = commandPushes i (s.setPort rest) := by
      simp [stepPushes, hb, hr, hport, hd, commandPushes_setPort]
    have hlive : Live (s.setPort rest) := h
    have hi : i ≠ .rbTryPop := fun e => hpop w rest hb hr hport (e ▸ hd)
    exact hpushes ▸ stream_exec hlive hi he
  · exact absurd hphase hinit

/-! ## Operations that read -/

/-- What a reading operation leaves: only RES written, or, where the configuration or an index of the ring buffer is out
of its range, only FAULT (R80, R326). -/
def OnlyResult (s t : State) : Prop :=
  t = { s with res := t.res } ∨
    (¬(ConfigOk s.cfg ∧ s.orb.inIdx < s.cfg.rbCapacity ∧ s.orb.outIdx < s.cfg.rbCapacity) ∧
      t = { s with fault := true })

theorem OnlyResult.setRes (r : Result) (s : State) : OnlyResult s (s.setRes r) := .inl rfl

theorem OnlyResult.raiseFault_of_range (h : s.orb.inRange s.cfg.rbCapacity ≠ true) : OnlyResult s s.raiseFault :=
  .inr ⟨fun ⟨_, hi, ho⟩ => h (Orb.inRange_iff.2 ⟨hi, ho⟩), rfl⟩

theorem OnlyResult.raiseFault_of_config (h : ¬ConfigOk s.cfg) : OnlyResult s s.raiseFault :=
  .inr ⟨fun ⟨hc, _⟩ => h hc, rfl⟩

theorem OnlyResult.resFlag (flag : Bool) (s : State) : OnlyResult s (resFlag flag s) := by
  unfold Machine.resFlag
  split_ifs with h
  · exact .setRes _ s
  · exact .raiseFault_of_range h

theorem OnlyResult.resMessage {m : Option Message} (hm : ConfigOk s.cfg → ∃ x, m = some x) :
    OnlyResult s (resMessage m s) := by
  cases m with
  | some x => exact .setRes _ s
  | none => exact .raiseFault_of_config fun hc => by simpa using hm hc

/-- A command that reads writes RES alone, in every state (R80). -/
theorem exec_onlyResult {i : Instr} {k v : Byte} {t0 t1 : U32}
    (hi : i ∈ [Instr.rbIsEmpty, .rbIsFull, .elapsed t0 t1, .velmap t0, .notenum k, .encOn k v, .encOff k])
    (he : exec i s = .next t) : OnlyResult s t := by
  simp only [List.mem_cons, List.not_mem_nil, or_false] at hi
  rcases hi with rfl | rfl | rfl | rfl | rfl | rfl | rfl <;> simp only [exec, execRbIsEmpty, execRbIsFull, execElapsed,
    execVelmap, execNotenum, execEncOn, execEncOff] at he
  · exact accept_answer he ▸ .resFlag _ s
  · exact accept_answer he ▸ .resFlag _ s
  · exact accept_answer he ▸ .setRes _ s
  · have he := accept_meaning he
    split at he
    · exact Host.Outcome.next.inj he ▸ .setRes _ s
    · next hnone =>
      exact Host.Outcome.next.inj he ▸ .raiseFault_of_config fun hc => by simpa [hnone] using hc.velocityOf t0
  · obtain ⟨hk, he⟩ := accept_withKey_meaning he
    split at he
    · exact Host.Outcome.next.inj he ▸ .setRes _ s
    · next hnone =>
      exact Host.Outcome.next.inj he ▸ .raiseFault_of_config fun hc => by simp [hc.noteOf hk] at hnone
  · obtain ⟨hk, he⟩ := accept_withKey_meaning he
    split_ifs at he
    exact Host.Outcome.next.inj he ▸ .resMessage fun hc => hc.encodeOn hk v
  · obtain ⟨hk, rfl⟩ := accept_withKey_answer he
    exact .resMessage fun hc => hc.encodeOff hk

/-- Settles O52: each reading operation answers its result, or faults for want of a value that a legal configuration and
indices in range give (`exec_onlyResult`). -/
theorem queriesWriteOnlyTheResult : Obligations.QueriesWriteOnlyTheResult := fun _ _ _ _ _ _ _ hi he =>
  exec_onlyResult hi he

end Sys2Proof.Machine

/-! # Proofs: the encoding (spec/30_encoding.md)

First the two message formats and the operation map, each with what it decodes and what it rejects; then what the port
refuses; then that the encoder's messages, and with them the byte stream of the running block, are whole messages. -/

/-! ## The message formats -/

namespace Sys2Proof

/-! The status byte is the type in bits 7..4 and the channel in bits 3..0 (R106, R107). -/

theorem noteOn_status_fields (c : Byte) (hc : c.toNat < 16) :
    (0x90 ||| c) >>> 4 = 0x9 ∧ (0x90 ||| c) &&& 0x0F = c := by
  revert c
  decide

theorem noteOff_status_fields (c : Byte) (hc : c.toNat < 16) :
    (0x80 ||| c) >>> 4 = 0x8 ∧ (0x80 ||| c) &&& 0x0F = c := by
  revert c
  decide

theorem status_of_noteOn (a : Byte) (h : a >>> 4 = 0x9) : 0x90 ||| (a &&& 0x0F) = a := by
  revert a
  decide

theorem status_of_noteOff (a : Byte) (h : a >>> 4 = 0x8) : 0x80 ||| (a &&& 0x0F) = a := by
  revert a
  decide

theorem channel_lt (a : Byte) : (a &&& 0x0F).toNat < 16 := by
  revert a
  decide

/-- The bytes of a Note On with its fields in range are read back (R106). -/
theorem decodeMessage_noteOn {c n v : Byte} (hc : c.toNat < 16) (hn : n.toNat < 128) (hv : v.toNat < 128) :
    decodeMessage (0x90 ||| c) n v = .ok (.midiNoteOn c n v) := by
  obtain ⟨htype, hchannel⟩ := noteOn_status_fields c hc
  rw [decodeMessage, if_pos ⟨htype, hn, hv⟩, hchannel]

/-- The bytes of a Note Off with its fields in range are read back (R107). -/
theorem decodeMessage_noteOff {c n : Byte} (hc : c.toNat < 16) (hn : n.toNat < 128) :
    decodeMessage (0x80 ||| c) n 0 = .ok (.midiNoteOff c n) := by
  obtain ⟨htype, hchannel⟩ := noteOff_status_fields c hc
  have hnotOn : (0x80 ||| c) >>> 4 ≠ 0x9 := by
    rw [htype]
    decide
  rw [decodeMessage, if_neg fun ⟨hon, _⟩ => hnotOn hon, if_pos ⟨htype, hn, rfl⟩, hchannel]

/-- All that three bytes can be read as: a Note On or a Note Off, each of whose fields is in range (R106-R108). -/
theorem decodeMessage_ok {a n v : Byte} {i : Instr} (h : decodeMessage a n v = .ok i) :
    n.toNat < 128 ∧ ∃ c : Byte, c.toNat < 16 ∧
      ((a = 0x90 ||| c ∧ v.toNat < 128 ∧ i = .midiNoteOn c n v) ∨ (a = 0x80 ||| c ∧ v = 0 ∧ i = .midiNoteOff c n)) := by
  unfold decodeMessage at h
  split_ifs at h with hon hoff
  · obtain ⟨htype, hn, hv⟩ := hon
    exact ⟨hn, _, channel_lt a, .inl ⟨(status_of_noteOn a htype).symm, hv, (Except.ok.inj h).symm⟩⟩
  · obtain ⟨htype, hn, hv⟩ := hoff
    exact ⟨hn, _, channel_lt a, .inr ⟨(status_of_noteOff a htype).symm, hv, (Except.ok.inj h).symm⟩⟩

/-- Settles O1: a command's ports hold its operands, by the row of the map; the one-bit ports W and D are split into
their two values, and the messages are `decodeMessage_noteOn` and `decodeMessage_noteOff`. -/
theorem decodeEncodeAgree : Obligations.DecodeEncodeAgree := by
  intro i hwf
  cases i with
  | midiNoteOn c n v =>
    simp only [Instr.wf, wfChannel, wfData, Bool.and_eq_true, decide_eq_true_eq] at hwf
    obtain ⟨⟨hc, hn⟩, hv⟩ := hwf
    exact decodeMessage_noteOn hc hn hv
  | midiNoteOff c n =>
    simp only [Instr.wf, wfChannel, wfData, Bool.and_eq_true, decide_eq_true_eq] at hwf
    obtain ⟨hc, hn⟩ := hwf
    exact decodeMessage_noteOff hc hn
  | snapRead w => cases w <;> rfl
  | ksmStart k d t0 => cases d <;> rfl
  | ksmEnd k d t0 => cases d <;> rfl
  | _ => rfl

/-- Settles O2: of the two readings `decodeMessage_ok` leaves, each encodes to the bytes it was read from. -/
theorem messageBytesHaveOneReading : Obligations.MessageBytesHaveOneReading := by
  intro a n v i h
  obtain ⟨hn, c, hc, ⟨rfl, hv, rfl⟩ | ⟨rfl, rfl, rfl⟩⟩ := decodeMessage_ok h
  · exact ⟨rfl, by simp [Instr.wf, wfChannel, wfData, hc, hn, hv]⟩
  · exact ⟨rfl, by simp [Instr.wf, wfChannel, wfData, hc, hn]⟩

/-! ## The operation map -/

/-- The OPSEL values R114 lists. -/
def opselCodes : List Nat :=
  [0x01, 0x02, 0x03, 0x04, 0x10, 0x11, 0x12, 0x20, 0x30, 0x31, 0x32, 0x33, 0x34, 0x40, 0x41, 0x42, 0x43, 0x44, 0x50,
    0x51, 0x52, 0xF0]

/-- A listed OPSEL value is decoded and any other is reserved, whatever the operand ports hold (R114, R118). -/
theorem decodePorts_cases (p : Ports) :
    (p.opsel.toNat ∈ opselCodes ∧ ∃ i, decodePorts p = .ok i) ∨
    (p.opsel.toNat ∉ opselCodes ∧ decodePorts p = .error (.reservedOpcode p.opsel)) := by
  unfold decodePorts
  split
  case h_23 => exact .inr ⟨by simp_all [opselCodes], rfl⟩
  all_goals exact .inl ⟨by simp_all [opselCodes], _, rfl⟩

/-- The ranges of R118 are the byte values that R114 does not list. -/
theorem not_mem_opselCodes_iff {c : Nat} (hc : c < 256) :
    c ∉ opselCodes ↔ c = 0x00 ∨ (0x05 ≤ c ∧ c ≤ 0x0F) ∨ (0x13 ≤ c ∧ c ≤ 0x1F) ∨ (0x21 ≤ c ∧ c ≤ 0x2F)
      ∨ (0x35 ≤ c ∧ c ≤ 0x3F) ∨ (0x45 ≤ c ∧ c ≤ 0x4F) ∨ (0x53 ≤ c ∧ c ≤ 0xEF) ∨ (0xF1 ≤ c ∧ c ≤ 0xFF) := by
  simp only [opselCodes, List.mem_cons, List.not_mem_nil, or_false]
  omega

/-- Settles O4, by evaluation of the decoder. -/
theorem sampleWordsDecode : Obligations.SampleWordsDecode :=
  ⟨rfl, rfl, rfl, rfl, rfl, rfl, rfl, rfl, rfl, rfl, rfl⟩

end Sys2Proof

/-! ## A step at the command port -/

namespace Sys2Proof.Machine

variable {s : State}

/-- Before RUN a step with nothing in progress reads the head of the port. -/
theorem step_of_port {w : Wire} {rest : List Wire} (hf : s.fault = false) (hb : s.busy = []) (hr : s.running = false)
    (hp : s.port = w :: rest) : step s = stepCommand w rest s := by
  simp only [step, hf, hb, hr, hp, Bool.false_eq_true, if_false]

theorem stepCommand_ok {w : Wire} {i : Instr} (h : decode w = .ok i) (rest : List Wire) (s : State) :
    stepCommand w rest s = exec i { s with port := rest } := by
  rw [stepCommand, h]

theorem stepCommand_error {w : Wire} {e : DecodeError} (h : decode w = .error e) (rest : List Wire) (s : State) :
    stepCommand w rest s = .refused .reservedOpcode := by
  rw [stepCommand, h]

theorem decode_of_decodeTableWord {nbits w : Nat} {i : Instr} (h : decodeTableWord nbits w = some i) :
    decode (wireOfTableWord nbits w) = .ok i := by
  unfold decodeTableWord at h
  split at h
  · next hd => exact hd.trans (congrArg _ (Option.some.inj h))
  · cases h

/-- Settles O3: the ranges of R118 are the values that R114 does not list, which `decodePorts_cases` rejects. -/
theorem reservedCodesAreRefused : Obligations.ReservedCodesAreRefused := by
  intro p c reserved
  have hreserved : reserved ↔ c ∉ opselCodes := (not_mem_opselCodes_iff p.opsel.isLt).symm
  rw [hreserved]
  rcases decodePorts_cases p with ⟨hlisted, i, hi⟩ | ⟨hunlisted, herror⟩
  · exact ⟨iff_of_false (not_not.2 hlisted) fun h => h i hi, fun _ _ _ _ _ _ h => absurd hlisted h⟩
  · have hd : decode (.op8 p) = .error (.reservedOpcode p.opsel) := herror
    refine ⟨iff_of_true hunlisted fun i => by simp [hd], fun s rest hf hb hr hp _ => ?_⟩
    rw [step_of_port hf hb hr hp, stepCommand_error hd]

/-- Settles O5: a step reads the head of the port, which is the word itself under `withFetchWord`. -/
theorem stepRunsTheDecodedCommand : Obligations.StepRunsTheDecodedCommand := by
  refine ⟨fun s w rest i hf hb hr hp hd => ?_, fun s nbits w i hf hr hd => ?_⟩
  · rw [step_of_port hf hb hr hp, stepCommand_ok hd]
  · have hp : (s.withFetchWord nbits w).port = wireOfTableWord nbits w :: s.port := rfl
    rw [step_of_port (s := s.withFetchWord nbits w) hf rfl hr hp, stepCommand_ok (decode_of_decodeTableWord hd)]
    rfl

/-! ## Refusals -/

/-- Every command but INIT stands behind the lifecycle's checks (R120). -/
theorem exec_eq_accept {i : Instr} (hinit : i ≠ .init) (hon : ∀ c n v, i ≠ .midiNoteOn c n v)
    (hoff : ∀ c n, i ≠ .midiNoteOff c n) (s : State) : ∃ f, exec i s = accept s f := by
  cases i with
  | init => exact absurd rfl hinit
  | midiNoteOn c n v => exact absurd rfl (hon c n v)
  | midiNoteOff c n => exact absurd rfl (hoff c n)
  | _ =>
    simp only [exec, execSrBeginPass, execSrStep, execSnapRead, execScanBank, execElapsed, execKsmStart, execKsmEnd,
      execVelmap, execNotenum, execEncOn, execEncOff, execEmitHit, execEmitRel, execRbIsEmpty, execRbIsFull,
      execRbTryPop, execRbDrain, execRbPush, execScanPass, execLoopIter, execRun]
    exact ⟨_, rfl⟩

/-- Settles O44: INIT's own checks, and `accept` for every other command. -/
theorem lifecycleRefusesCommands : Obligations.LifecycleRefusesCommands := by
  intro s i hf hb hon hoff
  by_cases hinit : i = .init
  · subst hinit
    refine ⟨fun h => absurd rfl h, fun _ hr => ?_, fun _ hr hrun => ?_, fun ⟨_, _, hr, hrun, hp⟩ _ => ?_⟩
    · simp [exec, execInit, hf, hb, hr]
    · simp [exec, execInit, hf, hb, hr, hrun]
    · simp [exec, execInit, hf, hb, hr, hrun, hp]
  · obtain ⟨f, hexec⟩ := exec_eq_accept hinit hon hoff s
    rw [hexec]
    refine ⟨fun _ hp => ?_, fun hp hr => ?_, fun hp hr hrun => ?_, fun _ h => absurd h hinit⟩
    · simp [accept, hf, hb, hp]
    · simp [accept, hf, hb, hp, hr]
    · simp [accept, hf, hb, hp, hr, hrun]

/-- An operand K that is no key id is refused, whatever the command would do with it (R120). -/
theorem accept_withKey_refused {k : Byte} (h : PortOpen s) (hk : s.cfg.numKeys ≤ k.toNat)
    (f : State → Host.Outcome State Fault Refusal) : accept s (withKey k f) = .refused (.operandRange .k) := by
  rw [accept_of_open h, withKey, if_neg (by simpa [keyInRange] using hk)]

/-- A key id in range leaves the command to its meaning. -/
theorem accept_withKey_of_lt {k : Byte} (h : PortOpen s) (hk : k.toNat < s.cfg.numKeys)
    (f : State → Host.Outcome State Fault Refusal) : accept s (withKey k f) = f s := by
  rw [accept_of_open h, withKey, if_pos (by simpa [keyInRange] using hk)]

/-- Settles O45: the seven operations that read K test it first (`accept_withKey_refused`), SCAN_BANK tests BK and
ENC_ON, for a key that exists, V. -/
theorem outOfRangeOperandsAreRefused : Obligations.OutOfRangeOperandsAreRefused := by
  intro s h
  refine ⟨fun k v d t hk => ?_, fun bk hbk => ?_, fun k v hk hv => ?_⟩
  · have hrefused := accept_withKey_refused h hk
    exact ⟨hrefused _, hrefused _, hrefused _, hrefused _, hrefused _, hrefused _, hrefused _⟩
  · have hbank : ¬bankInRange s.cfg bk = true := by simpa [bankInRange] using hbk
    rw [exec, execScanBank, accept_of_open h, if_neg hbank]
  · have hvelocity : ¬velocityInRange v = true := by simpa [velocityInRange] using hv
    rw [exec, execEncOn, accept_withKey_of_lt h hk, if_neg hvelocity]

end Sys2Proof.Machine

/-! ## The encoder's messages -/

namespace Sys2Proof.Machine

variable {c : Cfg} {s t : State}

/-- VELMAP answers a MIDI velocity that is not 0 (R204). -/
theorem ConfigOk.velocityOf_range {d : U32} {v : Byte} (h : ConfigOk c) (hv : Machine.velocityOf c d = some v) :
    1 ≤ v.toNat ∧ v.toNat < 128 := by
  obtain ⟨_, _, _, _, _, ⟨hmin, hle, hmax⟩, _⟩ := configOk_iff_facts.1 h
  rw [Machine.velocityOf, if_pos h.velocityOk] at hv
  have hclamp : c.minVelocity ≤ clamp (velocityRaw c d) c.minVelocity c.maxVelocity ∧
      clamp (velocityRaw c d) c.minVelocity c.maxVelocity ≤ c.maxVelocity :=
    ⟨le_min (le_max_right ..) hle, min_le_right ..⟩
  obtain rfl := Option.some.inj hv
  rw [BitVec.toNat_ofNat]
  omega

/-- Every key of a legal configuration has its own note, a 7-bit value (R109). -/
theorem ConfigOk.noteOf_range {k : Nat} (h : ConfigOk c) (hk : k < c.numKeys) :
    ∃ n, Machine.noteOf c k = some n ∧ (n.toNat : Int) = (k : Int) + c.noteOffset ∧ n.toNat < 128 := by
  obtain ⟨_, _, ⟨hlow, hhigh⟩, _⟩ := configOk_iff_facts.1 h
  refine ⟨_, h.noteOf hk, ?_⟩
  rw [BitVec.toNat_ofNat]
  omega

/-- The channel of a legal configuration is a 4-bit value. -/
theorem ConfigOk.channel_lt (h : ConfigOk c) : (BitVec.ofNat 8 c.midiChannel).toNat < 16 := by
  obtain ⟨_, _, _, _, _, _, hchannel, _⟩ := configOk_iff_facts.1 h
  rw [BitVec.toNat_ofNat]
  omega

/-- Settles O7: the fields of both messages are in the ranges for which `decodeMessage` reads them back. -/
theorem encodedEventsAreMidiMessages : Obligations.EncodedEventsAreMidiMessages := by
  intro c k d h hk
  obtain ⟨n, hn, hnote, hdata⟩ := h.noteOf_range hk
  obtain ⟨v, hv⟩ := h.velocityOf d
  obtain ⟨hpos, hlt⟩ := h.velocityOf_range hv
  have hne : v ≠ 0 := fun hzero => by simp [hzero] at hpos
  exact ⟨⟨{ status := noteOnStatus c, note := n, velocity := v }, by simp [hitMessage, hv, encodeOn, hn], hnote, hne,
      decodeMessage_noteOn h.channel_lt hdata hlt⟩,
    { status := noteOffStatus c, note := n, velocity := 0 }, by simp [encodeOff, hn], hnote, rfl,
      decodeMessage_noteOff h.channel_lt hdata⟩

/-! ## Whole messages in a byte stream -/

/-- These bytes are a sequence of whole messages (R124). -/
def WholeMessages (bs : List Byte) : Prop := ∃ is, readStream bs = some is

/-- A message at the head of a stream is read first. -/
theorem readStream_cons {status note velocity : Byte} {i : Instr} (h : decode (.midi3 status note velocity) = .ok i)
    (rest : List Byte) : readStream (status :: note :: velocity :: rest) = (readStream rest).map (i :: ·) := by
  simp only [readStream, h]
  cases readStream rest <;> rfl

/-- After a sequence of whole messages the reading goes on with the next status byte (R124). -/
theorem readStream_append {as : List Byte} {is : List Instr} (bs : List Byte) (h : readStream as = some is) :
    readStream (as ++ bs) = (readStream bs).map (is ++ ·) := by
  induction as using readStream.induct generalizing is with
  | case1 =>
    obtain rfl := Option.some.inj h
    simp
  | case2 status note velocity rest i is' hrest hd ih =>
    rw [readStream_cons hd, hrest] at h
    obtain rfl := Option.some.inj h
    simp only [List.cons_append, readStream_cons hd, ih hrest, Option.map_map]
    rfl
  | case3 status note velocity rest hno =>
    simp only [readStream] at h
    cases h
  | case4 as hnil hcons =>
    unfold readStream at h
    split at h
    · exact (hnil rfl).elim
    · exact (hcons _ _ _ _ rfl).elim
    · cases h

theorem readStream_message {m : Message} {i : Instr} (h : decode (.midi3 m.status m.note m.velocity) = .ok i) :
    readStream m.bytes = some [i] :=
  readStream_cons h []

theorem wholeMessages_nil : WholeMessages [] := ⟨[], rfl⟩

/-- The bytes of a key's event are whole messages (R225). -/
theorem wholeMessages_eventBytes {k : Nat} (h : ConfigOk c) (hk : k < c.numKeys) (line : Line) (e : KeyEntry) (d : Bool)
    (time : U32) : WholeMessages (eventBytes c line k e d time) := by
  cases ht : transition c line e d time with
  | hit _ du =>
    obtain ⟨⟨m, hm, _, _, hd⟩, _⟩ := encodedEventsAreMidiMessages c k du h hk
    simp only [eventBytes, ht, hm]
    exact ⟨_, readStream_message hd⟩
  | release =>
    obtain ⟨_, m, hm, _, _, hd⟩ := encodedEventsAreMidiMessages c k time h hk
    simp only [eventBytes, ht, hm]
    exact ⟨_, readStream_message hd⟩
  | keep | move | inconsistent | illegal =>
    simp only [eventBytes, ht]
    exact wholeMessages_nil

/-! ## What is left to push -/

theorem unpushed_of_msgN_zero {q : Seq} (h : q.msgN = 0) : unpushed q = [] := by
  simp [unpushed, h, Message.bytes]

theorem unpushed_of_msgN_three {q : Seq} (h : q.msgN = 3) : unpushed q = q.msg.bytes := by
  simp [unpushed, h]

/-- The next byte of SEQ.MSG is the first of those still to push (R44). -/
theorem unpushed_eq_cons {q : Seq} {b : Byte} (hn : 1 ≤ q.msgN) (hn' : q.msgN ≤ 3)
    (hb : q.msg.byte (3 - q.msgN) = some b) (p : Phase) :
    unpushed q = b :: unpushed { q with msgN := q.msgN - 1, phase := p } := by
  obtain ⟨hlt, hget⟩ := List.getElem?_eq_some_iff.1 hb
  have hnext : 3 - (q.msgN - 1) = 3 - q.msgN + 1 := by omega
  simp only [unpushed, hnext]
  rw [List.drop_eq_getElem_cons hlt, hget]

/-- What a sequencer step leaves to push: outside P_PUSH nothing, and what was left before, after the bytes the step
pushes, together with the whole messages of any event. -/
def QueuesWholeMessages (s t : State) : Prop :=
  (t.seq.phase ≠ .push → t.seq.msgN = 0) ∧
    ∃ bs, WholeMessages bs ∧ sequencerPushes s ++ unpushed t.seq = unpushed s.seq ++ bs

/-- A step with nothing to push before or after. -/
theorem QueuesWholeMessages.of_msgN (hp : s.seq.phase ≠ .push) (hs : s.seq.msgN = 0) (ht : t.seq.msgN = 0) :
    QueuesWholeMessages s t :=
  ⟨fun _ => ht, [], wholeMessages_nil, by
    rw [sequencerPushes_of_ne_push hp, unpushed_of_msgN_zero hs, unpushed_of_msgN_zero ht]⟩

/-- An evaluation phase puts the message of an event, if it has one, in SEQ.MSG (R292). -/
theorem seqEval_queues {line : Line} {mask : Byte} {time : U32} {ret : RetPhase} {after : Phase} (h : Live s)
    (hp : s.seq.phase ≠ .push) (hn : s.seq.msgN = 0) :
    QueuesWholeMessages s (seqEval line mask time ret after s) := by
  obtain ⟨hc, hf, _, _, _, _, hks, ⟨hbank, hpos, _⟩, _⟩ := id h
  by_cases h8 : s.seq.pos = 8
  · rw [seqEval, if_pos h8]
    exact .of_msgN hp hn hn
  have hk : keyId s.seq.bank s.seq.pos < s.cfg.numKeys := hc.keyId_lt hbank (by omega)
  obtain ⟨msg, hmsg, he⟩ := evalKey_eq (line := line) (d := buttonDown mask s.seq.pos) (t := time) hc hks hk
  rw [seqEval, if_neg h8, if_pos ⟨by omega, hbank⟩, he]
  simp only [hf, Bool.false_eq_true, if_false]
  cases msg with
  | none => exact .of_msgN hp hn hn
  | some m =>
    refine ⟨fun hne => absurd rfl hne, m.bytes, ?_, ?_⟩
    · exact (show m.bytes = _ from hmsg) ▸ wholeMessages_eventBytes hc hk ..
    · rw [sequencerPushes_of_ne_push hp, unpushed_of_msgN_zero hn, unpushed_of_msgN_three rfl]
      rfl

/-- P_PUSH queues nothing new: the byte it pushes is the next one of SEQ.MSG, and it stays until none is left (R292,
R294). -/
theorem seqPush_queues (h : Live s) (hp : s.seq.phase = .push) : QueuesWholeMessages s (seqPush s) := by
  obtain ⟨_, _, _, _, _, ho, _, ⟨_, _, hn, hpush⟩, _⟩ := h
  have hn1 := hpush hp
  rw [seqPush, if_pos ⟨ho.inRange, hn1, hn⟩]
  cases hfull : s.orb.isFull s.cfg.rbCapacity with
  | true =>
    have hseq : (drain s).2.seq = s.seq := by rw [drain_frame]
    refine ⟨fun hne => absurd (hseq ▸ hp) hne, [], wholeMessages_nil, ?_⟩
    simp [sequencerPushes, hfull, hseq]
  | false =>
    obtain ⟨b, hb⟩ := s.seq.msg.byte_of_lt (i := 3 - s.seq.msgN) (by omega)
    simp only [hb, Bool.false_eq_true, if_false]
    refine ⟨fun hne => ?_, [], wholeMessages_nil, ?_⟩
    · by_contra hleft
      exact hne (if_neg hleft)
    · rw [List.append_nil, unpushed_eq_cons hn1 hn hb]
      simp only [sequencerPushes, hp, hfull, hb, and_self, if_true]
      rfl

/-- Every step of the sequencer pushes from SEQ.MSG alone, and only an event's message is put there (R292). -/
theorem seqStep_queues (h : Live s) (hn : s.seq.phase ≠ .push → s.seq.msgN = 0) (hs : seqStep s = .next t) :
    QueuesWholeMessages s t := by
  obtain ⟨_, _, _, hinit, _⟩ := id h
  by_cases hpush : s.seq.phase = .push
  · simp only [seqStep, hpush, Host.Outcome.next.injEq] at hs
    exact hs ▸ seqPush_queues h hpush
  have hn := hn hpush
  cases hp : s.seq.phase <;> simp only [seqStep, hp, Host.Outcome.next.injEq, reduceCtorEq] at hs <;> subst hs
  case init => exact absurd hp hinit
  case push => exact absurd hp hpush
  case startEval => exact seqEval_queues h hpush hn
  case endEval => exact seqEval_queues h hpush hn
  all_goals refine .of_msgN hpush hn ?_
  case iterDrain =>
    have hdrain : (drain s).2.seq.msgN = 0 := by rw [drain_frame, hn]
    split_ifs <;> exact hdrain
  case passBegin => rw [beginPass_eq]; exact hn
  case startRead => rw [snapRead_eq]; exact hn
  case stepToEnd => rw [stepChain_eq]; exact hn
  case endRead => rw [snapRead_eq]; exact hn
  case stepToNext =>
    simp only [seqNextBank, stepChain_eq]
    split_ifs <;> exact hn

/-- The sequencer goes on from `t` as from `s`: it is running, with no other operation, as before. -/
def SameControl (s t : State) : Prop := t.running = s.running ∧ t.busy = s.busy

theorem SameControl.refl (s : State) : SameControl s s := ⟨rfl, rfl⟩

theorem drain_sameControl (s : State) : SameControl s (drain s).2 := by
  rw [drain_frame]
  exact .refl s

theorem initialise_sameControl (s : State) : SameControl s (initialise s) := by
  rcases initialise_cases s with ⟨_, _, e⟩ | ⟨_, e⟩ <;> rw [e] <;> exact .refl s

theorem seqEval_sameControl (line : Line) (mask : Byte) (time : U32) (ret : RetPhase) (after : Phase) (s : State) :
    SameControl s (seqEval line mask time ret after s) := by
  have he : SameControl s (evalKey line (keyId s.seq.bank s.seq.pos) (buttonDown mask s.seq.pos) time s).2 := by
    rw [evalKey_frame]
    exact .refl s
  simp only [seqEval]
  split_ifs
  · exact .refl s
  · exact he
  · split <;> exact he
  · exact .refl s

theorem seqPush_sameControl (s : State) : SameControl s (seqPush s) := by
  unfold seqPush
  split
  · split
    · exact drain_sameControl s
    · split <;> exact .refl s
  · exact .refl s

/-- No step of the sequencer stops it or leaves an operation in progress (R292). -/
theorem seqStep_sameControl (hs : seqStep s = .next t) : SameControl s t := by
  cases hp : s.seq.phase <;> simp only [seqStep, hp, Host.Outcome.next.injEq, reduceCtorEq] at hs <;> subst hs
  case init => exact initialise_sameControl s
  case iterDrain => split_ifs <;> exact drain_sameControl s
  case passBegin => rw [beginPass_eq]; exact .refl s
  case startRead => rw [snapRead_eq]; exact .refl s
  case startEval => exact seqEval_sameControl ..
  case stepToEnd => rw [stepChain_eq]; exact .refl s
  case endRead => rw [snapRead_eq]; exact .refl s
  case endEval => exact seqEval_sameControl ..
  case stepToNext =>
    simp only [seqNextBank, stepChain_eq]
    split_ifs <;> exact .refl s
  case push => exact seqPush_sameControl s

/-! ## The running block -/

theorem txBytes_initTrace (c : Cfg) : txBytes (initTrace c) = [] := by
  simp [txBytes, initTrace]

/-- An empty buffer has no outstanding bytes. -/
theorem Orb.bytes_of_count_zero {cap : Nat} {o : Orb} (h : o.count cap = 0) : o.bytes cap = [] := by
  simp [Orb.bytes, h]

/-- The sequencer's own INIT, where the configuration is legal: the state is live, running, and nothing has been sent or
stands to be sent (R361). -/
theorem BeforeInit.step_running (h : BeforeInit s) (hc : ConfigOk s.cfg) (htrace : s.trace = []) (hport : s.port = [])
    (hs : Machine.step s = .next t) :
    Live t ∧ t.running = true ∧ t.busy = [] ∧ t.seq.msgN = 0 ∧
      txBytes t.trace ++ outstanding t ++ unpushed t.seq = [] := by
  obtain ⟨_, _, hr, hb, _, hrun⟩ := id h
  rcases (step_next hs).2 with ⟨hb', _⟩ | ⟨_, hrun', _⟩ | ⟨_, _, w, rest, i, hport', _⟩ | ⟨_, _, _, _, rfl⟩
  · exact absurd hb hb'
  · simp [hrun] at hrun'
  · simp [hport] at hport'
  rcases initialise_cases s with ⟨code, hcode, _⟩ | ⟨_, e⟩
  · simp [hc] at hcode
  have hlive : Live (Machine.initialise s) := by
    refine h.initialise.resolve_left fun ⟨_, _, hrefused, _⟩ => ?_
    simp [e, hr] at hrefused
  refine ⟨hlive, ?_⟩
  rw [e]
  refine ⟨by simp [hr], hb, rfl, ?_⟩
  have hcount : ({ s.orb with inIdx := 0, outIdx := 0 } : Orb).count s.cfg.rbCapacity = 0 := by simp [Orb.count]
  simp only [outstanding, Orb.bytes_of_count_zero hcount, unpushed_of_msgN_zero (show Seq.initial.msgN = 0 from rfl),
    htrace, List.nil_append, List.append_nil]
  exact txBytes_initTrace _

/-- Settles O58: by `stream_seqStep` a step appends to the bytes sent and outstanding those it pushes, and by
`seqStep_queues` these and what is then left to push are what was left before and whole messages. -/
theorem theStreamIsWholeMessages : Obligations.TheStreamIsWholeMessages := by
  refine ⟨fun s t h hc htrace hport hs => ?_, fun s t is h hrun hbusy hn hread hs => ?_⟩
  · obtain ⟨hlive, hrun, hbusy, hmsgN, hbytes⟩ := h.step_running hc htrace hport hs
    exact ⟨hlive, hrun, hbusy, hmsgN, hbytes ▸ rfl⟩
  · have hseq : seqStep s = .next t := by
      obtain ⟨_, hf, _⟩ := id h
      simpa [step, hf, hbusy, hrun] using hs
    obtain ⟨hrun', hbusy'⟩ := seqStep_sameControl hseq
    obtain ⟨hmsgN, bs, ⟨js, hjs⟩, hqueue⟩ := seqStep_queues h hn hseq
    refine ⟨h.step hs, hrun'.trans hrun, hbusy'.trans hbusy, hmsgN, js, ?_⟩
    have hbytes : stream t ++ unpushed t.seq = stream s ++ unpushed s.seq ++ bs := by
      rw [stream_seqStep h hseq, List.append_assoc, hqueue, List.append_assoc]
    calc readStream (stream t ++ unpushed t.seq)
        = readStream (stream s ++ unpushed s.seq ++ bs) := congrArg readStream hbytes
      _ = (readStream bs).map (is ++ ·) := readStream_append bs hread
      _ = some (is ++ js) := by rw [hjs]; rfl

end Sys2Proof.Machine

/-! # Proofs: the bank scanner (spec/40_bank_scanner.md)

A statement of a scan is a change of its own and then the pushes of its event (`doMicro_eq_pushBytes`). So all that a
body can do in one step is said once (`runOps_cases`): it ends with every byte stored, or it stops at a full buffer after
one drain attempt. With room the second cannot be. With waits, what is still to come stays the same from step to step
(`Underway`), drains changing nothing a scan reads. -/

/-! ## SR_BEGIN_PASS, SR_STEP and SNAP_READ -/

namespace Sys2Proof.Machine

variable {s : State}

/-- Settles O8: `beginPass_eq`, RES without a value. -/
theorem srBeginPassPlacesTheStimulus : Obligations.SrBeginPassPlacesTheStimulus := by
  refine ⟨fun p hp => by simp [decode, decodePorts, hp], fun s h => ?_⟩
  rw [exec, execSrBeginPass, accept_of_open h, beginPass_eq]
  rfl

theorem exec_srStep (h : PortOpen s) :
    exec .srStep s = .next { s with
      trace := s.trace ++ stepTrace s.cfg, chain := s.chain.map (· + 1), res := .none } := by
  rw [exec, execSrStep, accept_of_open h, stepChain_eq]
  rfl

/-- Settles O9: `exec_srStep`, with `stepTrace` for each value of LATCH_REQUIRED. -/
theorem srStepMovesTheStimulus : Obligations.SrStepMovesTheStimulus := by
  refine ⟨fun p hp => by simp [decode, decodePorts, hp], fun s h => ⟨fun hlatch => ?_, fun hlatch => ?_⟩⟩
  · simp [exec_srStep h, stepTrace, hlatch]
  · simp [exec_srStep h, stepTrace, hlatch]

theorem exec_snapRead {m : Byte} {time : U32} {e1 e2 : Env} (h : PortOpen s) (hm : s.env.drawMask = (m, e1))
    (ht : e1.drawTime = (time, e2)) (w : Line) :
    exec (.snapRead w) s = .next { s with
      seq := s.seq.snap w m time, trace := s.trace ++ [.mask m, .time time], env := e2, res := .snap m time } := by
  rw [exec, execSnapRead, accept_of_open h, snapRead_eq, hm, ht]
  rfl

/-- Settles O10: `exec_snapRead` for each half of the snapshot. -/
theorem snapReadFillsItsHalf : Obligations.SnapReadFillsItsHalf := by
  refine ⟨fun p hp => by simp [decode, decodePorts, lineOfPort, hp], fun s m e1 time e2 h hm ht => ?_⟩
  exact ⟨exec_snapRead h hm ht .startLine, exec_snapRead h hm ht .endLine⟩

end Sys2Proof.Machine

/-! ## A statement's own change, and its pushes -/

namespace Sys2Proof.Machine

variable {s t u : State}

/-- The state after an evaluation of key k, before the pushes of its event: the entry of R162 and any diagnostic. -/
def evaluated (line : Line) (k : Nat) (d : Bool) (time : U32) (s : State) : State :=
  { s with
    ks := s.ks.set k (entryAfter s.cfg line (s.ks.getD k KeyEntry.initial) d time)
    trace := s.trace ++ diagEvents s.cfg line k (s.ks.getD k KeyEntry.initial) d time }

/-- What a statement of a body does before the bytes it asks for are pushed (`doMicro_eq_pushBytes`). -/
def Micro.effect (m : Micro) (s : State) : State :=
  match m with
  | .push _ => s
  | .drain => s
  | .beginPass => Machine.beginPass s
  | .srStep => stepChain s
  | .snapRead w => (Machine.snapRead w s).2
  | .setBank b => s.setBank b
  | .setPos p => s.setPos p
  | .evalStart b p => evaluated .startLine (keyId b p) (buttonDown s.seq.sb p) s.seq.st (s.setPos p)
  | .evalEnd b p =>
    if s.seq.eb = 0 then s else evaluated .endLine (keyId b p) (buttonDown s.seq.eb p) s.seq.et (s.setPos p)

theorem Micro.effect_frame (m : Micro) (s : State) :
    m.effect s = { s with
      ks := (m.effect s).ks, seq := (m.effect s).seq, trace := (m.effect s).trace, chain := (m.effect s).chain,
      env := (m.effect s).env } := by
  cases m with
  | beginPass => simp only [Micro.effect, beginPass_eq]
  | srStep => simp only [Micro.effect, stepChain_eq]
  | snapRead w => simp only [Micro.effect, snapRead_eq]
  | evalEnd b p =>
    simp only [Micro.effect]
    split_ifs <;> rfl
  | push | drain | setBank | setPos | evalStart => rfl

@[simp] theorem Micro.effect_cfg (m : Micro) (s : State) : (m.effect s).cfg = s.cfg := by rw [Micro.effect_frame]
@[simp] theorem Micro.effect_orb (m : Micro) (s : State) : (m.effect s).orb = s.orb := by rw [Micro.effect_frame]

/-- A statement reads nothing of the buffer but where to push. -/
theorem Micro.effect_setOrb (m : Micro) (o : Orb) (s : State) : m.effect (s.setOrb o) = (m.effect s).setOrb o := by
  cases m with
  | beginPass => simp only [Micro.effect, beginPass_eq]; rfl
  | srStep => simp only [Micro.effect, stepChain_eq]; rfl
  | snapRead w => simp only [Micro.effect, snapRead_eq]; rfl
  | evalEnd b p =>
    by_cases hz : s.seq.eb = 0
    · simp only [Micro.effect, setOrb_seq, hz, if_true]
    · simp only [Micro.effect, setOrb_seq, hz, if_false]; rfl
  | push | drain | setBank | setPos | evalStart => rfl

/-- A statement other than RB_DRAIN makes its own change and then pushes the bytes it asks for. -/
theorem doMicro_eq_pushBytes {m : Micro} (h : Live s) (hm : MicroGood s.cfg m) (hd : m ≠ .drain) :
    doMicro m s = pushBytes (m.asked s) (m.effect s) := by
  obtain ⟨hc, hf, _, _, _, _, hks, _⟩ := h
  have heval (line : Line) (b p : Nat) (d : Bool) (time : U32) (hb : b < s.cfg.numBanks) (hp : p < 8) :
      ∃ msg, messageBytes msg
          = eventBytes s.cfg line (keyId b p) (s.ks.getD (keyId b p) KeyEntry.initial) d time ∧
        evalKey line (keyId b p) d time (s.setPos p) = (msg, evaluated line (keyId b p) d time (s.setPos p)) :=
    evalKey_eq (s := s.setPos p) hc hks (hc.keyId_lt hb hp)
  have hfault (line : Line) (k p : Nat) (d : Bool) (time : U32) :
      (evaluated line k d time (s.setPos p)).fault = false := hf
  cases m with
  | drain => exact absurd rfl hd
  | evalStart b p =>
    obtain ⟨hb, hp⟩ := hm
    obtain ⟨msg, hmsg, he⟩ := heval .startLine b p (buttonDown s.seq.sb p) s.seq.st hb hp
    simp only [doMicro, he, hfault, Micro.asked, Micro.effect, hmsg, Bool.false_eq_true, if_false]
  | evalEnd b p =>
    by_cases hz : s.seq.eb = 0
    · simp only [doMicro, Micro.asked, Micro.effect, hz, if_true, pushBytes]
    · obtain ⟨hb, hp⟩ := hm
      obtain ⟨msg, hmsg, he⟩ := heval .endLine b p (buttonDown s.seq.eb p) s.seq.et hb hp
      simp only [doMicro, he, hfault, Micro.asked, Micro.effect, hmsg, hz, Bool.false_eq_true, if_false]
  | _ => rfl

/-! ## A body as a whole -/

/-- The changes of a body's statements in order, their pushes aside. -/
def bodyEffect : List Micro → State → State
  | [], s => s
  | m :: ms, s => bodyEffect ms (m.effect s)

/-- All the bytes a body asks to push, in order. -/
def bodyAsked : List Micro → State → List Byte
  | [], _ => []
  | m :: ms, s => m.asked s ++ bodyAsked ms (m.effect s)

theorem bodyEffect_append (ms ns : List Micro) (s : State) :
    bodyEffect (ms ++ ns) s = bodyEffect ns (bodyEffect ms s) := by
  induction ms generalizing s with
  | nil => rfl
  | cons m ms ih => exact ih _

theorem bodyAsked_append (ms ns : List Micro) (s : State) :
    bodyAsked (ms ++ ns) s = bodyAsked ms s ++ bodyAsked ns (bodyEffect ms s) := by
  induction ms generalizing s with
  | nil => rfl
  | cons m ms ih => simp only [List.cons_append, bodyAsked, bodyEffect, ih, List.append_assoc]

theorem bodyEffect_setOrb (ms : List Micro) (o : Orb) (s : State) :
    bodyEffect ms (s.setOrb o) = (bodyEffect ms s).setOrb o := by
  induction ms generalizing s with
  | nil => rfl
  | cons m ms ih => simp only [bodyEffect, Micro.effect_setOrb, ih]

theorem bodyAsked_setOrb (ms : List Micro) (o : Orb) (s : State) : bodyAsked ms (s.setOrb o) = bodyAsked ms s := by
  induction ms generalizing s with
  | nil => rfl
  | cons m ms ih =>
    rw [bodyAsked, bodyAsked, Micro.effect_setOrb, ih]
    cases m <;> rfl

/-- What the statements' own changes leave as it is. -/
theorem bodyEffect_frame (ms : List Micro) (s : State) :
    bodyEffect ms s = { s with
      ks := (bodyEffect ms s).ks, seq := (bodyEffect ms s).seq, trace := (bodyEffect ms s).trace,
      chain := (bodyEffect ms s).chain, env := (bodyEffect ms s).env } := by
  induction ms generalizing s with
  | nil => rfl
  | cons m ms ih =>
    rw [bodyEffect, ih, Micro.effect_frame]

@[simp] theorem bodyEffect_cfg (ms : List Micro) (s : State) : (bodyEffect ms s).cfg = s.cfg := by rw [bodyEffect_frame]
@[simp] theorem bodyEffect_orb (ms : List Micro) (s : State) : (bodyEffect ms s).orb = s.orb := by rw [bodyEffect_frame]

/-- The statements of a scan's body: on banks and keys that exist, and no RB_DRAIN among them. -/
def ScanBody (c : Cfg) (ms : List Micro) : Prop := ∀ m ∈ ms, MicroGood c m ∧ m ≠ .drain

theorem Live.fault_eq (h : Live s) : s.fault = false := by
  obtain ⟨_, hf, _⟩ := h
  exact hf

/-- All that such a body can do in one step: it ends with all its bytes stored; or some of its statements are done, the
last of these with bytes left to push, the buffer was full and one drain attempt has been made (R274, R275). -/
theorem runOps_cases {ms : List Micro} (h : Live s) (hms : ScanBody s.cfg ms) :
    ∃ o, OrbGood s.cfg.rbCapacity o ∧
      ((Stored s.cfg.rbCapacity s.orb o (bodyAsked ms s) ∧ runOps ms s = complete ((bodyEffect ms s).setOrb o)) ∨
       ∃ done rest pushed left, ms = done ++ rest ∧ bodyAsked done s = pushed ++ left ∧ left ≠ [] ∧
        Stored s.cfg.rbCapacity s.orb o pushed ∧ o.isFull s.cfg.rbCapacity = true ∧
        runOps ms s = (drain ((bodyEffect done s).setOrb o)).2.setBusy (.push left :: rest)) := by
  induction ms generalizing s with
  | nil =>
    obtain ⟨_, _, _, _, _, ho, _⟩ := h
    obtain ⟨_, hin, _⟩ := id ho
    exact ⟨s.orb, ho, .inl ⟨.refl hin, rfl⟩⟩
  | cons m ms ih =>
    obtain ⟨_, _, _, _, _, ho, _⟩ := id h
    obtain ⟨hgood, hd⟩ := hms m (List.mem_cons_self ..)
    have hdo := doMicro_eq_pushBytes h hgood hd
    have hlive := h.doMicro hgood
    have hf := hlive.fault_eq
    obtain ⟨pushed, o, hasked, hstored, hgood', hend⟩ := pushBytes_cases (s := m.effect s) (m.asked s) (by simpa using ho)
    rw [← hdo] at hasked hend
    simp only [Micro.effect_cfg, Micro.effect_orb] at hstored hgood' hend
    rcases hend with ⟨hleft, hnext⟩ | ⟨hleft, hfull, hnext⟩
    · rw [hleft, List.append_nil] at hasked
      rw [hnext] at hlive hf
      obtain ⟨o', ho', hcase⟩ := ih hlive (s := (m.effect s).setOrb o) fun x hx => by
        simpa using hms x (List.mem_cons_of_mem _ hx)
      simp only [setOrb_cfg, setOrb_orb, Micro.effect_cfg, bodyAsked_setOrb, bodyEffect_setOrb] at ho' hcase
      rw [runOps_cons_done (Prod.ext hleft hnext) hf]
      rcases hcase with ⟨hs, hrun⟩ | ⟨done, rest, pushed', left, rfl, hasked', hne, hs, hfull, hrun⟩
      · refine ⟨o', ho', .inl ⟨?_, hrun⟩⟩
        rw [bodyAsked, hasked]
        exact hstored.append ho ho' hs
      · refine ⟨o', ho', .inr ⟨m :: done, rest, pushed ++ pushed', left, rfl, ?_, hne, hstored.append ho ho' hs, hfull,
          hrun⟩⟩
        rw [bodyAsked, hasked, hasked', List.append_assoc]
    · obtain ⟨b, bs, hbs⟩ := List.exists_cons_of_ne_nil hleft
      refine ⟨o, hgood', .inr ⟨[m], ms, pushed, (doMicro m s).1, rfl, ?_, hleft, hstored, hfull, ?_⟩⟩
      · rw [bodyAsked, bodyAsked, List.append_nil]
        exact hasked
      · rw [hbs]
        exact runOps_cons_wait (Prod.ext hbs hnext) (hnext ▸ hf)

/-- With room for all it asks to push, a body ends in one step (spec/43_event_encoder.md R223). -/
theorem runOps_room {ms : List Micro} (h : Live s) (hms : ScanBody s.cfg ms)
    (hroom : s.orb.count s.cfg.rbCapacity + (bodyAsked ms s).length < s.cfg.rbCapacity) :
    ∃ o, Stored s.cfg.rbCapacity s.orb o (bodyAsked ms s) ∧ runOps ms s = complete ((bodyEffect ms s).setOrb o) := by
  obtain ⟨_, _, _, _, _, hgood, _⟩ := id h
  obtain ⟨o, ho, ⟨hs, hrun⟩ | ⟨done, rest, pushed, left, rfl, hasked, hleft, hs, hfull, _⟩⟩ := runOps_cases h hms
  · exact ⟨o, hs, hrun⟩
  · exfalso
    obtain ⟨_, hin, hout, _⟩ := id ho
    rw [Orb.isFull_iff_count hin hout, hs.count hgood ho] at hfull
    have hpos := List.length_pos_iff.2 hleft
    simp only [bodyAsked_append, hasked, List.length_append] at hroom
    omega

/-- A body that ends in this step leaves RES without a value (spec/30_encoding.md R113). -/
theorem runOps_res {ms : List Micro} (hb : (runOps ms s).busy = []) (hf : (runOps ms s).fault = false) :
    (runOps ms s).res = .none := by
  obtain ⟨u, hu, _⟩ := runOps_append (ns := []) hb hf
  rw [hu]
  rfl

end Sys2Proof.Machine

/-! ## One read of a bank -/

namespace Sys2Proof.Machine

variable {s : State} {c : Cfg}

/-- The statement that evaluates position p of a bank at the read of a line (R134). -/
def evalMicro : Line → Nat → Nat → Micro
  | .startLine, b, p => .evalStart b p
  | .endLine, b, p => .evalEnd b p

/-- The mask of a line's half of the snapshot. -/
def Seq.mask (q : Seq) : Line → Byte
  | .startLine => q.sb
  | .endLine => q.eb

/-- The stamp of a line's half of the snapshot. -/
def Seq.stamp (q : Seq) : Line → U32
  | .startLine => q.st
  | .endLine => q.et

/-- What one read of a line gives for position p of bank b, by any of `entryAfter`, `eventBytes` and `diagEvents`. -/
def atPosition {α : Type} (f : Nat → KeyEntry → Bool → U32 → α) (ks : List KeyEntry) (b : Nat) (mask : Byte) (time : U32)
    (p : Nat) : α :=
  f (keyId b p) (ks.getD (keyId b p) KeyEntry.initial) (buttonDown mask p) time

/-- The key-state file after evaluations of these positions of bank b at a read of a line. -/
structure LineRead (c : Cfg) (line : Line) (b : Nat) (mask : Byte) (time : U32) (ps : List Nat)
    (ks ks' : List KeyEntry) : Prop where
  length : ks'.length = ks.length
  read : ∀ p ∈ ps, ks'[keyId b p]? = some (atPosition (fun _ => entryAfter c line) ks b mask time p)
  other : ∀ k, (∀ p ∈ ps, k ≠ keyId b p) → ks'[k]? = ks[k]?

theorem LineRead.getD {line : Line} {b p : Nat} {mask : Byte} {time : U32} {ps : List Nat} {ks ks' : List KeyEntry}
    (h : LineRead c line b mask time ps ks ks') (hp : p ∈ ps) :
    ks'.getD (keyId b p) KeyEntry.initial = atPosition (fun _ => entryAfter c line) ks b mask time p := by
  rw [List.getD_eq_getElem?_getD, h.read p hp, Option.getD_some]

/-- An open contact at an end read leaves the key as it is, with no event and no diagnostic (R168, R169). -/
theorem transition_endLine_open (e : KeyEntry) (time : U32) :
    transition c .endLine e false time = .keep ∨ transition c .endLine e false time = .illegal := by
  unfold transition
  cases keyStOfCode e.st with
  | none => exact .inr rfl
  | some st => cases st <;> exact .inl rfl

/-- A start read reports no inconsistency (R167). -/
theorem diagEvents_startLine (k : Nat) (e : KeyEntry) (d : Bool) (time : U32) :
    diagEvents c .startLine k e d time = [] := by
  unfold diagEvents transition
  cases keyStOfCode e.st with
  | none => rfl
  | some st =>
    cases st with
    | idle => cases d <;> rfl
    | hit => cases d <;> rfl
    | started =>
      cases d with
      | true => rfl
      | false =>
        dsimp only
        split_ifs <;> rfl

theorem evaluated_endLine_open (k : Nat) (time : U32) (s : State) : evaluated .endLine k false time s = s := by
  have hset : s.ks.set k (s.ks.getD k KeyEntry.initial) = s.ks := by
    by_cases hk : k < s.ks.length
    · rw [List.getD_eq_getElem _ _ hk, List.set_getElem_self]
    · exact List.set_eq_of_length_le (by omega)
  rcases transition_endLine_open (c := s.cfg) (s.ks.getD k KeyEntry.initial) time with h | h <;>
    simp only [evaluated, entryAfter, diagEvents, h, hset, List.append_nil]

theorem eventBytes_endLine_open (k : Nat) (e : KeyEntry) (time : U32) : eventBytes c .endLine k e false time = [] := by
  rcases transition_endLine_open (c := c) e time with h | h <;> simp only [eventBytes, h]

theorem buttonDown_zero (p : Nat) : buttonDown 0 p = false := by simp [buttonDown]

/-- Both lines' statements evaluate their key and leave POS anywhere; that an end read with EB = 0x00 skips them makes no
difference to a key (R136). -/
theorem effect_evalMicro (line : Line) (b p : Nat) (s : State) :
    ∃ r, (evalMicro line b p).effect s =
      (evaluated line (keyId b p) (buttonDown (s.seq.mask line) p) (s.seq.stamp line) s).setPos r := by
  cases line with
  | startLine => exact ⟨p, rfl⟩
  | endLine =>
    by_cases hz : s.seq.eb = 0
    · refine ⟨s.seq.pos, ?_⟩
      simp only [Seq.mask, hz, buttonDown_zero, evaluated_endLine_open]
      simp only [evalMicro, Micro.effect, hz, if_true]
      rfl
    · exact ⟨p, by simp only [evalMicro, Micro.effect, hz, if_false]; rfl⟩

theorem asked_evalMicro (line : Line) (b p : Nat) (s : State) :
    (evalMicro line b p).asked s = atPosition (eventBytes s.cfg line) s.ks b (s.seq.mask line) (s.seq.stamp line) p := by
  cases line with
  | startLine => rfl
  | endLine =>
    by_cases hz : s.seq.eb = 0
    · simp only [evalMicro, Micro.asked, atPosition, Seq.mask, hz, if_true, buttonDown_zero, eventBytes_endLine_open]
    · simp only [evalMicro, Micro.asked, hz, if_false]
      rfl

/-- The evaluations of one read: each key's entry, its diagnostic and its event's bytes are those its entry before the
read gives, as no position is evaluated twice (R172, R174). -/
theorem lineRead_effect {line : Line} {mask : Byte} {time : U32} {ps : List Nat} (b : Nat) (hnd : ps.Nodup)
    (hk : ∀ p ∈ ps, keyId b p < s.ks.length) (hm : s.seq.mask line = mask) (ht : s.seq.stamp line = time) :
    ∃ ks' r, bodyEffect (ps.map (evalMicro line b)) s = State.setPos r { s with
        ks := ks', trace := s.trace ++ ps.flatMap (atPosition (diagEvents s.cfg line) s.ks b mask time) } ∧
      bodyAsked (ps.map (evalMicro line b)) s = ps.flatMap (atPosition (eventBytes s.cfg line) s.ks b mask time) ∧
      LineRead s.cfg line b mask time ps s.ks ks' := by
  induction ps generalizing s with
  | nil =>
    refine ⟨s.ks, s.seq.pos, ?_, rfl, rfl, by simp, fun _ _ => rfl⟩
    simp only [List.map_nil, bodyEffect, List.flatMap_nil, List.append_nil]
    rfl
  | cons p ps ih =>
    obtain ⟨hp, hnd⟩ := List.nodup_cons.1 hnd
    obtain ⟨r, hr⟩ := effect_evalMicro line b p s
    have hasked := asked_evalMicro line b p s
    rw [hm, ht] at hr hasked
    have hne : ∀ q ∈ ps, keyId b p ≠ keyId b q := fun q hq e => hp (by
      obtain rfl : p = q := by simpa [keyId] using e
      exact hq)
    have hsame {α : Type} (f : Nat → KeyEntry → Bool → U32 → α) (q : Nat) (hq : q ∈ ps) :
        atPosition f (evaluated line (keyId b p) (buttonDown mask p) time s).ks b mask time q =
          atPosition f s.ks b mask time q := by
      simp only [atPosition, evaluated, List.getD_eq_getElem?_getD, List.getElem?_set_ne (hne q hq)]
    obtain ⟨ks', r', heffect, hasked', hlength, hread, hother⟩ :=
      ih (s := (evaluated line (keyId b p) (buttonDown mask p) time s).setPos r) hnd
        (by simpa [evaluated] using fun q hq => hk q (List.mem_cons_of_mem _ hq))
        (by rw [← hm]; cases line <;> rfl) (by rw [← ht]; cases line <;> rfl)
    refine ⟨ks', r', ?_, ?_, hlength.trans List.length_set, fun q hq => ?_, fun k hk' => ?_⟩
    · rw [List.map_cons, bodyEffect, hr, heffect, List.flatMap_cons, ← List.append_assoc]
      rw [← List.flatMap_congr (hsame (diagEvents s.cfg line))]
      rfl
    · rw [List.map_cons, bodyAsked, hr, hasked', hasked, List.flatMap_cons]
      rw [← List.flatMap_congr (hsame (eventBytes s.cfg line))]
      rfl
    · rcases List.mem_cons.1 hq with rfl | hq
      · rw [hother _ hne]
        exact List.getElem?_set_self (hk q (List.mem_cons_self ..))
      · rw [hread q hq]
        exact congrArg some (hsame _ q hq)
    · rw [hother k fun q hq => hk' q (List.mem_cons_of_mem _ hq)]
      exact List.getElem?_set_ne (hk' p (List.mem_cons_self ..)).symm

end Sys2Proof.Machine

/-! ## SCAN_BANK as a whole -/

namespace Sys2Proof.Machine

variable {s : State} {c : Cfg} {ks : List KeyEntry} {b : Nat}

/-- The two snapshots of a bank: the masks and stamps SCAN_BANK draws (R134). -/
structure Reads where
  sb : Byte
  st : U32
  eb : Byte
  et : U32

/-- The environment answers these reads in order, and is then `e'`. -/
def Reads.Drawn (r : Reads) (e e' : Env) : Prop :=
  ∃ e1 e2 e3, e.drawMask = (r.sb, e1) ∧ e1.drawTime = (r.st, e2) ∧ e2.drawMask = (r.eb, e3) ∧ e3.drawTime = (r.et, e')

/-- The entry of position p between the start evaluations and the end evaluations. -/
def Reads.mid (r : Reads) (c : Cfg) (b : Nat) (ks : List KeyEntry) (p : Nat) : KeyEntry :=
  atPosition (fun _ => entryAfter c .startLine) ks b r.sb r.st p

/-- The bytes of a bank's events in evaluation order (R175). -/
def Reads.events (r : Reads) (c : Cfg) (b : Nat) (ks : List KeyEntry) : List Byte :=
  (List.range 8).flatMap (atPosition (eventBytes c .startLine) ks b r.sb r.st) ++
    (List.range 8).flatMap fun p => eventBytes c .endLine (keyId b p) (r.mid c b ks p) (buttonDown r.eb p) r.et

/-- The TRACE entries of a bank, the drains' aside (R138). -/
def Reads.entries (r : Reads) (c : Cfg) (b : Nat) (ks : List KeyEntry) : List Event :=
  (if b = 0 then beginPassTrace c else []) ++ [.mask r.sb, .time r.st] ++ stepTrace c ++ [.mask r.eb, .time r.et] ++
    (List.range 8).flatMap (fun p => diagEvents c .endLine (keyId b p) (r.mid c b ks p) (buttonDown r.eb p) r.et) ++
    stepTrace c

/-- The key-state file after both reads of a bank. -/
structure BankRead (r : Reads) (c : Cfg) (b : Nat) (ks ks' : List KeyEntry) : Prop where
  length : ks'.length = ks.length
  read : ∀ p < 8, ks'[keyId b p]? = some (entryAfter c .endLine (r.mid c b ks p) (buttonDown r.eb p) r.et)
  other : ∀ k, (∀ p < 8, k ≠ keyId b p) → ks'[k]? = ks[k]?

/-- The state SCAN_BANK leads to, the buffer and the drains aside. -/
def Reads.scanned (r : Reads) (b : Nat) (ks' : List KeyEntry) (e : Env) (s : State) : State :=
  { s with
    ks := ks'
    seq := { s.seq with sb := r.sb, st := r.st, eb := r.eb, et := r.et, bank := b, pos := 8 }
    trace := s.trace ++ r.entries s.cfg b s.ks
    chain := if b = 0 then some 2 else s.chain.map (· + 2)
    env := e }

/-- The statements of SCAN_BANK up to the start evaluations: BANK, SR_BEGIN_PASS for bank 0, the start read. -/
def opening (b : Nat) : List Micro := .setBank b :: (if b = 0 then [.beginPass] else []) ++ [.snapRead .startLine]

/-- The statements between the evaluations: POS, the step to the end line, the end read. -/
def turn : List Micro := [.setPos 8, .srStep, .snapRead .endLine]

/-- The statements after the evaluations: POS and the step to the next bank. -/
def closing : List Micro := [.setPos 8, .srStep]

theorem scanBankBody_eq (b : Nat) :
    scanBankBody b = (opening b ++ (List.range 8).map (evalMicro .startLine b)) ++
      (turn ++ ((List.range 8).map (evalMicro .endLine b) ++ closing)) := by
  simp only [scanBankBody, opening, turn, closing, List.append_assoc]
  rfl

theorem opening_effect (b : Nat) (s : State) :
    bodyAsked (opening b) s = [] ∧
    bodyEffect (opening b) s = { s with
      seq := { s.seq with sb := s.env.drawMask.1, st := s.env.drawMask.2.drawTime.1, bank := b }
      trace := s.trace ++ ((if b = 0 then beginPassTrace s.cfg else []) ++
        [.mask s.env.drawMask.1, .time s.env.drawMask.2.drawTime.1])
      chain := if b = 0 then some 0 else s.chain
      env := s.env.drawMask.2.drawTime.2 } := by
  by_cases hb : b = 0 <;>
    simp [opening, hb, bodyAsked, bodyEffect, Micro.asked, Micro.effect, beginPass_eq, snapRead_eq, Seq.snap,
      State.setBank, State.setSeq]

theorem turn_effect (s : State) :
    bodyAsked turn s = [] ∧
    bodyEffect turn s = { s with
      seq := { s.seq with eb := s.env.drawMask.1, et := s.env.drawMask.2.drawTime.1, pos := 8 }
      trace := s.trace ++ (stepTrace s.cfg ++ [.mask s.env.drawMask.1, .time s.env.drawMask.2.drawTime.1])
      chain := s.chain.map (· + 1)
      env := s.env.drawMask.2.drawTime.2 } := by
  simp [turn, bodyAsked, bodyEffect, Micro.asked, Micro.effect, stepChain_eq, snapRead_eq, Seq.snap, State.setPos,
    State.setSeq]

theorem closing_effect (s : State) :
    bodyAsked closing s = [] ∧
    bodyEffect closing s = { s with
      seq := { s.seq with pos := 8 }, trace := s.trace ++ stepTrace s.cfg, chain := s.chain.map (· + 1) } := by
  simp [closing, bodyAsked, bodyEffect, Micro.asked, Micro.effect, stepChain_eq, State.setPos, State.setSeq]

/-- The start half of SCAN_BANK: the start read and its evaluations, which report no diagnostic. -/
theorem startHalf_effect {mask : Byte} {time : U32} {e1 e2 : Env} (hm : s.env.drawMask = (mask, e1))
    (ht : e1.drawTime = (time, e2)) (hk : ∀ p < 8, keyId b p < s.ks.length) :
    let ms := opening b ++ (List.range 8).map (evalMicro .startLine b)
    ∃ ks' r, LineRead s.cfg .startLine b mask time (List.range 8) s.ks ks' ∧
      bodyAsked ms s = (List.range 8).flatMap (atPosition (eventBytes s.cfg .startLine) s.ks b mask time) ∧
      bodyEffect ms s = { s with
        ks := ks'
        seq := { s.seq with sb := mask, st := time, bank := b, pos := r }
        trace := s.trace ++ ((if b = 0 then beginPassTrace s.cfg else []) ++ [.mask mask, .time time])
        chain := if b = 0 then some 0 else s.chain
        env := e2 } := by
  obtain ⟨hasked, heffect⟩ := opening_effect b s
  rw [hm, ht] at heffect
  have hdiags : (List.range 8).flatMap (atPosition (diagEvents s.cfg .startLine) s.ks b mask time) = [] := by
    simp only [List.flatMap_eq_nil_iff, atPosition, diagEvents_startLine, implies_true]
  obtain ⟨ks', r, heffect', hasked', hread⟩ := lineRead_effect (line := .startLine) (mask := mask) (time := time) b
    (s := bodyEffect (opening b) s) (ps := List.range 8) List.nodup_range
    (by rw [heffect]; simpa using hk) (by rw [heffect]; rfl) (by rw [heffect]; rfl)
  refine ⟨ks', r, by simpa [heffect] using hread, ?_, ?_⟩
  · rw [bodyAsked_append, hasked, hasked', heffect, List.nil_append]
  · rw [bodyEffect_append, heffect', heffect, hdiags, List.append_nil]
    rfl

/-- The end half of SCAN_BANK: the end read, its evaluations, and the step to the next bank. -/
theorem endHalf_effect {mask : Byte} {time : U32} {e1 e2 : Env} (hm : s.env.drawMask = (mask, e1))
    (ht : e1.drawTime = (time, e2)) (hk : ∀ p < 8, keyId b p < s.ks.length) :
    let ms := turn ++ ((List.range 8).map (evalMicro .endLine b) ++ closing)
    ∃ ks', LineRead s.cfg .endLine b mask time (List.range 8) s.ks ks' ∧
      bodyAsked ms s = (List.range 8).flatMap (atPosition (eventBytes s.cfg .endLine) s.ks b mask time) ∧
      bodyEffect ms s = { s with
        ks := ks'
        seq := { s.seq with eb := mask, et := time, pos := 8 }
        trace := s.trace ++ (stepTrace s.cfg ++ [.mask mask, .time time] ++
          (List.range 8).flatMap (atPosition (diagEvents s.cfg .endLine) s.ks b mask time) ++ stepTrace s.cfg)
        chain := s.chain.map (· + 2)
        env := e2 } := by
  obtain ⟨hasked, heffect⟩ := turn_effect s
  rw [hm, ht] at heffect
  obtain ⟨ks', r, heffect', hasked', hread⟩ := lineRead_effect (line := .endLine) (mask := mask) (time := time) b
    (s := bodyEffect turn s) (ps := List.range 8) List.nodup_range
    (by rw [heffect]; simpa using hk) (by rw [heffect]; rfl) (by rw [heffect]; rfl)
  refine ⟨ks', by simpa [heffect] using hread, ?_, ?_⟩
  · rw [bodyAsked_append, bodyAsked_append, hasked, hasked', (closing_effect _).1, heffect, List.nil_append,
      List.append_nil]
  · rw [bodyEffect_append, bodyEffect_append, heffect', (closing_effect _).2, heffect]
    simp only [setPos_cfg, setPos_ks, setPos_orb, setPos_seq, setPos_res, setPos_refused, setPos_fault, setPos_trace,
      setPos_chain, setPos_running, setPos_busy, setPos_port, setPos_env, List.append_assoc, Option.map_map]
    rfl

/-- All that the statements of SCAN_BANK change and ask to push (R134). -/
theorem scanBankBody_effect {r : Reads} {e' : Env} (hd : r.Drawn s.env e') (hk : ∀ p < 8, keyId b p < s.ks.length) :
    ∃ ks', BankRead r s.cfg b s.ks ks' ∧ bodyEffect (scanBankBody b) s = r.scanned b ks' e' s ∧
      bodyAsked (scanBankBody b) s = r.events s.cfg b s.ks := by
  obtain ⟨e1, e2, e3, hsb, hst, heb, het⟩ := hd
  obtain ⟨ks1, r1, hread1, hasked1, heffect1⟩ := startHalf_effect hsb hst hk
  have hmid (p : Nat) (hp : p ∈ List.range 8) : ks1.getD (keyId b p) KeyEntry.initial = r.mid s.cfg b s.ks p :=
    hread1.getD hp
  obtain ⟨ks2, hread2, hasked2, heffect2⟩ := endHalf_effect
    (s := bodyEffect (opening b ++ (List.range 8).map (evalMicro .startLine b)) s) (b := b) (mask := r.eb)
    (time := r.et) (by rw [heffect1]; exact heb) het (by
      rw [heffect1]
      exact fun p hp => hread1.length.symm ▸ hk p hp)
  have hend {α : Type} (f : Nat → KeyEntry → Bool → U32 → α) (p : Nat) (hp : p ∈ List.range 8) :
      atPosition f ks1 b r.eb r.et p = f (keyId b p) (r.mid s.cfg b s.ks p) (buttonDown r.eb p) r.et := by
    rw [atPosition, hmid p hp]
  simp only [heffect1] at hread2 hasked2 heffect2
  refine ⟨ks2, ⟨hread2.length.trans hread1.length, fun p hp => ?_, fun k hk' => ?_⟩, ?_, ?_⟩
  · rw [hread2.read p (List.mem_range.2 hp), hend _ p (List.mem_range.2 hp)]
  · have hk' : ∀ p ∈ List.range 8, k ≠ keyId b p := fun p hp => hk' p (List.mem_range.1 hp)
    rw [hread2.other k hk', hread1.other k hk']
  · rw [scanBankBody_eq, bodyEffect_append, heffect1, heffect2, List.flatMap_congr (hend (diagEvents s.cfg .endLine))]
    by_cases hb : b = 0 <;> simp [Reads.scanned, Reads.entries, hb]
  · rw [scanBankBody_eq, bodyAsked_append, hasked1, heffect1, hasked2,
      List.flatMap_congr (hend (eventBytes s.cfg .endLine))]
    rfl

end Sys2Proof.Machine

/-! ## What a wait leaves as it is -/

namespace Sys2Proof.Machine

variable {s t u : State}

@[simp] theorem scanTrace_append (as bs : List Event) : scanTrace (as ++ bs) = scanTrace as ++ scanTrace bs :=
  List.filter_append ..

/-! A draw takes the head of its own list and counts itself (log 5). -/

theorem drawMask_snd (e : Env) : e.drawMask.2 = { e with masks := e.masks.tail, draws := e.draws + 1 } := by
  unfold Env.drawMask
  split <;> simp [*]

theorem drawTime_snd (e : Env) : e.drawTime.2 = { e with times := e.times.tail, draws := e.draws + 1 } := by
  unfold Env.drawTime
  split <;> simp [*]

theorem drawReady_snd (e : Env) : e.drawReady.2 = { e with readies := e.readies.tail, draws := e.draws + 1 } := by
  unfold Env.drawReady
  split <;> simp [*]

/-- `t` is `s` but for what a wait changes: the buffer, what is in progress, RES, the readiness answers drawn, and the
drains' entries in TRACE (R275). -/
def SameButWaits (s t : State) : Prop :=
  ∃ o tr ms res rs n, scanTrace tr = scanTrace s.trace ∧
    t = { s with orb := o, trace := tr, busy := ms, res := res, env := { s.env with readies := rs, draws := n } }

theorem SameButWaits.refl (s : State) : SameButWaits s s := ⟨_, _, _, _, _, _, rfl, rfl⟩

theorem SameButWaits.trans (h : SameButWaits s t) (h' : SameButWaits t u) : SameButWaits s u := by
  obtain ⟨o, tr, ms, res, rs, n, htr, rfl⟩ := h
  obtain ⟨o', tr', ms', res', rs', n', htr', rfl⟩ := h'
  exact ⟨o', tr', ms', res', rs', n', htr'.trans htr, rfl⟩

theorem SameButWaits.setOrb (o : Orb) (h : SameButWaits s t) : SameButWaits s (t.setOrb o) :=
  h.trans ⟨o, _, _, _, _, _, rfl, rfl⟩

theorem SameButWaits.setBusy (ms : List Micro) (h : SameButWaits s t) : SameButWaits s (t.setBusy ms) :=
  h.trans ⟨_, _, ms, _, _, _, rfl, rfl⟩

theorem SameButWaits.setRes (r : Result) (h : SameButWaits s t) : SameButWaits s (t.setRes r) :=
  h.trans ⟨_, _, _, r, _, _, rfl, rfl⟩

/-- A drain attempt is the work of a wait (R273). -/
theorem SameButWaits.drain (h : OrbGood s.cfg.rbCapacity s.orb) : SameButWaits s (drain s).2 := by
  have hquery : SameButWaits s (afterQuery s) :=
    ⟨s.orb, (afterQuery s).trace, s.busy, s.res, s.env.readies.tail, s.env.draws + 1,
      (scanTrace_append ..).trans (List.append_nil _), by
        rw [← drawReady_snd]
        rfl⟩
  rcases drain_cases h with ⟨_, e⟩ | ⟨_, _, e⟩ | ⟨_, _, b, _, e⟩ <;> rw [e]
  · exact .refl s
  · exact hquery
  · exact (hquery.setOrb _).trans ⟨_, _, _, _, _, _, (scanTrace_append ..).trans (List.append_nil _), rfl⟩

/-- How many reads of a contact line a body makes. -/
def readCount (ms : List Micro) : Nat := ms.countP fun m => m matches .snapRead _

/-- The environment's lists hold an answer for each read of a body. -/
def Scripted (ms : List Micro) (e : Env) : Prop := readCount ms ≤ e.masks.length ∧ readCount ms ≤ e.times.length

/-- A statement draws where it reads a contact line, and only there. -/
theorem Micro.effect_env (m : Micro) (s : State) :
    (m.effect s).env = match m with
      | .snapRead _ => { s.env with
          masks := s.env.masks.tail, times := s.env.times.tail, draws := s.env.draws + 2 }
      | _ => s.env := by
  cases m with
  | snapRead w => simp only [Micro.effect, snapRead_eq, drawTime_snd, drawMask_snd]
  | beginPass => simp only [Micro.effect, beginPass_eq]
  | srStep => simp only [Micro.effect, stepChain_eq]
  | evalEnd b p =>
    simp only [Micro.effect]
    split_ifs <;> rfl
  | push | drain | setBank | setPos | evalStart => rfl

theorem Micro.effect_readies (m : Micro) (s : State) : (m.effect s).env.readies = s.env.readies := by
  rw [Micro.effect_env]
  split <;> rfl

theorem bodyEffect_readies (ms : List Micro) (s : State) : (bodyEffect ms s).env.readies = s.env.readies := by
  induction ms generalizing s with
  | nil => rfl
  | cons m ms ih => rw [bodyEffect, ih, Micro.effect_readies]

theorem Scripted.of_cons {m : Micro} {ms : List Micro} (h : Scripted (m :: ms) s.env) :
    Scripted [m] s.env ∧ Scripted ms (m.effect s).env := by
  obtain ⟨hm, ht⟩ := h
  rw [Micro.effect_env]
  cases m <;> simp [Scripted, readCount] at hm ht ⊢ <;> omega

theorem Scripted.of_append {ms ns : List Micro} (h : Scripted (ms ++ ns) s.env) :
    Scripted ns (bodyEffect ms s).env := by
  induction ms generalizing s with
  | nil => exact h
  | cons m ms ih => exact ih h.of_cons.2

/-- A statement does the same, wait or not, where its draws are scripted. -/
theorem SameButWaits.effect {m : Micro} (h : SameButWaits s t) (hs : Scripted [m] s.env) :
    SameButWaits (m.effect s) (m.effect t) ∧ m.asked t = m.asked s := by
  obtain ⟨o, tr, ms, res, rs, n, htr, rfl⟩ := h
  cases m with
  | push | drain | setBank | setPos => exact ⟨⟨o, tr, ms, res, rs, n, htr, rfl⟩, rfl⟩
  | beginPass =>
    simp only [Micro.effect, beginPass_eq]
    exact ⟨⟨o, _, ms, res, rs, n, by simp [htr], rfl⟩, rfl⟩
  | srStep =>
    simp only [Micro.effect, stepChain_eq]
    exact ⟨⟨o, _, ms, res, rs, n, by simp [htr], rfl⟩, rfl⟩
  | evalStart b p =>
    simp only [Micro.effect]
    exact ⟨⟨o, _, ms, res, rs, n, by simp [evaluated, htr], rfl⟩, rfl⟩
  | evalEnd b p =>
    refine ⟨?_, rfl⟩
    by_cases hz : s.seq.eb = 0
    · simp only [Micro.effect, hz, if_true]
      exact ⟨o, tr, ms, res, rs, n, htr, rfl⟩
    · simp only [Micro.effect, hz, if_false]
      exact ⟨o, _, ms, res, rs, n, by simp [evaluated, htr], rfl⟩
  | snapRead w =>
    refine ⟨?_, rfl⟩
    obtain ⟨hm, ht⟩ := hs
    obtain ⟨mask, masks, hmasks⟩ := List.exists_cons_of_length_pos hm
    obtain ⟨time, times, htimes⟩ := List.exists_cons_of_length_pos ht
    simp only [Micro.effect, snapRead_eq, Env.drawMask, hmasks, Env.drawTime, htimes]
    exact ⟨o, _, ms, res, rs, n + 1 + 1, by simp [htr], rfl⟩

theorem SameButWaits.bodyEffect {ms : List Micro} (h : SameButWaits s t) (hs : Scripted ms s.env) :
    SameButWaits (bodyEffect ms s) (bodyEffect ms t) ∧ bodyAsked ms t = bodyAsked ms s := by
  induction ms generalizing s t with
  | nil => exact ⟨h, rfl⟩
  | cons m ms ih =>
    obtain ⟨hsm, hsms⟩ := hs.of_cons
    obtain ⟨hm, hasked⟩ := h.effect hsm
    obtain ⟨hms, hasked'⟩ := ih hm hsms
    exact ⟨hms, by rw [bodyAsked, bodyAsked, hasked, hasked']⟩

/-- A statement sends nothing and stores nothing but by its pushes. -/
theorem stream_effect (m : Micro) (s : State) : stream (m.effect s) = stream s := by
  cases m with
  | evalEnd b p =>
    simp only [Micro.effect]
    split_ifs
    · rfl
    · exact stream_congr rfl rfl (by simp [evaluated])
  | evalStart b p => exact stream_congr rfl rfl (by simp [Micro.effect, evaluated])
  | _ => simp [Micro.effect]

theorem stream_bodyEffect (ms : List Micro) (s : State) : stream (bodyEffect ms s) = stream s := by
  induction ms generalizing s with
  | nil => rfl
  | cons m ms ih => rw [Machine.bodyEffect, ih, stream_effect]

theorem stream_bodyEffect_setOrb {ms : List Micro} {o : Orb} {bs : List Byte}
    (hs : Stored s.cfg.rbCapacity s.orb o bs) : stream ((bodyEffect ms s).setOrb o) = stream s ++ bs := by
  rw [stream_setOrb_of_stored (bs := bs) (by simpa using hs), stream_bodyEffect]

/-! ## A body over the steps of its waits -/

/-- `ms`, run from `s` to the end of its waits, leads to `a`, the waits aside, and to the byte stream `bs`. -/
structure Underway (a : State) (bs : List Byte) (ms : List Micro) (s : State) : Prop where
  live : Live s
  body : ScanBody s.cfg ms
  scripted : Scripted ms s.env
  same : SameButWaits a (bodyEffect ms s)
  bytes : stream s ++ bodyAsked ms s = bs
  running : s.running = false
  port : s.port = []

variable {a : State} {bs : List Byte} {ms : List Micro}

theorem ScanBody.good {c : Cfg} (h : ScanBody c ms) : ∀ m ∈ ms, MicroGood c m := fun m hm => (h m hm).1

/-- What is still to come when a body has stopped at a full buffer, with `left` of its done statements' bytes to push:
the same as before. -/
theorem waiting_rest {done rest : List Micro} {left : List Byte} {o : Orb} (ho : OrbGood s.cfg.rbCapacity o)
    (hs : Scripted (done ++ rest) s.env)
    (hu : u = (drain ((bodyEffect done s).setOrb o)).2.setBusy (.push left :: rest)) :
    Scripted (.push left :: rest) u.env ∧
      SameButWaits (bodyEffect (done ++ rest) s) (bodyEffect (.push left :: rest) u) ∧
      bodyAsked (.push left :: rest) u = left ++ bodyAsked rest (bodyEffect done s) := by
  have hsame : SameButWaits (bodyEffect done s) u := by
    rw [hu]
    exact (((SameButWaits.refl _).setOrb o).trans (.drain (by simpa using ho))).setBusy _
  have hrest := hs.of_append
  obtain ⟨heffect, hasked⟩ := hsame.bodyEffect hrest
  refine ⟨?_, by rwa [bodyEffect_append], congrArg (left ++ ·) hasked⟩
  obtain ⟨_, _, _, _, _, _, _, rfl⟩ := hsame
  simpa [Scripted, readCount] using hrest

/-- One step of a body leads where the whole body does. -/
theorem Underway.runOps (h : Underway a bs ms s) : Underway a bs (runOps ms s).busy (runOps ms s) := by
  obtain ⟨hlive, hbody, hscripted, hsame, hbytes, hrunning, hport⟩ := h
  obtain ⟨hcfg, _, hrunning', hport', _⟩ := runOps_frame ms s
  have hlive' := hlive.runOps hbody.good
  obtain ⟨o, ho, ⟨hs, hrun⟩ | ⟨done, rest, pushed, left, rfl, hasked, _, hs, _, hrun⟩⟩ := runOps_cases hlive hbody
  · have hbusy : (Machine.runOps ms s).busy = [] := by rw [hrun]; rfl
    refine ⟨hlive', by simp [hbusy, ScanBody], by simp [hbusy, Scripted, readCount], ?_, ?_, hrunning'.trans hrunning,
      hport'.trans hport⟩
    · rw [hbusy, hrun]
      exact ((hsame.setOrb o).setBusy []).setRes .none
    · rw [hbusy, hrun, bodyAsked, List.append_nil, stream_complete, ← hbytes]
      exact stream_bodyEffect_setOrb hs
  · have hbusy : (Machine.runOps (done ++ rest) s).busy = .push left :: rest := by rw [hrun]; rfl
    obtain ⟨hscripted', hsame', hasked'⟩ := waiting_rest ho hscripted hrun
    rw [hbusy]
    refine ⟨hlive', fun m hm => ?_, hscripted', hsame.trans hsame', ?_, hrunning'.trans hrunning, hport'.trans hport⟩
    · rw [hcfg]
      rcases List.mem_cons.1 hm with rfl | hm
      · exact ⟨trivial, by simp⟩
      · exact hbody m (List.mem_append_right done hm)
    · have hdrained : stream (Machine.runOps (done ++ rest) s) = stream s ++ pushed := by
        rw [hrun, stream_setBusy, stream_drain (by simpa using ho)]
        exact stream_bodyEffect_setOrb hs
      rw [hasked', hdrained, ← hbytes, bodyAsked_append, hasked]
      simp only [List.append_assoc]

theorem Live.step_busy (h : Live s) (hb : s.busy ≠ []) : Machine.step s = .next (Machine.runOps s.busy s) := by
  obtain ⟨_, hf, _, _, _, _, _, _, hgood⟩ := id h
  have hok := h.orFault_runOps (t := s) hgood
  obtain ⟨m, ms, hms⟩ := List.exists_cons_of_ne_nil hb
  rw [hms] at hok ⊢
  simp only [Machine.step, hf, hms, hok, Bool.false_eq_true, if_false]

/-- Between commands a live block takes no step (R299). -/
theorem Live.step_idle (h : Live s) (hb : s.busy = []) (hr : s.running = false) (hp : s.port = []) :
    Machine.step s = .refused .noCommand := by
  obtain ⟨_, hf, href, hphase, _⟩ := h
  simp [Machine.step, stepIdle, hf, hb, hr, hp, href, hphase]

/-- Where the waits of a body end, it has done all it had to. -/
theorem Underway.finished {n : Nat} (h : Underway a bs s.busy s) (hres : s.busy = [] → s.res = .none)
    (hn : runSteps n s = .next t) (ht : t.busy = []) : SameButWaits a t ∧ stream t = bs ∧ t.res = .none := by
  induction n generalizing s with
  | zero =>
    obtain rfl := Host.Outcome.next.inj hn
    obtain ⟨_, _, _, hsame, hbytes, _⟩ := h
    rw [ht] at hsame hbytes
    exact ⟨hsame, by simpa [bodyAsked] using hbytes, hres ht⟩
  | succ n ih =>
    by_cases hb : s.busy = []
    · rw [runSteps, h.live.step_idle hb h.running h.port] at hn
      cases hn
    · rw [runSteps, h.live.step_busy hb] at hn
      exact ih h.runOps (fun hb' => runOps_res hb' h.runOps.live.fault_eq) hn

/-- A drain attempt on a non-empty buffer with the transmitter ready takes one byte and one answer (R273). -/
theorem drain_ready {rs : List Bool} (h : OrbGood s.cfg.rbCapacity s.orb) (he : s.orb.isEmpty = false)
    (hr : s.env.readies = true :: rs) :
    (drain s).2.orb = s.orb.drop s.cfg.rbCapacity ∧ (drain s).2.env.readies = rs := by
  have hready : s.env.drawReady.1 = true := by simp [Env.drawReady, hr]
  rcases drain_cases h with ⟨he', _⟩ | ⟨_, hready', _⟩ | ⟨_, _, b, _, e⟩
  · simp [he] at he'
  · simp [hready] at hready'
  · rw [e]
    simp [afterQuery, drawReady_snd, hr]

/-- A wait whose drain attempt succeeds leaves room for one byte; the bytes there was room for are pushed. -/
theorem Underway.runOps_ready {rs : List Bool} (h : Underway a bs ms s) (hr : s.env.readies = true :: rs) :
    (Machine.runOps ms s).busy = [] ∨
    ((Machine.runOps ms s).env.readies = rs ∧
      (Machine.runOps ms s).orb.count s.cfg.rbCapacity + 2 = s.cfg.rbCapacity ∧
      (bodyAsked (Machine.runOps ms s).busy (Machine.runOps ms s)).length + (s.cfg.rbCapacity - 1)
        = (bodyAsked ms s).length + s.orb.count s.cfg.rbCapacity) := by
  obtain ⟨_, _, _, _, _, hgood, _⟩ := id h.live
  obtain ⟨o, ho, ⟨_, hrun⟩ | ⟨done, rest, pushed, left, rfl, hasked, _, hs, hfull, hrun⟩⟩ := runOps_cases h.live h.body
  · exact .inl (by rw [hrun]; rfl)
  · obtain ⟨_, _, hasked'⟩ := waiting_rest ho h.scripted hrun
    obtain ⟨hcap, hin, hout, _⟩ := id ho
    have hbusy : (Machine.runOps (done ++ rest) s).busy = .push left :: rest := by rw [hrun]; rfl
    have hcount := hs.count hgood ho
    rw [Orb.isFull_iff_count hin hout] at hfull
    have hne : o.isEmpty = false := by
      rw [← Bool.not_eq_true, Orb.isEmpty_iff_count hin hout]
      omega
    obtain ⟨horb, hreadies⟩ := drain_ready (s := (bodyEffect done s).setOrb o) (rs := rs) (by simpa using ho) hne
      ((bodyEffect_readies done s).trans hr)
    have hdrop := Orb.count_drop hin hout hne
    refine .inr ⟨by rw [hrun]; exact hreadies, ?_, ?_⟩
    · rw [hrun, setBusy_orb, horb, setOrb_orb, setOrb_cfg, bodyEffect_cfg]
      omega
    · rw [hbusy, hasked', bodyAsked_append, hasked]
      simp only [List.length_append]
      omega

theorem Finishes.of_done (h : s.busy = []) : Finishes s s := ⟨0, rfl, h⟩

theorem Finishes.of_step (hs : Machine.step s = .next t) (h : Finishes t u) : Finishes s u := by
  obtain ⟨n, hn, hu⟩ := h
  exact ⟨n + 1, by rwa [runSteps, hs], hu⟩

/-- As many successful attempts as there are bytes without room end the waits of a body. -/
theorem Underway.finishes {n : Nat} {rs : List Bool} (h : Underway a bs ms s)
    (hr : s.env.readies = List.replicate n true ++ rs)
    (hn : (bodyAsked ms s).length + s.orb.count s.cfg.rbCapacity < n + s.cfg.rbCapacity) :
    ∃ t, Finishes (Machine.runOps ms s) t := by
  induction n generalizing ms s with
  | zero =>
    obtain ⟨o, _, hrun⟩ := runOps_room h.live h.body (by omega)
    exact ⟨_, .of_done (by rw [hrun]; rfl)⟩
  | succ n ih =>
    rcases h.runOps_ready hr with hbusy | ⟨hreadies, hcount, hasked⟩
    · exact ⟨_, .of_done hbusy⟩
    · by_cases hbusy : (Machine.runOps ms s).busy = []
      · exact ⟨_, .of_done hbusy⟩
      obtain ⟨t, ht⟩ := ih h.runOps hreadies (by
        rw [(runOps_frame ms s).1]
        omega)
      exact ⟨t, ht.of_step (h.runOps.live.step_busy hbusy)⟩

end Sys2Proof.Machine

/-! ## SCAN_BANK -/

namespace Sys2Proof.Machine

variable {s : State} {b : Nat}

theorem scanBankBody_scan {c : Cfg} (hb : b < c.numBanks) : ScanBody c (scanBankBody b) := by
  refine fun m hm => ⟨scanBankBody_good hb m hm, ?_⟩
  rintro rfl
  by_cases h0 : b = 0 <;> simp [scanBankBody, h0] at hm

theorem exec_scanBank {bk : Byte} (h : PortOpen s) (hl : Live s) (hb : bk.toNat < s.cfg.numBanks) :
    exec (.scanBank bk) s = .next (runOps (scanBankBody bk.toNat) s) := by
  rw [exec, execScanBank, accept_of_open h, if_pos (by simpa [bankInRange] using hb),
    hl.orFault_runOps (scanBankBody_good hb)]

/-- The keys of a bank that exists have an entry each (R101). -/
theorem Live.keyId_lt_length (h : Live s) (hb : b < s.cfg.numBanks) : ∀ p < 8, keyId b p < s.ks.length := by
  obtain ⟨hc, _, _, _, _, _, ⟨hlength, _⟩, _⟩ := h
  exact fun p hp => hlength ▸ hc.keyId_lt hb hp

/-- A bank has at most sixteen events of three bytes. -/
theorem Reads.events_length (r : Reads) (c : Cfg) (b : Nat) (ks : List KeyEntry) : (r.events c b ks).length ≤ 48 := by
  have hread (f : Nat → List Byte) (hf : ∀ p, (f p).length ≤ 3) : ((List.range 8).flatMap f).length ≤ 24 := by
    rw [List.length_flatMap]
    exact (List.sum_le_card_nsmul _ 3 (by simpa using fun p _ => hf p)).trans (by simp)
  have hstart := hread (atPosition (eventBytes c .startLine) ks b r.sb r.st) fun p => eventBytes_length ..
  have hend := hread _ fun p => eventBytes_length c .endLine (keyId b p) (r.mid c b ks p) (buttonDown r.eb p) r.et
  rw [Reads.events, List.length_append]
  omega

/-- Scripted answers to the four draws of a bank. -/
theorem Reads.drawn_of_scripts {r : Reads} {e : Env} {ms : List Byte} {ts : List U32}
    (hm : e.masks = r.sb :: r.eb :: ms) (ht : e.times = r.st :: r.et :: ts) :
    r.Drawn e { e with masks := ms, times := ts, draws := e.draws + 4 } := by
  obtain ⟨masks, times, readies, draws⟩ := e
  subst hm ht
  exact ⟨_, _, _, rfl, rfl, rfl, rfl⟩

/-! Only the drains' entries are kept from an observer of the pins. -/

theorem scanTrace_beginPassTrace (c : Cfg) : scanTrace (beginPassTrace c) = beginPassTrace c := rfl

theorem scanTrace_stepTrace (c : Cfg) : scanTrace (stepTrace c) = stepTrace c := by
  unfold stepTrace
  split_ifs <;> rfl

theorem scanTrace_diagEvents (c : Cfg) (line : Line) (k : Nat) (e : KeyEntry) (d : Bool) (time : U32) :
    scanTrace (diagEvents c line k e d time) = diagEvents c line k e d time := by
  unfold diagEvents
  split <;> rfl

theorem scanTrace_entries (r : Reads) (c : Cfg) (b : Nat) (ks : List KeyEntry) :
    scanTrace (r.entries c b ks) = r.entries c b ks := by
  have hbegin : scanTrace (if b = 0 then beginPassTrace c else []) = if b = 0 then beginPassTrace c else [] := by
    split_ifs
    · exact scanTrace_beginPassTrace c
    · rfl
  have hread (mask : Byte) (time : U32) : scanTrace [.mask mask, .time time] = [.mask mask, .time time] := rfl
  have hdiags : scanTrace ((List.range 8).flatMap fun p =>
      diagEvents c .endLine (keyId b p) (r.mid c b ks p) (buttonDown r.eb p) r.et) = (List.range 8).flatMap fun p =>
      diagEvents c .endLine (keyId b p) (r.mid c b ks p) (buttonDown r.eb p) r.et :=
    List.filter_flatMap.trans (List.flatMap_congr fun p _ => scanTrace_diagEvents ..)
  simp only [Reads.entries, scanTrace_append, hbegin, hread, scanTrace_stepTrace, hdiags]

/-- SCAN_BANK with room for its events ends in one step (R134). -/
theorem exec_scanBank_room {bk : Byte} {r : Reads} {e' : Env} (h : PortOpen s) (hl : Live s)
    (hb : bk.toNat < s.cfg.numBanks) (hroom : s.orb.count s.cfg.rbCapacity + 48 < s.cfg.rbCapacity)
    (hd : r.Drawn s.env e') :
    ∃ ks' o, exec (.scanBank bk) s = .next (complete ((r.scanned bk.toNat ks' e' s).setOrb o)) ∧
      Stored s.cfg.rbCapacity s.orb o (r.events s.cfg bk.toNat s.ks) ∧ BankRead r s.cfg bk.toNat s.ks ks' := by
  obtain ⟨ks', hks, heffect, hasked⟩ := scanBankBody_effect hd (hl.keyId_lt_length hb)
  have hlength := r.events_length s.cfg bk.toNat s.ks
  obtain ⟨o, hstored, hrun⟩ := runOps_room hl (scanBankBody_scan hb) (by rw [hasked]; omega)
  exact ⟨ks', o, by rw [exec_scanBank h hl hb, hrun, heffect], hasked ▸ hstored, hks⟩

/-- SCAN_BANK with its draws scripted, at the outset of its waits (R275). -/
theorem scanBank_underway {r : Reads} {ms : List Byte} {ts : List U32} (h : PortOpen s) (hl : Live s) (hp : s.port = [])
    (hb : b < s.cfg.numBanks) (hm : s.env.masks = r.sb :: r.eb :: ms) (ht : s.env.times = r.st :: r.et :: ts) :
    ∃ ks', BankRead r s.cfg b s.ks ks' ∧
      Underway (r.scanned b ks' { s.env with masks := ms, times := ts, draws := s.env.draws + 4 } s)
        (stream s ++ r.events s.cfg b s.ks) (scanBankBody b) s := by
  obtain ⟨ks', hks, heffect, hasked⟩ := scanBankBody_effect (Reads.drawn_of_scripts hm ht) (hl.keyId_lt_length hb)
  obtain ⟨_, _, _, hrunning, _⟩ := h
  have hscripted : Scripted (scanBankBody b) s.env := by
    have hcount : readCount (scanBankBody b) = 2 := by
      unfold scanBankBody
      split_ifs <;> rfl
    simp [Scripted, hcount, hm, ht]
  exact ⟨ks', hks, hl, scanBankBody_scan hb, hscripted, heffect ▸ .refl _, by rw [hasked], hrunning, hp⟩

/-- Settles O11: with room `exec_scanBank_room`; however it waits, each step leads where the whole body does
(`Underway.finished`), and 48 successful attempts are enough for its events (`Underway.finishes`). -/
theorem scanBankRunsThePerBankProtocol : Obligations.ScanBankRunsThePerBankProtocol := by
  refine ⟨fun s bk sb st eb et e1 e2 e3 e4 h hl hb hroom hsb hst heb het => ?_,
    fun s bk sb st eb et ms ts h hl hp hb hm ht => ?_⟩
  · obtain ⟨ks', o, hexec, hstored, hks⟩ :=
      exec_scanBank_room (r := ⟨sb, st, eb, et⟩) h hl hb hroom ⟨e1, e2, e3, hsb, hst, heb, het⟩
    refine ⟨ks', o, ?_, hstored, hks.length, hks.read, hks.other⟩
    obtain ⟨_, hbusy, _⟩ := h
    rw [hexec]
    simp [complete, Reads.scanned, Reads.entries, State.setOrb, State.setBusy, State.setRes, hbusy, Reads.mid, atPosition]
  · obtain ⟨ks', hks, hunderway⟩ := scanBank_underway (r := ⟨sb, st, eb, et⟩) h hl hp hb hm ht
    refine ⟨_, exec_scanBank h hl hb, fun t ⟨n, hn, hdone⟩ => ?_, fun rs hr => ?_⟩
    · obtain ⟨⟨o, tr, busy, res, rs, draws, htr, rfl⟩, hstream, hres⟩ := hunderway.runOps.finished
        (fun hbusy => runOps_res hbusy hunderway.runOps.live.fault_eq) hn hdone
      obtain ⟨_, hbusy, _⟩ := h
      obtain rfl : busy = [] := hdone
      obtain rfl : res = .none := hres
      refine ⟨by simp [Reads.scanned, hbusy], ?_, ?_, hks.length, hks.read, hks.other⟩
      · rw [Reads.scanned, scanTrace_append, scanTrace_entries] at htr
        simpa only [Reads.entries, Reads.mid, atPosition, List.append_assoc] using htr
      · exact hstream
    · have hlength := Reads.events_length ⟨sb, st, eb, et⟩ s.cfg bk.toNat s.ks
      have hasked := List.append_cancel_left hunderway.bytes
      obtain ⟨_, _, _, _, _, ⟨_, _, hout, _⟩, _⟩ := hl
      have hcount := Orb.count_lt hout
      exact hunderway.finishes hr (by rw [hasked]; omega)

end Sys2Proof.Machine

/-! # Proofs: the key state machine (spec/41_key_state_machine.md)

The table of R162 is read row by row (`transition_idle_start` and the rows after it), what an evaluation does is said once
for each outcome of a row, and what the two commands then do once for an evaluation without an event
(`evaluate_of_silent`), with one (`evaluate_of_event`) and with a fault (`evaluate_of_fault`). -/

/-! ## The table of R162 -/

namespace Sys2Proof.Machine

variable {c : Cfg} {line : Line} {e : KeyEntry} {t : U32}

/-- The rows of an Idle key at a start read (R163, R169). -/
theorem transition_idle_start (h : e.st = 0) (d : Bool) :
    transition c .startLine e d t = if d then .move { st := 1, pt := t } else .keep := by
  cases d <;> simp [transition, keyStOfCode, h, KeySt.code]

/-- The rows of an Idle key at an end read (R167, R169). -/
theorem transition_idle_end (h : e.st = 0) (d : Bool) :
    transition c .endLine e d t = if d then .inconsistent else .keep := by
  cases d <;> simp [transition, keyStOfCode, h]

/-- The rows of a Started key at a start read (R164, R169). -/
theorem transition_started_start (h : e.st = 1) (d : Bool) :
    transition c .startLine e d t =
      if d = false ∧ c.debounceUs < ((t - e.pt).toNat : Int) then .move { st := 0, pt := e.pt } else .keep := by
  cases d <;> simp [transition, keyStOfCode, h, KeySt.code, pastDebounce, elapsedTime]

/-- The rows of a Started key at an end read (R165, R169). -/
theorem transition_started_end (h : e.st = 1) (d : Bool) :
    transition c .endLine e d t = if d then .hit { st := 2, pt := e.pt } (t - e.pt) else .keep := by
  cases d <;> simp [transition, keyStOfCode, h, KeySt.code, elapsedTime]

/-- The rows of a Hit key at a start read (R166, R169). -/
theorem transition_hit_start (h : e.st = 2) (d : Bool) :
    transition c .startLine e d t = if d then .keep else .release { st := 0, pt := e.pt } := by
  cases d <;> simp [transition, keyStOfCode, h, KeySt.code]

/-- The rows of a Hit key at an end read (R168). -/
theorem transition_hit_end (h : e.st = 2) (d : Bool) : transition c .endLine e d t = .keep := by
  simp [transition, keyStOfCode, h]

/-- Code 3 has no row (R162). -/
theorem transition_illegal (h : e.st = 3) (d : Bool) : transition c line e d t = .illegal := by
  simp [transition, keyStOfCode, h]

/-- The codes of a 2-bit field. -/
theorem keyCode_cases (x : BitVec 2) : x = 0 ∨ x = 1 ∨ x = 2 ∨ x = 3 := by
  revert x
  decide

/-- All that an evaluation can come to, by the way it takes the key through the cycle of R176: a change without an event
neither enters Hit nor leaves it. -/
theorem transition_cases (c : Cfg) (line : Line) (e : KeyEntry) (d : Bool) (t : U32) :
    transition c line e d t = .keep ∨ transition c line e d t = .inconsistent ∨ transition c line e d t = .illegal ∨
    (∃ e', transition c line e d t = .move e' ∧ e.st ≠ 2 ∧ e'.st ≠ 2) ∨
    (transition c line e d t = .hit { st := 2, pt := e.pt } (t - e.pt) ∧ e.st = 1 ∧ line = .endLine) ∨
    (transition c line e d t = .release { st := 0, pt := e.pt } ∧ e.st = 2 ∧ line = .startLine) := by
  rcases keyCode_cases e.st with h | h | h | h <;> cases line
  · rw [transition_idle_start h]
    cases d <;> simp [h]
  · rw [transition_idle_end h]
    cases d <;> simp
  · rw [transition_started_start h]
    split_ifs <;> simp [h]
  · rw [transition_started_end h]
    cases d <;> simp [h]
  · rw [transition_hit_start h]
    cases d <;> simp [h]
  · simp [transition_hit_end h]
  · simp [transition_illegal h]
  · simp [transition_illegal h]

/-- Settles O22: in each case of `transition_cases` the event, or its absence, is the one the key's move asks for. -/
theorem eventsFollowTheCycle : Obligations.EventsFollowTheCycle := by
  intro c line e down t
  unfold entryAfter
  rcases transition_cases c line e down t with ht | ht | ht | ⟨e', ht, hfrom, hto⟩ | ⟨ht, hfrom, hline⟩ |
    ⟨ht, hfrom, hline⟩ <;> rw [ht]
  · exact ⟨nofun, nofun, .inl, absurd⟩
  · exact ⟨nofun, nofun, .inl, absurd⟩
  · exact ⟨nofun, nofun, .inl, absurd⟩
  · exact ⟨nofun, nofun, fun h => absurd h hto, fun h => absurd h hfrom⟩
  · exact ⟨fun _ _ h => by cases h; exact ⟨hfrom, rfl, hline⟩, nofun, fun _ => .inr ⟨_, _, rfl⟩, fun _ h => absurd rfl h⟩
  · exact ⟨nofun, fun _ h => by cases h; exact ⟨hfrom, rfl, hline⟩, fun h => absurd h (by decide : (0 : BitVec 2) ≠ 2),
      fun _ _ => ⟨_, rfl⟩⟩

end Sys2Proof.Machine

/-! ## ELAPSED -/

namespace Sys2Proof.Machine

/-- Settles O12: subtraction of 32-bit words is subtraction modulo 2^32. -/
theorem elapsedSubtractsModulo : Obligations.ElapsedSubtractsModulo := by
  refine ⟨fun p hp => by simp [decode, decodePorts, hp], fun s now thn h =>
    ⟨elapsedTime now thn, BitVec.toNat_sub .., ?_⟩⟩
  rw [exec, execElapsed, accept_of_open h]
  rfl

/-- Settles O13: the start cancels modulo 2^32. -/
theorem elapsedIsTheTrueDuration : Obligations.ElapsedIsTheTrueDuration := by
  intro a d
  have hadd : BitVec.ofNat 32 (a + d) = BitVec.ofNat 32 d + BitVec.ofNat 32 a := by
    rw [Nat.add_comm, BitVec.ofNat_add]
  rw [elapsedTime, hadd, BitVec.add_sub_cancel, BitVec.toNat_ofNat]

end Sys2Proof.Machine

/-! ## One evaluation of a key, by its row -/

namespace Sys2Proof.Machine

variable {s : State} {line : Line} {k : Nat} {d : Bool} {t : U32} {e e' : KeyEntry} {m : Message}

theorem evalKey_keep (hget : s.ks[k]? = some e) (ht : transition s.cfg line e d t = .keep) :
    evalKey line k d t s = (none, s) := by
  simp [evalKey, hget, ht]

theorem evalKey_move (hget : s.ks[k]? = some e) (ht : transition s.cfg line e d t = .move e') :
    evalKey line k d t s = (none, s.setKs (s.ks.set k e')) := by
  simp [evalKey, hget, ht]

theorem evalKey_inconsistent (hget : s.ks[k]? = some e) (ht : transition s.cfg line e d t = .inconsistent) :
    evalKey line k d t s = (none, s.emit (.diag 0x01 k)) := by
  simp [evalKey, hget, ht, signalDiag]

theorem evalKey_illegal (hget : s.ks[k]? = some e) (h : e.st = 3) : evalKey line k d t s = (none, s.raiseFault) := by
  simp [evalKey, hget, transition_illegal h]

theorem evalKey_hit {du : U32} (hget : s.ks[k]? = some e) (ht : transition s.cfg line e d t = .hit e' du)
    (hm : hitMessage s.cfg k du = some m) : evalKey line k d t s = (some m, s.setKs (s.ks.set k e')) := by
  simp [evalKey, hget, ht, hm]

theorem evalKey_release (hget : s.ks[k]? = some e) (ht : transition s.cfg line e d t = .release e')
    (hm : encodeOff s.cfg k = some m) : evalKey line k d t s = (some m, s.setKs (s.ks.set k e')) := by
  simp [evalKey, hget, ht, hm]

/-- Wherever an evaluation of the sequencer finds code 3, the model faults (R293). -/
theorem seqEval_illegal {mask : Byte} {ret : RetPhase} {after : Phase} (hpos : s.seq.pos < 8)
    (hbank : s.seq.bank < s.cfg.numBanks) (hget : s.ks[keyId s.seq.bank s.seq.pos]? = some e) (h : e.st = 3) :
    seqEval line mask t ret after s = s.raiseFault := by
  rw [seqEval, if_neg (Nat.ne_of_lt hpos), if_pos ⟨hpos, hbank⟩, evalKey_illegal hget h]
  rfl

end Sys2Proof.Machine

/-! ## One evaluation from the port -/

namespace Sys2Proof.Machine

variable {s u : State} {line : Line} {k : Byte} {d : Bool} {t : U32} {e : KeyEntry} {m : Message}

theorem exec_ksmStart (h : PortOpen s) (hk : k.toNat < s.cfg.numKeys) :
    exec (.ksmStart k d t) s = .next (evaluate .startLine k d t s) :=
  accept_withKey_of_lt h hk _

theorem exec_ksmEnd (h : PortOpen s) (hk : k.toNat < s.cfg.numKeys) :
    exec (.ksmEnd k d t) s = .next (evaluate .endLine k d t s) :=
  accept_withKey_of_lt h hk _

theorem exec_emitHit (h : PortOpen s) (hk : k.toNat < s.cfg.numKeys) :
    exec (.emitHit k t) s = .next (emitMessage (hitMessage s.cfg k.toNat t) s) :=
  accept_withKey_of_lt h hk _

theorem exec_emitRel (h : PortOpen s) (hk : k.toNat < s.cfg.numKeys) :
    exec (.emitRel k) s = .next (emitMessage (encodeOff s.cfg k.toNat) s) :=
  accept_withKey_of_lt h hk _

/-- A body that ends with nothing in progress gives RES no value and changes nothing else. -/
theorem complete_of_idle (h : s.busy = []) : complete s = { s with res := .none } := by
  simp [complete, State.setBusy, State.setRes, h]

/-- An evaluation without an event completes at once. -/
theorem evaluate_of_silent (he : evalKey line k.toNat d t s = (none, u)) (hf : u.fault = false) (hb : u.busy = []) :
    evaluate line k d t s = { u with res := .none } := by
  have hrun : runOps [.push (messageBytes none)] u = { u with res := .none } := by
    rw [runOps_cons_done (s1 := u) rfl hf, runOps_nil, complete_of_idle hb]
  simp only [evaluate, he]
  rw [if_neg (by simp [hf]), hrun]
  exact orFault_of_ok (t := { u with res := .none }) hf

/-- An evaluation that faults makes no other change (spec/60_exceptions.md R326). -/
theorem evaluate_of_fault (he : evalKey line k.toNat d t s = (none, s.raiseFault)) :
    evaluate line k d t s = s.raiseFault := by
  simp [evaluate, he]

/-- The pushes of a message are a body without RB_DRAIN. -/
theorem scanBody_push (c : Cfg) (bs : List Byte) : ScanBody c [.push bs] := by
  simp [ScanBody, MicroGood]

/-- EMIT_HIT and EMIT_REL push their message (spec/43_event_encoder.md R223, R224). -/
theorem emitMessage_some (hl : Live s) (m : Message) : emitMessage (some m) s = runOps [.push m.bytes] s :=
  hl.orFault_runOps (scanBody_push _ _).good

/-- With room for its three bytes a message is stored in one step (spec/43_event_encoder.md R223). -/
theorem emitMessage_room (hl : Live s) (hb : s.busy = []) (hroom : s.orb.count s.cfg.rbCapacity + 3 < s.cfg.rbCapacity)
    (m : Message) :
    ∃ o, Stored s.cfg.rbCapacity s.orb o m.bytes ∧ emitMessage (some m) s = { s with orb := o, res := .none } := by
  obtain ⟨o, hstored, hrun⟩ := runOps_room (ms := [.push m.bytes]) hl (scanBody_push _ _) hroom
  rw [emitMessage_some hl, hrun]
  exact ⟨o, hstored, complete_of_idle (s := s.setOrb o) hb⟩

/-- An evaluation with an event writes the key's entry and then emits the message (R165, R166). -/
theorem evaluate_of_event (hl : Live s) (hk : k.toNat < s.cfg.numKeys)
    (he : evalKey line k.toNat d t s = (some m, u)) : Live u ∧ evaluate line k d t s = emitMessage (some m) u := by
  have hu : Live u := by simpa only [he] using hl.eval (line := line) (d := d) (t := t) hk
  refine ⟨hu, ?_⟩
  simp only [evaluate, he, hu.fault_eq, Bool.false_eq_true, if_false]
  rw [emitMessage_some hu]
  exact hu.orFault_runOps (scanBody_push _ _).good

/-! ## KSM_START -/

/-- Settles O14: the row of an Idle key with the contact closed. -/
theorem ksmStartRecordsThePress : Obligations.KsmStartRecordsThePress := by
  refine ⟨fun p hp => by simp [decode, decodePorts, boolOfPort, hp], fun s k t e h hk hget hidle => ?_⟩
  obtain ⟨hf, hb, _⟩ := id h
  have he := evalKey_move hget (transition_idle_start (t := t) hidle true)
  rw [exec_ksmStart h hk, evaluate_of_silent he hf hb]
  rfl

/-- Settles O15: the row of a Started key with the contact open, past the debounce time. -/
theorem ksmStartRejectsABounce : Obligations.KsmStartRejectsABounce := by
  intro s k t e h hk hget hstarted hpast
  obtain ⟨hf, hb, _⟩ := id h
  have he := evalKey_move hget ((transition_started_start hstarted false).trans (if_pos ⟨rfl, hpast⟩))
  rw [exec_ksmStart h hk, evaluate_of_silent he hf hb]
  rfl

/-- Settles O17: each of the four rows is one that keeps the entry. -/
theorem ksmStartKeepsTheRest : Obligations.KsmStartKeepsTheRest := by
  intro s k d t e h hk hget hrow
  obtain ⟨hf, hb, _⟩ := id h
  have hkeep : transition s.cfg .startLine e d t = .keep := by
    rcases hrow with ⟨hidle, rfl⟩ | ⟨hstarted, rfl⟩ | ⟨hstarted, rfl, hwithin⟩ | ⟨hhit, rfl⟩
    · exact transition_idle_start hidle false
    · exact (transition_started_start hstarted true).trans (if_neg (by simp))
    · exact (transition_started_start hstarted false).trans (if_neg fun ⟨_, hpast⟩ => not_lt.2 hwithin hpast)
    · exact transition_hit_start hhit true
  rw [exec_ksmStart h hk, evaluate_of_silent (evalKey_keep hget hkeep) hf hb]

/-- Settles O16: KSM_START of a Hit key with the contact open and EMIT_REL in the state with the entry written emit the
same message, which `emitMessage_room` completes where there is room. -/
theorem ksmStartReleases : Obligations.KsmStartReleases := by
  intro s k t e h hl hk hget hhit
  obtain ⟨hc, _⟩ := id hl
  obtain ⟨_, hb, _⟩ := id h
  obtain ⟨n, hn, hnote, _⟩ := hc.noteOf_range hk
  have hm : encodeOff s.cfg k.toNat = some { status := noteOffStatus s.cfg, note := n, velocity := 0 } := by
    simp [encodeOff, hn]
  have he := evalKey_release hget (transition_hit_start (t := t) hhit false) hm
  obtain ⟨hu, heval⟩ := evaluate_of_event hl hk he
  have hexec := (exec_ksmStart h hk).trans (congrArg _ heval)
  refine ⟨⟨_, hexec, ?_⟩, fun hroom => ?_⟩
  · rw [← hm]
    exact exec_emitRel (s := s.setKs (s.ks.set k.toNat { st := 0, pt := e.pt })) h hk
  · obtain ⟨o, hstored, hrun⟩ := emitMessage_room hu hb hroom _
    exact ⟨n, o, hnote, hexec.trans (congrArg _ hrun), hstored⟩

/-! ## KSM_END -/

/-- Settles O19: the row of an Idle key with the contact closed. -/
theorem ksmEndReportsTheInconsistency : Obligations.KsmEndReportsTheInconsistency := by
  intro s k t e h hk hget hidle
  obtain ⟨hf, hb, _⟩ := id h
  have he := evalKey_inconsistent hget (transition_idle_end (t := t) hidle true)
  rw [exec_ksmEnd h hk, evaluate_of_silent he hf hb]
  rfl

/-- Settles O20: a Hit key's row and those of an open contact keep the entry. -/
theorem ksmEndKeepsTheRest : Obligations.KsmEndKeepsTheRest := by
  intro s k d t e h hk hget hrow
  obtain ⟨hf, hb, _⟩ := id h
  have hkeep : transition s.cfg .endLine e d t = .keep := by
    rcases hrow with hhit | ⟨hidle, rfl⟩ | ⟨hstarted, rfl⟩
    · exact transition_hit_end hhit d
    · exact transition_idle_end hidle false
    · exact transition_started_end hstarted false
  rw [exec_ksmEnd h hk, evaluate_of_silent (evalKey_keep hget hkeep) hf hb]

/-- Settles O18: KSM_END of a Started key with the contact closed and EMIT_HIT of the elapsed time in the state with the
entry written emit the same message, which `emitMessage_room` completes where there is room. -/
theorem ksmEndHits : Obligations.KsmEndHits := by
  refine ⟨fun p hp => by simp [decode, decodePorts, boolOfPort, hp], fun s k t e h hl hk hget hstarted => ?_⟩
  obtain ⟨hc, _⟩ := id hl
  obtain ⟨_, hb, _⟩ := id h
  obtain ⟨n, hn, hnote, _⟩ := hc.noteOf_range hk
  obtain ⟨v, hv⟩ := hc.velocityOf (t - e.pt)
  have hm : hitMessage s.cfg k.toNat (t - e.pt) = some { status := noteOnStatus s.cfg, note := n, velocity := v } := by
    simp [hitMessage, hv, encodeOn, hn]
  have he := evalKey_hit hget (transition_started_end (t := t) hstarted true) hm
  obtain ⟨hu, heval⟩ := evaluate_of_event hl hk he
  have hexec := (exec_ksmEnd h hk).trans (congrArg _ heval)
  refine ⟨⟨_, hexec, ?_⟩, fun hroom => ?_⟩
  · rw [← hm]
    exact exec_emitHit (s := s.setKs (s.ks.set k.toNat { st := 2, pt := e.pt })) h hk
  · obtain ⟨o, hstored, hrun⟩ := emitMessage_room hu hb hroom _
    exact ⟨n, v, o, hnote, hv, hexec.trans (congrArg _ hrun), hstored⟩

/-! ## Key-state code 3 -/

/-- Settles O21: both reads of a key with code 3 fault, from the port (`evaluate_of_fault`) and in the sequencer
(`seqEval_illegal`). -/
theorem illegalKeyCodeFaults : Obligations.IllegalKeyCodeFaults := by
  refine ⟨fun s k d t e h hk hget hcode => ⟨?_, ?_⟩, fun s e hphase hpos hbank hget hcode => ?_⟩
  · rw [exec_ksmStart h hk, evaluate_of_fault (evalKey_illegal hget hcode)]
    rfl
  · rw [exec_ksmEnd h hk, evaluate_of_fault (evalKey_illegal hget hcode)]
    rfl
  · rcases hphase with hphase | hphase <;> rw [seqStep, hphase] <;>
      exact congrArg _ (seqEval_illegal hpos hbank hget hcode)

end Sys2Proof.Machine

/-! # Proofs: the velocity mapper (spec/42_velocity_mapper.md)

Where VELMAP has a value, its number is the clamped raw velocity (`velocityOf_toNat`). The raw velocity is R201's line
rounded half up (`velocityRaw_eq_floor`), falls with the duration (`velocityRaw_antitone`) and is exact at both ends of
the key-time window; the clamp keeps order and range. -/

/-! ## The clamp -/

namespace Sys2Proof.Machine

variable {x y lo hi : Int}

theorem clamp_le_hi : clamp x lo hi ≤ hi :=
  min_le_right ..

theorem lo_le_clamp (h : lo ≤ hi) : lo ≤ clamp x lo hi :=
  le_min (le_max_right ..) h

theorem clamp_mono (h : x ≤ y) : clamp x lo hi ≤ clamp y lo hi :=
  min_le_min_right hi (max_le_max_right lo h)

theorem clamp_of_mem (hlo : lo ≤ x) (hhi : x ≤ hi) : clamp x lo hi = x := by
  rw [clamp, max_eq_left hlo, min_eq_left hhi]

end Sys2Proof.Machine

/-! ## The rounded velocity -/

namespace Sys2Proof.Machine

variable {c : Cfg} {d d' : U32} {v v' : Byte}

/-- The preconditions of R206, in the terms of R200: `Dt` is positive, `Rv` is not negative. -/
theorem velocityOk_iff :
    velocityOk c = true ↔ 0 < keyTimeSpan c ∧ 0 ≤ velocitySpan c ∧ 1 ≤ c.minVelocity ∧ c.maxVelocity ≤ 127 := by
  simp only [velocityOk, keyTimeSpan, velocitySpan, Bool.and_eq_true, decide_eq_true_eq]
  omega

/-- A whole number is its own half-up rounding. -/
theorem round_half_up_int {span : Int} (hspan : 0 < span) (n : Int) : (2 * span * n + span) / (2 * span) = n := by
  rw [Int.mul_add_ediv_left _ _ (by omega), Int.ediv_eq_zero_of_lt (by omega) (by omega), add_zero]

/-- The first end of the line is `MAX_VELOCITY` (R205). -/
theorem velocityRaw_minKeyTime (h : 0 < keyTimeSpan c) : velocityRaw c c.minKeyTimeUs = c.maxVelocity := by
  rw [← round_half_up_int h c.maxVelocity, velocityRaw]
  congr 1
  ring

/-- The second end of the line is `MIN_VELOCITY` (R205). -/
theorem velocityRaw_maxKeyTime (h : 0 < keyTimeSpan c) : velocityRaw c c.maxKeyTimeUs = c.minVelocity := by
  rw [← round_half_up_int h c.minVelocity, velocityRaw, ← keyTimeSpan, velocitySpan]
  congr 1
  ring

/-- The numerator of R200 falls with the duration, and the floor of its quotient by `2*Dt` with it. -/
theorem velocityRaw_antitone (hdt : 0 < keyTimeSpan c) (hrv : 0 ≤ velocitySpan c) (hle : d.toNat ≤ d'.toNat) :
    velocityRaw c d' ≤ velocityRaw c d := by
  apply Int.ediv_le_ediv (by omega)
  have hfall : ((d.toNat : Int) - c.minKeyTimeUs.toNat) * velocitySpan c ≤
      ((d'.toNat : Int) - c.minKeyTimeUs.toNat) * velocitySpan c :=
    mul_le_mul_of_nonneg_right (by omega) hrv
  linarith

/-- The unrounded velocity x(d) of R201, an exact rational. -/
def velocityLine (c : Cfg) (d : U32) : ℚ :=
  (c.maxVelocity : ℚ) - ((d.toNat : ℚ) - (c.minKeyTimeUs.toNat : ℚ)) * ((c.maxVelocity : ℚ) - (c.minVelocity : ℚ))
    / ((c.maxKeyTimeUs.toNat : ℚ) - (c.minKeyTimeUs.toNat : ℚ))

/-- R202: x(d) + 1/2 is the fraction num / (2*Dt), whose floor is the integer division. -/
theorem velocityRaw_eq_floor (h : 0 < keyTimeSpan c) : velocityRaw c d = ⌊velocityLine c d + 1 / 2⌋ := by
  have hspan : (keyTimeSpan c : ℚ) = (c.maxKeyTimeUs.toNat : ℚ) - (c.minKeyTimeUs.toNat : ℚ) := by
    simp [keyTimeSpan]
  have hne : (keyTimeSpan c : ℚ) ≠ 0 := Int.cast_ne_zero.2 h.ne'
  have hline : velocityLine c d + 1 / 2 =
      ((2 * c.maxVelocity * keyTimeSpan c - 2 * ((d.toNat : Int) - (c.minKeyTimeUs.toNat : Int)) * velocitySpan c
        + keyTimeSpan c : Int) : ℚ) / ((2 * keyTimeSpan c : Int) : ℚ) := by
    rw [velocityLine, ← hspan, velocitySpan]
    push_cast
    field_simp
  rw [hline, Int.floor_div_cast_of_nonneg (by omega), Int.floor_intCast, velocityRaw]

/-! ## VELMAP -/

/-- VELMAP has a value only under R206. -/
theorem velocityOk_of_velocityOf (hv : velocityOf c d = some v) : velocityOk c = true :=
  (Option.ite_none_right_eq_some.1 hv).1

/-- Where VELMAP has a value, the byte holds the clamped number, which R206 keeps within a byte. -/
theorem velocityOf_toNat (hv : velocityOf c d = some v) :
    (v.toNat : Int) = clamp (velocityRaw c d) c.minVelocity c.maxVelocity := by
  have hok := velocityOk_of_velocityOf hv
  obtain ⟨_, hrv, hmin, hmax⟩ := velocityOk_iff.1 hok
  have hlo : c.minVelocity ≤ clamp (velocityRaw c d) c.minVelocity c.maxVelocity :=
    lo_le_clamp (Int.sub_nonneg.1 hrv)
  have hhi : clamp (velocityRaw c d) c.minVelocity c.maxVelocity ≤ c.maxVelocity := clamp_le_hi
  rw [velocityOf, if_pos hok] at hv
  obtain rfl := Option.some.inj hv
  rw [BitVec.toNat_ofNat]
  omega

/-- A legal configuration gives every duration its clamped number. -/
theorem ConfigOk.velocityOf_clamp (h : ConfigOk c) (d : U32) :
    ∃ v, Machine.velocityOf c d = some v ∧
      (v.toNat : Int) = clamp (velocityRaw c d) c.minVelocity c.maxVelocity := by
  obtain ⟨v, hv⟩ := h.velocityOf d
  exact ⟨v, hv, velocityOf_toNat hv⟩

theorem exec_velmap {s : State} (h : PortOpen s) (hv : velocityOf s.cfg d = some v) :
    exec (.velmap d) s = .next { s with res := .u8 v } := by
  rw [exec, execVelmap, accept_of_open h, hv]
  rfl

/-- Settles O23: the divisor `2*Dt` is positive, so the floor is the model's division. -/
theorem velmapIsTheIntegerFormula : Obligations.VelmapIsTheIntegerFormula := by
  refine ⟨fun p hp => by simp [decode, decodePorts, hp], fun s d h hc => ?_⟩
  obtain ⟨v, hv, hval⟩ := hc.velocityOf_clamp d
  obtain ⟨hdt, _⟩ := velocityOk_iff.1 hc.velocityOk
  obtain ⟨hpos, hlt⟩ := hc.velocityOf_range hv
  refine ⟨v, exec_velmap h hv, keyTimeSpan s.cfg, velocitySpan s.cfg, _, rfl, rfl, rfl, ?_, hpos, Nat.le_of_lt_succ hlt⟩
  rw [Int.fdiv_eq_ediv_of_nonneg _ (by omega)]
  exact hval

/-- Settles O24: the clamped number is the floor of the line plus one half (`velocityRaw_eq_floor`). -/
theorem velmapRoundsHalfUp : Obligations.VelmapRoundsHalfUp := by
  intro c d v hv
  obtain ⟨hdt, _⟩ := velocityOk_iff.1 (velocityOk_of_velocityOf hv)
  have hval := velocityOf_toNat hv
  rw [velocityRaw_eq_floor hdt] at hval
  exact hval

/-- Settles O25: the clamp keeps the order of the raw velocities and their range, and leaves the two ends as they are. -/
theorem velmapLaws : Obligations.VelmapLaws := by
  intro c hc
  obtain ⟨hdt, hrv, _⟩ := velocityOk_iff.1 hc.velocityOk
  have hle : c.minVelocity ≤ c.maxVelocity := Int.sub_nonneg.1 hrv
  refine ⟨fun d d' v v' hv hv' hdd => ?monotone, fun d => ?range, ?fastest, ?slowest⟩
  case monotone =>
    have hclamp := clamp_mono (lo := c.minVelocity) (hi := c.maxVelocity) (velocityRaw_antitone hdt hrv hdd)
    rw [← velocityOf_toNat hv, ← velocityOf_toNat hv'] at hclamp
    exact Int.ofNat_le.1 hclamp
  case range =>
    obtain ⟨v, hv, hval⟩ := hc.velocityOf_clamp d
    exact ⟨v, hv, hval ▸ lo_le_clamp hle, hval ▸ clamp_le_hi⟩
  case fastest =>
    obtain ⟨v, hv, hval⟩ := hc.velocityOf_clamp c.minKeyTimeUs
    rw [velocityRaw_minKeyTime hdt, clamp_of_mem hle le_rfl] at hval
    exact ⟨v, hv, hval⟩
  case slowest =>
    obtain ⟨v, hv, hval⟩ := hc.velocityOf_clamp c.maxKeyTimeUs
    rw [velocityRaw_maxKeyTime hdt, clamp_of_mem le_rfl hle] at hval
    exact ⟨v, hv, hval⟩

end Sys2Proof.Machine

/-! # Proofs: the event encoder (spec/43_event_encoder.md)

A legal configuration gives every key its note (`ConfigOk.noteOf_range`), and ENC_ON and ENC_OFF build their message
from it. EMIT_HIT and EMIT_REL are bodies of one push (`emitMessage_some`); how such a body ends, waits and finishes
is said once for any bytes (`messagePushed_of_body`). -/

/-! ## Building a message -/

namespace Sys2Proof.Machine

/-! A key's note gives its messages. -/

section

variable {c : Cfg} {k : Nat} {n v : Byte}

theorem encodeOn_of_noteOf (hn : noteOf c k = some n) (v : Byte) :
    encodeOn c k v = some { status := noteOnStatus c, note := n, velocity := v } := by
  rw [encodeOn, hn]

theorem encodeOff_of_noteOf (hn : noteOf c k = some n) :
    encodeOff c k = some { status := noteOffStatus c, note := n, velocity := 0 } := by
  rw [encodeOff, hn]

theorem hitMessage_of_noteOf {d : U32} (hn : noteOf c k = some n) (hv : velocityOf c d = some v) :
    hitMessage c k d = some { status := noteOnStatus c, note := n, velocity := v } := by
  rw [hitMessage, hv]
  exact encodeOn_of_noteOf hn v

end

variable {s : State} {k n : Byte}

theorem exec_notenum (h : PortOpen s) (hk : k.toNat < s.cfg.numKeys) (hn : noteOf s.cfg k.toNat = some n) :
    exec (.notenum k) s = .next { s with res := .u8 n } := by
  rw [exec, execNotenum, accept_withKey_of_lt h hk, hn]
  rfl

theorem exec_encOn (h : PortOpen s) (hk : k.toNat < s.cfg.numKeys) (v : Byte) :
    exec (.encOn k v) s = if v.toNat ≤ 127 then .next (resMessage (encodeOn s.cfg k.toNat v) s)
      else .refused (.operandRange .v) := by
  simp only [exec, execEncOn, accept_withKey_of_lt h hk, velocityInRange, decide_eq_true_eq]

theorem exec_encOff (h : PortOpen s) (hk : k.toNat < s.cfg.numKeys) :
    exec (.encOff k) s = .next (resMessage (encodeOff s.cfg k.toNat) s) :=
  accept_withKey_of_lt h hk _

/-- Settles O6: both rows answer it whatever the state holds. -/
theorem midiMessagesAreRefused : Obligations.MidiMessagesAreRefused :=
  fun _ _ _ _ => ⟨rfl, rfl⟩

/-- Settles O26: the note of a key is in range by INIT's check (`ConfigOk.noteOf_range`). -/
theorem notenumAddsTheOffset : Obligations.NotenumAddsTheOffset := by
  refine ⟨fun p hp => by simp [decode, decodePorts, hp], fun s k h hc hk => ?_⟩
  obtain ⟨n, hn, hnote, _⟩ := hc.noteOf_range hk
  exact ⟨n, hnote, exec_notenum h hk hn⟩

/-- Settles O27: the two sides of the test on V (`exec_encOn`). -/
theorem encOnBuildsNoteOn : Obligations.EncOnBuildsNoteOn := by
  refine ⟨fun p hp => by simp [decode, decodePorts, hp], fun s k v h hc hk => ⟨fun hv => ?_, fun hv => ?_⟩⟩
  · obtain ⟨n, hn, hnote, _⟩ := hc.noteOf_range hk
    refine ⟨n, hnote, ?_⟩
    rw [exec_encOn h hk, if_pos hv, encodeOn_of_noteOf hn]
    rfl
  · rw [exec_encOn h hk, if_neg (Nat.not_le.2 hv)]

/-- Settles O28: the message of a key that has its note (`encodeOff_of_noteOf`). -/
theorem encOffBuildsNoteOff : Obligations.EncOffBuildsNoteOff := by
  refine ⟨fun p hp => by simp [decode, decodePorts, hp], fun s k h hc hk => ?_⟩
  obtain ⟨n, hn, hnote, _⟩ := hc.noteOf_range hk
  refine ⟨n, hnote, ?_⟩
  rw [exec_encOff h hk, encodeOff_of_noteOf hn]
  rfl

end Sys2Proof.Machine

/-! ## Pushing a message -/

namespace Sys2Proof.Machine

variable {s : State} {bs : List Byte}

/-- Pushes that find less room than they ask for store as many bytes as there is room for, and wait with the rest after
one drain attempt (spec/44_ring_buffer.md R274, R275). -/
theorem runOps_push_wait {room : Nat} (hl : Live s) (hroom : room = s.cfg.rbCapacity - 1 - s.orb.count s.cfg.rbCapacity)
    (hless : room < bs.length) :
    ∃ o, Stored s.cfg.rbCapacity s.orb o (bs.take room) ∧ o.isFull s.cfg.rbCapacity = true ∧
      runOps [.push bs] s = (drain (s.setOrb o)).2.setBusy [.push (bs.drop room)] := by
  obtain ⟨_, hf, _, _, _, hgood, _⟩ := hl
  obtain ⟨pushed, o, hbytes, hstored, ho, hend⟩ := pushBytes_cases bs hgood
  obtain ⟨_, hin, hout, _⟩ := id ho
  have hcount := hstored.count hgood ho
  rcases hend with ⟨hleft, _⟩ | ⟨hleft, hfull, hnext⟩
  · exfalso
    have hlt := Orb.count_lt (o := o) hout
    rw [hleft, List.append_nil] at hbytes
    rw [hbytes] at hless
    omega
  · obtain ⟨b, left, hcons⟩ := List.exists_cons_of_ne_nil hleft
    have hlength : room = pushed.length := by
      have hcap := (Orb.isFull_iff_count hin hout).1 hfull
      omega
    have hdrain : (drain (s.setOrb o)).2.fault = false := (drain_good (s := s.setOrb o) ho).1.trans hf
    have hdo : doMicro (.push bs) s = (b :: left, (drain (s.setOrb o)).2) := Prod.ext hcons hnext
    rw [hcons] at hbytes
    refine ⟨o, ?_, hfull, ?_⟩
    · rwa [hlength, hbytes, List.take_left]
    · rw [runOps_cons_wait hdo hdrain, hlength, hbytes, List.drop_left]

/-- A body of one push, at the outset of its waits (R275). -/
theorem push_underway (h : PortOpen s) (hl : Live s) (hp : s.port = []) (bs : List Byte) :
    Underway s (stream s ++ bs) [.push bs] s where
  live := hl
  body := scanBody_push _ _
  scripted := ⟨Nat.zero_le _, Nat.zero_le _⟩
  same := .refl s
  bytes := by simp [bodyAsked, Micro.asked]
  running := by
    obtain ⟨_, _, _, hrunning, _⟩ := h
    exact hrunning
  port := hp

/-- A command whose meaning is one push completes where there is room, waits where there is not, and finishes with only
the wait's changes and its bytes last in the stream (R223, R225, R275). -/
theorem messagePushed_of_body {i : Instr} (h : PortOpen s) (hl : Live s)
    (hexec : exec i s = .next (runOps [.push bs] s)) : MessagePushed i s bs := by
  obtain ⟨_, hbusy, _⟩ := id h
  obtain ⟨_, _, _, _, _, ⟨hcap, _, hout, _⟩, _⟩ := id hl
  have hcount := Orb.count_lt (o := s.orb) hout
  have hasked : bodyAsked [.push bs] s = bs := List.append_nil bs
  refine ⟨fun hroom => ?room, fun hroom => ?wait, fun hp u t hu ⟨m, hm, hdone⟩ => ?finished, fun hp rs hr => ?finishes⟩
  case room =>
    obtain ⟨o, hstored, hrun⟩ := runOps_room (ms := [.push bs]) hl (scanBody_push _ _) (by rw [hasked]; omega)
    have hdone : complete (s.setOrb o) = { s with orb := o, res := .none } := complete_of_idle hbusy
    exact ⟨o, hexec.trans (congrArg _ (hrun.trans hdone)), hasked ▸ hstored⟩
  case wait =>
    obtain ⟨o, hstored, hfull, hrun⟩ := runOps_push_wait hl rfl hroom
    exact ⟨o, hstored, hfull, hexec.trans (congrArg _ hrun)⟩
  case finished =>
    obtain rfl := Host.Outcome.next.inj (hexec.symm.trans hu)
    have hunderway := (push_underway h hl hp bs).runOps
    obtain ⟨⟨o, tr, busy, res, rs, draws, htr, rfl⟩, hstream, hres⟩ :=
      hunderway.finished (fun hb => runOps_res hb hunderway.live.fault_eq) hm hdone
    obtain rfl : busy = [] := hdone
    obtain rfl : res = .none := hres
    exact ⟨by simp [hbusy], htr, hstream⟩
  case finishes =>
    obtain ⟨t, ht⟩ := (push_underway h hl hp bs).finishes hr (by rw [hasked]; omega)
    exact ⟨_, t, hexec, ht⟩

/-- Settles O29: EMIT_HIT is a body of one push (`messagePushed_of_body`), of the Note On with VELMAP's velocity. -/
theorem emitHitPushesNoteOn : Obligations.EmitHitPushesNoteOn := by
  refine ⟨fun p hp => by simp [decode, decodePorts, hp], fun s k d h hl hk => ?_⟩
  obtain ⟨hc, _⟩ := id hl
  obtain ⟨n, hn, hnote, _⟩ := hc.noteOf_range hk
  obtain ⟨v, hv⟩ := hc.velocityOf d
  refine ⟨n, v, hnote, hv, messagePushed_of_body h hl ?_⟩
  rw [exec_emitHit h hk, hitMessage_of_noteOf hn hv, emitMessage_some hl]
  rfl

/-- Settles O30: EMIT_REL is a body of one push (`messagePushed_of_body`), of the Note Off. -/
theorem emitRelPushesNoteOff : Obligations.EmitRelPushesNoteOff := by
  refine ⟨fun p hp => by simp [decode, decodePorts, hp], fun s k h hl hk => ?_⟩
  obtain ⟨hc, _⟩ := id hl
  obtain ⟨n, hn, hnote, _⟩ := hc.noteOf_range hk
  refine ⟨n, hnote, messagePushed_of_body h hl ?_⟩
  rw [exec_emitRel h hk, encodeOff_of_noteOf hn, emitMessage_some hl]
  rfl

end Sys2Proof.Machine

/-! # Proofs: the ring buffer (spec/44_ring_buffer.md)

One drain attempt has three outcomes, an equation for each (`drain_of_empty`, `drain_of_not_ready`, `drain_of_ready`);
a push writes where there is room and makes such an attempt where there is none (`runOps_push_room`,
`runOps_push_full`). The operations are put together from these, and the endless wait (R275) is n failed attempts in a
row (`State.afterFailed`). -/

/-! ## The flag queries -/

namespace Sys2Proof.Machine

variable {s : State} {cap : Nat} {o : Orb}

theorem Orb.isEmpty_iff : o.isEmpty = true ↔ o.inIdx = o.outIdx := decide_eq_true_iff

theorem Orb.isEmpty_eq_false_iff : o.isEmpty = false ↔ o.inIdx ≠ o.outIdx := decide_eq_false_iff_not

theorem Orb.isFull_iff : o.isFull cap = true ↔ (o.inIdx + 1) % cap = o.outIdx := decide_eq_true_iff

theorem Orb.isFull_eq_false_iff : o.isFull cap = false ↔ (o.inIdx + 1) % cap ≠ o.outIdx := decide_eq_false_iff_not

/-- With both indices in range a flag query answers its flag. -/
theorem resFlag_of_inRange (h : s.orb.inRange s.cfg.rbCapacity = true) (flag : Bool) :
    resFlag flag s = { s with res := .bool flag } := if_pos h

/-- Settles O31: both queries are `resFlag` of a flag that compares the indices. -/
theorem rbFlagsReportEmptyAndFull : Obligations.RbFlagsReportEmptyAndFull := by
  refine ⟨fun p hp => by simp [decode, decodePorts, hp], fun p hp => by simp [decode, decodePorts, hp],
    fun s h hin hout => ?_⟩
  have hrange := Orb.inRange_iff.2 ⟨hin, hout⟩
  constructor
  · rw [exec, execRbIsEmpty, accept_of_open h, resFlag_of_inRange hrange]
    rfl
  · rw [exec, execRbIsFull, accept_of_open h, resFlag_of_inRange hrange]
    rfl

end Sys2Proof.Machine

/-! ## RB_TRY_POP and RB_DRAIN -/

namespace Sys2Proof.Machine

variable {s t : State} {e : Env}

theorem exec_rbTryPop {b : Option Byte} (h : PortOpen s) (hpop : tryPop s = (b, t)) (hf : t.fault = false) :
    exec .rbTryPop s = .next { t with res := .optU8 b } := by
  rw [exec, execRbTryPop, accept_of_open h, hpop]
  exact congrArg _ (if_neg (by simp [hf]))

theorem exec_rbDrain {sent : Bool} (h : PortOpen s) (hdrain : drain s = (sent, t)) (hf : t.fault = false) :
    exec .rbDrain s = .next { t with res := .bool sent } := by
  rw [exec, execRbDrain, accept_of_open h, hdrain]
  exact congrArg _ (if_neg (by simp [hf]))

/-- Settles O33: the two outcomes of `tryPop_cases`, and the byte popped is the oldest (`Orb.bytes_drop`). -/
theorem tryPopReturnsTheOldestByte : Obligations.TryPopReturnsTheOldestByte := by
  refine ⟨fun p hp => by simp [decode, decodePorts, hp], fun s h hl => ?_⟩
  obtain ⟨_, hf, _, _, _, hgood, _⟩ := hl
  obtain ⟨_, hin, hout, _⟩ := id hgood
  rcases tryPop_cases hgood with ⟨hempty, hpop⟩ | ⟨hsome, b, hread, hpop⟩
  · exact ⟨fun _ => exec_rbTryPop h hpop hf, fun hne => absurd (Orb.isEmpty_iff.1 hempty) hne⟩
  · exact ⟨fun heq => absurd heq (Orb.isEmpty_eq_false_iff.1 hsome), fun _ =>
      ⟨b, s.orb.drop s.cfg.rbCapacity, exec_rbTryPop h hpop hf, rfl, hread, Orb.bytes_drop hin hout hsome hread⟩⟩

/-- An empty buffer is not drained, and the transmitter is not asked (R273). -/
theorem drain_of_empty (h : OrbGood s.cfg.rbCapacity s.orb) (hempty : s.orb.isEmpty = true) : drain s = (false, s) := by
  rcases drain_cases h with ⟨_, hdrain⟩ | ⟨hsome, _⟩ | ⟨hsome, _⟩
  · exact hdrain
  · simp [hempty] at hsome
  · simp [hempty] at hsome

/-- A transmitter that is not ready leaves the buffer as it is (R273). -/
theorem drain_of_not_ready (h : OrbGood s.cfg.rbCapacity s.orb) (hsome : s.orb.isEmpty = false)
    (hr : s.env.drawReady = (false, e)) :
    drain s = (false, { s with trace := s.trace ++ [.ready false], env := e }) := by
  rcases drain_cases h with ⟨hempty, _⟩ | ⟨_, _, hdrain⟩ | ⟨_, hready, _⟩
  · simp [hsome] at hempty
  · rw [hdrain, afterQuery, hr]
    rfl
  · simp [hr] at hready

/-- A ready transmitter takes the oldest byte (R273). -/
theorem drain_of_ready (h : OrbGood s.cfg.rbCapacity s.orb) (hsome : s.orb.isEmpty = false)
    (hr : s.env.drawReady = (true, e)) :
    ∃ b, Memory.read s.orb.mem s.orb.outIdx = some b ∧
      drain s = (true, { s with
        orb := s.orb.drop s.cfg.rbCapacity, trace := s.trace ++ [.ready true, .tx b], env := e }) := by
  rcases drain_cases h with ⟨hempty, _⟩ | ⟨_, hready, _⟩ | ⟨_, _, b, hread, hdrain⟩
  · simp [hsome] at hempty
  · simp [hr] at hready
  · refine ⟨b, hread, ?_⟩
    rw [hdrain, afterQuery, hr]
    simp [State.emit, State.setEnv, State.setOrb]

/-- Settles O34: one outcome of a drain attempt for each clause. -/
theorem drainSendsAtMostOneByte : Obligations.DrainSendsAtMostOneByte := by
  refine ⟨fun p hp => by simp [decode, decodePorts, hp], fun s r e h hl hr => ?_⟩
  obtain ⟨_, hf, _, _, _, hgood, _⟩ := hl
  refine ⟨fun heq => ?empty, fun hne hnot => ?notReady, fun hne hready => ?ready⟩
  case empty => exact exec_rbDrain h (drain_of_empty hgood (Orb.isEmpty_iff.2 heq)) hf
  case notReady =>
    subst hnot
    exact exec_rbDrain h (drain_of_not_ready hgood (Orb.isEmpty_eq_false_iff.2 hne) hr) hf
  case ready =>
    subst hready
    obtain ⟨b, hread, hdrain⟩ := drain_of_ready hgood (Orb.isEmpty_eq_false_iff.2 hne) hr
    exact ⟨b, hread, exec_rbDrain h hdrain hf⟩

end Sys2Proof.Machine

/-! ## RB_PUSH -/

namespace Sys2Proof.Machine

variable {s : State} {cap : Nat} {o : Orb} {b : Byte}

/-- RB_PUSH is a body of one push, which does not fault in a live state (R274). -/
theorem exec_rbPush (h : PortOpen s) (hl : Live s) (b : Byte) :
    exec (.rbPush b) s = .next (runOps [.push [b]] s) := by
  rw [exec, execRbPush, accept_of_open h, hl.orFault_runOps (push_good _ _)]

/-- A byte that finds room is written at `ORB.in`, and the body ends (R274). -/
theorem runOps_push_room (hl : Live s) (hroom : s.orb.isFull s.cfg.rbCapacity = false) (b : Byte) :
    runOps [.push [b]] s = complete (s.setOrb (s.orb.put s.cfg.rbCapacity b)) := by
  obtain ⟨_, hf, _, _, _, hgood, _⟩ := hl
  have hdo : doMicro (.push [b]) s = ([], s.setOrb (s.orb.put s.cfg.rbCapacity b)) := by
    simp [doMicro, pushBytes, hgood.inRange, hroom]
  rw [runOps_cons_done hdo hf, runOps_nil]

/-- Bytes that find no room make one drain attempt and stay to be pushed (R274, R275). -/
theorem runOps_push_full (hl : Live s) (hfull : s.orb.isFull s.cfg.rbCapacity = true) (b : Byte) (bs : List Byte) :
    runOps [.push (b :: bs)] s = (drain s).2.setBusy [.push (b :: bs)] := by
  have hf := hl.drain.fault_eq
  obtain ⟨_, _, _, _, _, hgood, _⟩ := hl
  have hdo : doMicro (.push (b :: bs)) s = (b :: bs, (drain s).2) := by
    simp [doMicro, pushBytes, hgood.inRange, hfull]
  rw [runOps_cons_wait hdo hf]

/-- FULL and EMPTY are never both true (R271). -/
theorem OrbGood.isEmpty_of_full (h : OrbGood cap o) (hfull : o.isFull cap = true) : o.isEmpty = false := by
  obtain ⟨hcap, hin, hout, _⟩ := h
  have hcount := (Orb.isFull_iff_count hin hout).1 hfull
  rw [← Bool.not_eq_true, Orb.isEmpty_iff_count hin hout]
  omega

/-- A pop leaves room for a byte (R261). -/
theorem OrbGood.isFull_drop (h : OrbGood cap o) (hsome : o.isEmpty = false) : (o.drop cap).isFull cap = false := by
  obtain ⟨_, hin', hout', _⟩ := h.drop hsome
  obtain ⟨_, hin, hout, _⟩ := h
  have hdrop := Orb.count_drop hin hout hsome
  have hlt := Orb.count_lt (o := o) hout
  rw [← Bool.not_eq_true, Orb.isFull_iff_count hin' hout']
  omega

/-- Settles O35: with room RB_PUSH is one `Orb.put` (`runOps_push_room`). -/
theorem pushWritesTheNextSlot : Obligations.PushWritesTheNextSlot := by
  refine ⟨fun p hp => by simp [decode, decodePorts, hp], fun s b h hl hne => ?_⟩
  obtain ⟨_, hbusy, _⟩ := id h
  obtain ⟨_, _, _, _, _, ⟨_, hin, hout, _⟩, _⟩ := id hl
  have hroom := Orb.isFull_eq_false_iff.2 hne
  refine ⟨Memory.write s.orb.mem s.orb.inIdx b, ?_, Memory.read_write_same .., fun i hi =>
    Memory.read_write_other _ _ hi, Orb.bytes_put b hin hout hroom⟩
  rw [exec_rbPush h hl, runOps_push_room hl hroom, complete_of_idle (s := s.setOrb (s.orb.put _ b)) hbusy]
  rfl

/-- Settles O36: the command's step is the drain attempt (`runOps_push_full`), which leaves room for the byte, so that
the next step writes it (`runOps_push_room`). -/
theorem pushOnFullDrainsOneByteFirst : Obligations.PushOnFullDrainsOneByteFirst := by
  intro s b e h hl heq hr
  obtain ⟨_, hbusy, _⟩ := id h
  obtain ⟨_, _, _, _, _, hgood, _⟩ := id hl
  obtain ⟨_, hin, hout, _⟩ := id hgood
  have hfull := Orb.isFull_iff.2 heq
  have hsome := hgood.isEmpty_of_full hfull
  have hroom := hgood.isFull_drop hsome
  obtain ⟨_, hin', hout', _⟩ := hgood.drop hsome
  obtain ⟨old, hread, hdrain⟩ := drain_of_ready hgood hsome hr
  have hwait := runOps_push_full hl hfull b []
  have hlive := hl.runOps (push_good s.cfg [b])
  rw [hdrain] at hwait
  rw [hwait] at hlive
  refine ⟨_, _, old, (s.orb.drop s.cfg.rbCapacity).bytes s.cfg.rbCapacity, Orb.bytes_drop hin hout hsome hread,
    (exec_rbPush h hl b).trans (congrArg _ hwait),
    (hlive.step_busy (List.cons_ne_nil _ _)).trans (congrArg _ (runOps_push_room hlive hroom b)),
    ?frame, rfl, rfl, Memory.read_write_same .., fun i hi => Memory.read_write_other _ _ hi,
    Orb.bytes_put b hin' hout' hroom⟩
  case frame => simp [complete, State.setBusy, State.setRes, State.setOrb, hbusy]

end Sys2Proof.Machine

/-! ## The endless wait -/

namespace Sys2Proof.Machine

variable {s : State} {b : Byte} {bs : List Byte} {rs : List Bool}

/-- `s` after `n` drain attempts that found the transmitter not ready, with the answers `rs` left (R275). -/
def State.afterFailed (n : Nat) (rs : List Bool) (s : State) : State :=
  { s with
    trace := s.trace ++ List.replicate n (.ready false)
    env := { s.env with readies := rs, draws := s.env.draws + n } }

theorem afterFailed_zero (s : State) : s.afterFailed 0 s.env.readies = s := by
  simp [State.afterFailed]

theorem afterFailed_afterFailed (m n : Nat) (qs rs : List Bool) (s : State) :
    (s.afterFailed m qs).afterFailed n rs = s.afterFailed (m + n) rs := by
  simp [State.afterFailed, Nat.add_assoc]

/-- A push on a full buffer with the transmitter not ready waits, with one failed attempt more (R274). -/
theorem runOps_push_not_ready (hl : Live s) (hfull : s.orb.isFull s.cfg.rbCapacity = true)
    (hr : s.env.readies = false :: rs) :
    runOps [.push (b :: bs)] s = (s.setBusy [.push (b :: bs)]).afterFailed 1 rs := by
  obtain ⟨_, _, _, _, _, hgood, _⟩ := id hl
  have hdraw : s.env.drawReady = (false, { s.env with readies := rs, draws := s.env.draws + 1 }) := by
    simp [Env.drawReady, hr]
  rw [runOps_push_full hl hfull, drain_of_not_ready hgood (hgood.isEmpty_of_full hfull) hdraw]
  rfl

/-- A waiting push makes a failed attempt in each step in which the transmitter is not ready (R275). -/
theorem runSteps_waiting (n : Nat) (hl : Live s) (hbusy : s.busy = [.push (b :: bs)])
    (hfull : s.orb.isFull s.cfg.rbCapacity = true) (hr : s.env.readies = List.replicate n false ++ rs) :
    runSteps n s = .next (s.afterFailed n rs) := by
  induction n generalizing s with
  | zero =>
    obtain rfl : s.env.readies = rs := hr
    rw [afterFailed_zero]
    rfl
  | succ n ih =>
    have hnot : s.env.readies = false :: (List.replicate n false ++ rs) := hr
    have hstep : step s = .next (s.afterFailed 1 (List.replicate n false ++ rs)) := by
      have hsame : s.setBusy [.push (b :: bs)] = s := by rw [← hbusy]; rfl
      rw [hl.step_busy (hbusy ▸ List.cons_ne_nil _ _), hbusy, runOps_push_not_ready hl hfull hnot, hsame]
    rw [runSteps, hstep, Nat.add_comm n 1, ← afterFailed_afterFailed 1 n (List.replicate n false ++ rs)]
    exact ih hl hbusy hfull rfl

/-- Settles O37: the command's step is the first failed attempt, and each further step is one more
(`runSteps_waiting`). -/
theorem pushWaitsWithoutEnd : Obligations.PushWaitsWithoutEnd := by
  intro n s b rs h hl heq hr
  have hfull := Orb.isFull_iff.2 heq
  have hwait := runOps_push_not_ready (b := b) (bs := []) hl hfull hr
  have hlive := hl.runOps (push_good s.cfg [b])
  rw [hwait] at hlive
  refine ⟨_, (exec_rbPush h hl b).trans (congrArg _ hwait), ?_⟩
  rw [runSteps_waiting n hlive rfl hfull rfl, afterFailed_afterFailed, Nat.add_comm 1 n]
  rfl

end Sys2Proof.Machine

/-! # Proofs: the scan loop (spec/45_scan_loop.md)

Each row of R292 is one equation of `seqStep` (`seqStep_iterDrain` and the rows after it). LOOP_ITER and the sequencer
are both compared with `bodyStep`, which runs a body one byte or one drain attempt at a time: a step of a body that
waits is some steps of `bodyStep` (`runOps_advance`), and so is a row of the sequencer, on the statements that are still
to come for it (`toCome`, `stepsWith_of_core`). As `bodyStep` is a function, each of the two ends exactly where it does
(R295). -/

/-! ## RUN, and where there is no step -/

namespace Sys2Proof.Machine

variable {s : State}

/-- Once RUN has been given, a step is the sequencer's, whatever is offered (R296, R299). -/
theorem step_of_running (hf : s.fault = false) (hb : s.busy = []) (hr : s.running = true) : step s = seqStep s := by
  simp only [step, hf, hb, hr, Bool.false_eq_true, if_false, if_true]

/-- Settles O41: in the open port's phase, P_ITER_DRAIN, RUN sets the running bit alone; then `step_of_running`. -/
theorem runStartsTheSequencer : Obligations.RunStartsTheSequencer := by
  refine ⟨fun p hp => by simp [decode, decodePorts, hp], fun s h => ?_, fun s => step_of_running⟩
  obtain ⟨_, _, _, _, hphase⟩ := id h
  rw [exec, execRun, accept_of_open h, State.setPhase, ← hphase]
  rfl

/-- Settles O49: FAULT is the first thing a step, INIT and every other command test; a refused block that is offered
nothing is stuck. -/
theorem noStepAfterFaultOrRefusal : Obligations.NoStepAfterFaultOrRefusal := by
  refine ⟨fun s hf => ?_, fun s i hf hon hoff => ?_, fun s ⟨hphase, hf, hr, hb, hrun⟩ hp => ?_⟩
  · rw [step, if_pos hf]
  · by_cases hinit : i = .init
    · subst hinit
      rw [exec, execInit, if_pos hf]
    · obtain ⟨f, hexec⟩ := exec_eq_accept hinit hon hoff s
      rw [hexec, accept, if_pos hf]
  · simp [step, stepIdle, hf, hb, hrun, hp, hphase, hr]

/-- Settles O50: the open port's block is neither before INIT nor refused, so `stepIdle` has nothing to do. -/
theorem noStepBetweenCommands : Obligations.NoStepBetweenCommands := by
  rintro s ⟨hf, hb, hr, hrun, hphase⟩ hp
  simp [step, stepIdle, hf, hb, hrun, hp, hphase, hr]

end Sys2Proof.Machine

/-! ## The phase at the command port -/

namespace Sys2Proof.Machine

variable {s t : State}

theorem orFault_phase (h : t.seq.phase = s.seq.phase) : (s.orFault t).seq.phase = s.seq.phase := by
  rcases orFault_cases s t with ⟨_, e⟩ | ⟨_, e⟩ <;> rw [e]
  · exact h
  · rfl

/-- The body of a command leaves the phase as it is, whether it faults or not (R299). -/
theorem orFault_runOps_phase (ms : List Micro) (s : State) : (s.orFault (runOps ms s)).seq.phase = s.seq.phase := by
  obtain ⟨_, _, _, _, hphase⟩ := runOps_frame ms s
  exact orFault_phase hphase

theorem evaluate_phase (line : Line) (k : Byte) (d : Bool) (time : U32) (s : State) :
    (evaluate line k d time s).seq.phase = s.seq.phase := by
  have he : (evalKey line k.toNat d time s).2.seq.phase = s.seq.phase := by rw [evalKey_frame]
  obtain ⟨_, _, _, _, hphase⟩ :=
    runOps_frame [.push (messageBytes (evalKey line k.toNat d time s).1)] (evalKey line k.toNat d time s).2
  simp only [evaluate]
  split_ifs
  · exact he
  · exact orFault_phase (hphase.trans he)

theorem tryPop_phase (s : State) : (tryPop s).2.seq.phase = s.seq.phase := by
  rcases tryPop_any s with h | h | ⟨b, h⟩ <;> rw [h] <;> rfl

theorem drain_seq (s : State) : (drain s).2.seq = s.seq := by rw [drain_frame]

theorem emitMessage_phase (m : Option Message) (s : State) : (emitMessage m s).seq.phase = s.seq.phase := by
  cases m with
  | none => rfl
  | some m => exact orFault_runOps_phase _ s

theorem resMessage_phase (m : Option Message) (s : State) : (resMessage m s).seq.phase = s.seq.phase := by
  cases m <;> rfl

theorem resFlag_phase (flag : Bool) (s : State) : (resFlag flag s).seq.phase = s.seq.phase := by
  unfold resFlag
  split_ifs <;> rfl

/-- Every operation of the port but INIT and RUN leaves the phase as it is (R299). -/
theorem exec_phase {i : Instr} (hinit : i ≠ .init) (hrun : i ≠ .run) (he : exec i s = .next t) :
    t.seq.phase = s.seq.phase := by
  cases i <;> simp only [exec, execSrBeginPass, execSrStep, execSnapRead, execScanBank, execElapsed, execKsmStart,
    execKsmEnd, execVelmap, execNotenum, execEncOn, execEncOff, execEmitHit, execEmitRel, execRbIsEmpty, execRbIsFull,
    execRbTryPop, execRbDrain, execRbPush, execScanPass, execLoopIter, execMidiNoteOn, execMidiNoteOff,
    reduceCtorEq] at he
  case init => exact absurd rfl hinit
  case run => exact absurd rfl hrun
  case srBeginPass => rw [← accept_answer he, beginPass_eq]; rfl
  case srStep => rw [← accept_answer he, stepChain_eq]; rfl
  case snapRead w => rw [← accept_answer he, snapRead_eq]; cases w <;> rfl
  case elapsed => rw [← accept_answer he]; rfl
  case rbIsEmpty | rbIsFull => rw [← accept_answer he]; exact resFlag_phase ..
  case rbTryPop =>
    rw [← accept_answer he]
    split_ifs <;> exact tryPop_phase s
  case rbDrain =>
    rw [← accept_answer he]
    split_ifs <;> exact congrArg _ (drain_seq s)
  case rbPush | scanPass | loopIter => rw [← accept_answer he]; exact orFault_runOps_phase ..
  case velmap =>
    have he := accept_meaning he
    split at he <;> cases he <;> rfl
  case scanBank =>
    have he := accept_meaning he
    split_ifs at he
    cases he
    exact orFault_runOps_phase ..
  case notenum =>
    obtain ⟨_, he⟩ := accept_withKey_meaning he
    split at he <;> cases he <;> rfl
  case encOn =>
    obtain ⟨_, he⟩ := accept_withKey_meaning he
    split_ifs at he
    cases he
    exact resMessage_phase ..
  case encOff => rw [← (accept_withKey_answer he).2]; exact resMessage_phase ..
  case ksmStart | ksmEnd => rw [← (accept_withKey_answer he).2]; exact evaluate_phase ..
  case emitHit | emitRel => rw [← (accept_withKey_answer he).2]; exact emitMessage_phase ..

/-- Settles O51: by cases on the instruction (`exec_phase`). -/
theorem commandsLeaveThePhase : Obligations.CommandsLeaveThePhase := fun _ _ _ he hinit hrun =>
  exec_phase hinit hrun he

end Sys2Proof.Machine

/-! ## The rows of R292 -/

namespace Sys2Proof.Machine

variable {s : State} {line : Line} {ret : RetPhase} {after : Phase} {mask : Byte} {time : U32}

theorem seqStep_iterDrain (h : Live s) (hp : s.seq.phase = .iterDrain) :
    seqStep s = .next ((drain s).2.setPhase .passBegin) := by
  simp only [seqStep, hp, h.drain.fault_eq, Bool.false_eq_true, if_false]

theorem seqStep_passBegin (hp : s.seq.phase = .passBegin) :
    seqStep s = .next ((beginPass (s.setBank 0)).setPhase .startRead) := by
  simp only [seqStep, hp]

theorem seqStep_startRead (hp : s.seq.phase = .startRead) :
    seqStep s = .next (((snapRead .startLine s).2.setPos 0).setPhase .startEval) := by
  simp only [seqStep, hp]

theorem seqStep_stepToEnd (hp : s.seq.phase = .stepToEnd) :
    seqStep s = .next ((stepChain s).setPhase .endRead) := by
  simp only [seqStep, hp]

theorem seqStep_endRead (hp : s.seq.phase = .endRead) :
    seqStep s = .next (((snapRead .endLine s).2.setPos (if (snapRead .endLine s).2.seq.eb = 0 then 8 else 0)).setPhase
      .endEval) := by
  simp only [seqStep, hp]

theorem seqStep_stepToNext (h : Live s) (hp : s.seq.phase = .stepToNext) :
    seqStep s = .next (if s.seq.bank + 1 < s.cfg.numBanks
      then ((stepChain s).setBank (s.seq.bank + 1)).setPhase .startRead else (stepChain s).setPhase .iterDrain) := by
  obtain ⟨_, _, _, _, _, _, _, ⟨hbank, _⟩, _⟩ := h
  simp only [seqStep, hp, seqNextBank, hbank, stepChain_eq, if_true]

/-- The phase of a read of a line. -/
def readPhase : Line → Phase
  | .startLine => .startRead
  | .endLine => .endRead

/-- The evaluation phase of a read of a line. -/
def evalPhase : Line → Phase
  | .startLine => .startEval
  | .endLine => .endEval

/-- The phase after the evaluations of a read of a line. -/
def stepPhase : Line → Phase
  | .startLine => .stepToEnd
  | .endLine => .stepToNext

/-- The name of a line's evaluation phase in SEQ.RET. -/
def evalRet : Line → RetPhase
  | .startLine => .startEval
  | .endLine => .endEval

theorem seqStep_eval (hp : s.seq.phase = evalPhase line) :
    seqStep s = .next (seqEval line (s.seq.mask line) (s.seq.stamp line) (evalRet line) (stepPhase line) s) := by
  cases line <;> simp only [evalPhase] at hp <;> simp only [seqStep, hp] <;> rfl

/-- The evaluations of a read end at position 8. -/
theorem seqStep_eval_end (hp : s.seq.phase = evalPhase line) (h8 : s.seq.pos = 8) :
    seqStep s = .next (s.setPhase (stepPhase line)) := by
  rw [seqStep_eval hp, seqEval, if_pos h8]

/-- Where an evaluation leaves SEQ: at the next position, or in P_PUSH with the message of its event (R294). -/
def Seq.afterEval (line : Line) (msg : Option Message) (q : Seq) : Seq :=
  match msg with
  | none => { q with pos := q.pos + 1 }
  | some m => { q with pos := q.pos + 1, msg := m, msgN := 3, ret := evalRet line, phase := .push }

/-- One evaluation of the sequencer: the key's entry and any diagnostic, and SEQ as the event leaves it. -/
theorem seqStep_eval_key (h : Live s) (hp : s.seq.phase = evalPhase line) (hpos : s.seq.pos < 8) :
    ∃ msg, messageBytes msg = atPosition (eventBytes s.cfg line) s.ks s.seq.bank (s.seq.mask line) (s.seq.stamp line)
        s.seq.pos ∧
      seqStep s = .next ((evaluated line (keyId s.seq.bank s.seq.pos) (buttonDown (s.seq.mask line) s.seq.pos)
        (s.seq.stamp line) s).setSeq (s.seq.afterEval line msg)) := by
  obtain ⟨hc, hf, _, _, _, _, hks, ⟨hbank, _⟩, _⟩ := id h
  obtain ⟨msg, hmsg, he⟩ := evalKey_eq (line := line) (d := buttonDown (s.seq.mask line) s.seq.pos)
    (t := s.seq.stamp line) hc hks (hc.keyId_lt hbank hpos)
  refine ⟨msg, hmsg, ?_⟩
  rw [seqStep_eval hp, seqEval, if_neg (Nat.ne_of_lt hpos), if_pos ⟨hpos, hbank⟩, he]
  dsimp only
  rw [if_neg (by simp [hf])]
  cases msg <;> rfl

theorem seqStep_push_full (h : Live s) (hp : s.seq.phase = .push) (hfull : s.orb.isFull s.cfg.rbCapacity = true) :
    seqStep s = .next (drain s).2 := by
  obtain ⟨_, _, _, _, _, ho, _, ⟨_, _, hn, hpush⟩, _⟩ := h
  simp only [seqStep, hp, seqPush, ho.inRange, hpush hp, hn, hfull, and_self, if_true]

/-- Where the push of a byte leaves SEQ: the evaluation is resumed after the third (R294). -/
def Seq.afterByte (q : Seq) : Seq :=
  { q with msgN := q.msgN - 1, phase := if q.msgN = 1 then phaseOfRet q.ret else .push }

theorem seqStep_push_room (h : Live s) (hp : s.seq.phase = .push) (hroom : s.orb.isFull s.cfg.rbCapacity = false) :
    ∃ b, s.seq.msg.byte (3 - s.seq.msgN) = some b ∧
      seqStep s = .next ((s.setOrb (s.orb.put s.cfg.rbCapacity b)).setSeq s.seq.afterByte) := by
  obtain ⟨_, _, _, _, _, ho, _, ⟨_, _, hn, hpush⟩, _⟩ := h
  have hn1 := hpush hp
  obtain ⟨b, hb⟩ := s.seq.msg.byte_of_lt (i := 3 - s.seq.msgN) (by omega)
  have hlast : s.seq.msgN - 1 = 0 ↔ s.seq.msgN = 1 := by omega
  refine ⟨b, hb, ?_⟩
  simp only [seqStep, hp, seqPush, ho.inRange, hn1, hn, hroom, hb, hlast, and_self, if_true, Bool.false_eq_true,
    if_false, Seq.afterByte]

/-- Settles O46: one row of R292 for each clause. -/
theorem sequencerReadsAndSteps : Obligations.SequencerReadsAndSteps := by
  intro s m e1 t e2 h hm ht
  refine ⟨fun hp => ?iterDrain, fun hp => ?passBegin, fun hp => ?startRead, fun hp h8 => ?startEval,
    fun hp => ?stepToEnd, fun hp => ?endRead, fun hp h8 => ?endEval, fun hp hnext => ?nextBank,
    fun hp hlast => ?lastBank⟩
  case iterDrain => rw [seqStep_iterDrain h hp, ← drain_seq s]; rfl
  case passBegin => rw [seqStep_passBegin hp, beginPass_eq]; rfl
  case startRead => rw [seqStep_startRead hp, snapRead_eq, hm, ht]; rfl
  case startEval => rw [seqStep_eval_end (line := .startLine) hp h8]; rfl
  case stepToEnd => rw [seqStep_stepToEnd hp, stepChain_eq]; rfl
  case endRead => rw [seqStep_endRead hp, snapRead_eq, hm, ht]; rfl
  case endEval => rw [seqStep_eval_end (line := .endLine) hp h8]; rfl
  case nextBank => rw [seqStep_stepToNext h hp, if_pos hnext, stepChain_eq]; rfl
  case lastBank => rw [seqStep_stepToNext h hp, if_neg (by omega), stepChain_eq]; rfl

/-- Settles O47: `seqStep_eval_key`, where an evaluation has a message exactly if its event has bytes. -/
theorem sequencerEvaluatesOneKey : Obligations.SequencerEvaluatesOneKey := by
  intro s line h hpos hp
  have hp : s.seq.phase = evalPhase line := by cases line <;> exact hp
  obtain ⟨msg, hmsg, hstep⟩ := seqStep_eval_key h hp hpos
  have hevent : messageBytes msg = eventBytes s.cfg line (s.seq.bank * 8 + s.seq.pos)
      (s.ks.getD (s.seq.bank * 8 + s.seq.pos) KeyEntry.initial) (buttonDown (s.seq.mask line) s.seq.pos)
      (s.seq.stamp line) := hmsg
  refine ⟨s.seq.afterEval line msg, ?_, ?_, ?_⟩
  · rw [hstep]
    cases line <;> rfl
  · intro hnone
    cases msg with
    | none => rfl
    | some m => cases line <;> exact absurd (hevent.trans hnone) (by simp [messageBytes, Message.bytes])
  · intro hsome
    cases msg with
    | none => cases line <;> exact absurd hevent.symm hsome
    | some m => exact ⟨m, by cases line <;> exact hevent.symm, by cases line <;> rfl⟩

/-- Settles O48: `seqStep_push_full` and `seqStep_push_room`; one `Orb.put` stores one byte. -/
theorem sequencerPushesTheMessage : Obligations.SequencerPushesTheMessage := by
  refine fun s h hp => ⟨seqStep_push_full h hp, fun hroom => ?_⟩
  obtain ⟨b, hb, hstep⟩ := seqStep_push_room h hp hroom
  obtain ⟨_, _, _, _, _, hgood, _⟩ := h
  have hgood' := hgood.put b hroom
  obtain ⟨_, hin, _⟩ := id hgood'
  refine ⟨b, _, hb, .cons hgood hroom hgood' (.refl hin), ?_⟩
  rw [hstep]
  rfl

end Sys2Proof.Machine

/-! ## Fields a drain attempt does not use -/

namespace Sys2Proof.Machine

/-- An update of fields that a drain attempt neither reads nor writes. -/
structure Beside (φ : State → State) : Prop where
  cfg : ∀ s, (φ s).cfg = s.cfg
  orb : ∀ s, (φ s).orb = s.orb
  query : ∀ s, txReady (φ s) = ((txReady s).1, φ (txReady s).2)
  setOrb : ∀ o s, (φ s).setOrb o = φ (s.setOrb o)
  emit : ∀ e s, (φ s).emit e = φ (s.emit e)
  raiseFault : ∀ s, (φ s).raiseFault = φ s.raiseFault

variable {φ : State → State}

theorem Beside.tryPop (h : Beside φ) (s : State) : tryPop (φ s) = ((tryPop s).1, φ (tryPop s).2) := by
  unfold Machine.tryPop
  rw [h.cfg, h.orb, h.setOrb, h.raiseFault]
  split_ifs
  · rfl
  · cases Memory.read s.orb.mem s.orb.outIdx <;> rfl
  · rfl

theorem Beside.drain (h : Beside φ) (s : State) : drain (φ s) = ((drain s).1, φ (drain s).2) := by
  unfold Machine.drain
  rw [h.cfg, h.orb, h.query, h.raiseFault]
  split_ifs
  · rfl
  · obtain ⟨r, u⟩ := txReady s
    cases r with
    | false => rfl
    | true =>
      dsimp only
      rw [h.tryPop]
      obtain ⟨b, v⟩ := Machine.tryPop u
      cases b with
      | none => rfl
      | some b => exact congrArg _ (h.emit _ v)
  · rfl

end Sys2Proof.Machine

/-! ## A body, one byte or one drain attempt at a time -/

namespace Sys2Proof.Machine

variable {s t u : State} {ms ns rest : List Micro} {n k : Nat}

/-- `a`, with all that the statements of a body read or write taken from `s`. -/
def State.under (s a : State) : State :=
  { a with
    cfg := s.cfg, ks := s.ks, orb := s.orb, fault := s.fault, trace := s.trace, chain := s.chain, env := s.env
    seq := { a.seq with
      sb := s.seq.sb, st := s.seq.st, eb := s.seq.eb, et := s.seq.et, bank := s.seq.bank, pos := s.seq.pos } }

@[simp] theorem under_self (s : State) : s.under s = s := rfl

theorem complete_under (s a : State) : complete (s.under a) = s.under (complete a) := rfl

theorem Micro.effect_under (m : Micro) (s a : State) : m.effect (s.under a) = (m.effect s).under a := by
  cases m with
  | beginPass => simp only [Micro.effect, beginPass_eq]; rfl
  | srStep => simp only [Micro.effect, stepChain_eq]; rfl
  | snapRead w => simp only [Micro.effect, snapRead_eq]; cases w <;> rfl
  | evalEnd b p =>
    have heb : (s.under a).seq.eb = s.seq.eb := rfl
    simp only [Micro.effect, heb]
    split_ifs <;> rfl
  | push | drain | setBank | setPos | evalStart => rfl

theorem Micro.asked_under (m : Micro) (s a : State) : m.asked (s.under a) = m.asked s := by cases m <;> rfl

theorem beside_under (a : State) : Beside (State.under · a) :=
  ⟨fun _ => rfl, fun _ => rfl, fun _ => rfl, fun _ _ => rfl, fun _ _ => rfl, fun _ => rfl⟩

theorem drain_under (s a : State) : (drain (s.under a)).2 = (drain s).2.under a :=
  congrArg Prod.snd ((beside_under a).drain s)

/-- The push of these bytes, if there are any, and then the body. -/
def thenPush : List Byte → List Micro → List Micro
  | [], ms => ms
  | b :: bs, ms => .push (b :: bs) :: ms

/-- The smallest step of a body: a byte stored or, where there is no room, one drain attempt; or a statement's own
change, which leaves the bytes it asks for to be pushed. -/
def bodyStep : List Micro × State → List Micro × State
  | ([], s) => ([], s)
  | (.push (b :: bs) :: ms, s) =>
    if s.orb.isFull s.cfg.rbCapacity then (.push (b :: bs) :: ms, (drain s).2)
    else (thenPush bs ms, s.setOrb (s.orb.put s.cfg.rbCapacity b))
  | (.drain :: ms, s) => (ms, (drain s).2)
  | (m :: ms, s) => (thenPush (m.asked s) ms, m.effect s)

theorem bodyStep_push_full {b : Byte} {bs : List Byte} (h : s.orb.isFull s.cfg.rbCapacity = true) :
    bodyStep (.push (b :: bs) :: ms, s) = (.push (b :: bs) :: ms, (drain s).2) := if_pos h

theorem bodyStep_push_room {b : Byte} {bs : List Byte} (h : s.orb.isFull s.cfg.rbCapacity = false) :
    bodyStep (.push (b :: bs) :: ms, s) = (thenPush bs ms, s.setOrb (s.orb.put s.cfg.rbCapacity b)) :=
  if_neg (by simp [h])

theorem bodyStep_drain : bodyStep (.drain :: ms, s) = (ms, (drain s).2) := rfl

/-- A statement that is neither a drain attempt nor pushes of a list makes its own change. -/
theorem bodyStep_effect {m : Micro} (hd : m ≠ .drain) (hp : ∀ bs, m ≠ .push bs) :
    bodyStep (m :: ms, s) = (thenPush (m.asked s) ms, m.effect s) := by
  cases m with
  | drain => exact absurd rfl hd
  | push bs => exact absurd rfl (hp bs)
  | _ => rfl

theorem bodyStep_setBank {b : Nat} : bodyStep (.setBank b :: ms, s) = (ms, s.setBank b) := rfl

theorem bodyStep_beginPass : bodyStep (.beginPass :: ms, s) = (ms, beginPass s) := rfl

theorem thenPush_append (bs : List Byte) (ms ns : List Micro) : thenPush bs (ms ++ ns) = thenPush bs ms ++ ns := by
  cases bs <;> rfl

/-- Every case of `bodyStep` on a body that is not at its end. -/
theorem bodyStep_cons_cases (m : Micro) :
    m = .drain ∨ m = .push [] ∨ (∃ b bs, m = .push (b :: bs)) ∨ (m ≠ .drain ∧ ∀ bs, m ≠ .push bs) := by
  cases m with
  | push bs =>
    cases bs with
    | nil => exact .inr (.inl rfl)
    | cons b bs => exact .inr (.inr (.inl ⟨b, bs, rfl⟩))
  | drain => exact .inl rfl
  | _ => exact .inr (.inr (.inr ⟨by simp, by simp⟩))

/-- What stands after the first statement takes no part in the step. -/
theorem bodyStep_append {m : Micro} (ms ns : List Micro) (s : State) :
    bodyStep (m :: ms ++ ns, s) = ((bodyStep (m :: ms, s)).1 ++ ns, (bodyStep (m :: ms, s)).2) := by
  rcases bodyStep_cons_cases m with rfl | rfl | ⟨b, bs, rfl⟩ | ⟨hd, hp⟩
  · rfl
  · rfl
  · cases hfull : s.orb.isFull s.cfg.rbCapacity with
    | true => simp only [List.cons_append, bodyStep_push_full hfull]
    | false => simp only [List.cons_append, bodyStep_push_room hfull, thenPush_append]
  · simp only [List.cons_append, bodyStep_effect hd hp, thenPush_append]

theorem bodyStep_under (ms : List Micro) (s a : State) :
    bodyStep (ms, s.under a) = ((bodyStep (ms, s)).1, (bodyStep (ms, s)).2.under a) := by
  cases ms with
  | nil => rfl
  | cons m ms =>
    rcases bodyStep_cons_cases m with rfl | rfl | ⟨b, bs, rfl⟩ | ⟨hd, hp⟩
    · simp only [bodyStep_drain, drain_under]
    · rfl
    · cases hfull : s.orb.isFull s.cfg.rbCapacity with
      | true => rw [bodyStep_push_full hfull, bodyStep_push_full (s := s.under a) hfull, drain_under]
      | false => rw [bodyStep_push_room hfull, bodyStep_push_room (s := s.under a) hfull]; rfl
    · rw [bodyStep_effect hd hp, bodyStep_effect hd hp, Micro.asked_under, Micro.effect_under]

theorem iterate_bodyStep_under (n : Nat) (ms : List Micro) (s a : State) :
    bodyStep^[n] (ms, s.under a) = ((bodyStep^[n] (ms, s)).1, (bodyStep^[n] (ms, s)).2.under a) := by
  induction n generalizing ms s with
  | zero => rfl
  | succ n ih => rw [Function.iterate_succ_apply, bodyStep_under, ih, Function.iterate_succ_apply]

theorem iterate_bodyStep_nil (n : Nat) (s : State) : bodyStep^[n] ([], s) = ([], s) := Function.iterate_fixed rfl n

/-- A body that has ended stays so. -/
theorem iterate_bodyStep_sub {c : List Micro × State} (k : Nat) (h : bodyStep^[n] c = ([], t)) :
    bodyStep^[n - k] (bodyStep^[k] c) = ([], t) := by
  rw [← Function.iterate_add_apply, show n - k + k = (k - n) + n by omega, Function.iterate_add_apply, h,
    iterate_bodyStep_nil]

/-- Where a body ends does not depend on the count. -/
theorem iterate_bodyStep_unique {c : List Micro × State} (h : bodyStep^[n] c = ([], t))
    (h' : bodyStep^[k] c = ([], u)) : t = u := by
  have hsub := iterate_bodyStep_sub k h
  rw [h', iterate_bodyStep_nil] at hsub
  exact (Prod.ext_iff.1 hsub).2.symm

/-! ## Where a body leads -/

/-- `ms`, run from `s` by `n` steps of `bodyStep`, ends and completes in `t`. -/
def LeadsIn (n : Nat) (ms : List Micro) (s t : State) : Prop := ∃ u, bodyStep^[n] (ms, s) = ([], u) ∧ complete u = t

/-- `ms`, run from `s` to its end, waits included, completes in `t`. -/
def Leads (ms : List Micro) (s t : State) : Prop := ∃ n, LeadsIn n ms s t

theorem LeadsIn.sub (h : LeadsIn n ms s t) (hk : bodyStep^[k] (ms, s) = (rest, u)) : LeadsIn (n - k) rest u t := by
  obtain ⟨v, hv, hvt⟩ := h
  exact ⟨v, hk ▸ iterate_bodyStep_sub k hv, hvt⟩

theorem LeadsIn.add (h : LeadsIn n rest u t) (hk : bodyStep^[k] (ms, s) = (rest, u)) : LeadsIn (n + k) ms s t := by
  obtain ⟨v, hv, hvt⟩ := h
  exact ⟨v, by rw [Function.iterate_add_apply, hk, hv], hvt⟩

/-- What is in progress and RES take no part in where a body leads. -/
theorem LeadsIn.congr (h : LeadsIn n ms s t) (hs : complete s = complete u) : LeadsIn n ms u t := by
  obtain ⟨v, hv, hvt⟩ := h
  have hu : u = s.under u :=
    calc u = (complete u).under u := rfl
      _ = s.under u := by rw [← hs]; rfl
  have hown : v = v.under s := by
    have := iterate_bodyStep_under n ms s s
    rw [under_self, hv] at this
    exact (Prod.ext_iff.1 this).2
  refine ⟨v.under u, by rw [hu, iterate_bodyStep_under, hv]; rfl, ?_⟩
  rw [complete_under, ← hs, ← complete_under, ← hown, hvt]

theorem Leads.congr (h : Leads ms s t) (hs : complete s = complete u) : Leads ms u t :=
  h.imp fun _ h => h.congr hs

theorem Leads.unique (h : Leads ms s t) (h' : Leads ms s u) : t = u := by
  obtain ⟨_, v, hv, rfl⟩ := h
  obtain ⟨_, w, hw, rfl⟩ := h'
  rw [iterate_bodyStep_unique hv hw]

theorem Leads.complete_eq (h : Leads ms s t) : complete t = t := by
  obtain ⟨_, v, _, rfl⟩ := h
  rfl

theorem leads_nil : Leads [] s t ↔ complete s = t :=
  ⟨fun ⟨n, _, hv, hvt⟩ => iterate_bodyStep_unique (iterate_bodyStep_nil n s) hv ▸ hvt, fun h => ⟨0, s, rfl, h⟩⟩

/-- Steps of the first of two bodies are steps of both in a row. -/
theorem iterate_bodyStep_append (ns : List Micro) (h : bodyStep^[n] (ms, s) = (rest, u)) :
    ∃ k, bodyStep^[k] (ms ++ ns, s) = (rest ++ ns, u) := by
  induction n generalizing ms s with
  | zero => exact ⟨0, by cases h; rfl⟩
  | succ n ih =>
    cases ms with
    | nil =>
      rw [iterate_bodyStep_nil] at h
      exact ⟨0, by cases h; rfl⟩
    | cons m ms =>
      obtain ⟨k, hk⟩ := ih (ms := (bodyStep (m :: ms, s)).1) (s := (bodyStep (m :: ms, s)).2) h
      exact ⟨k + 1, by rw [Function.iterate_succ_apply, bodyStep_append, hk]⟩

/-- Two bodies in a row lead where the second leads from where the first does. -/
theorem leads_append : Leads (ms ++ ns) s t ↔ ∃ u, Leads ms s u ∧ Leads ns u t := by
  constructor
  · rintro ⟨n, h⟩
    induction n generalizing ms s with
    | zero =>
      obtain ⟨v, hv, hvt⟩ := h
      obtain ⟨hms, hs⟩ := Prod.ext_iff.1 hv
      obtain ⟨rfl, rfl⟩ := List.append_eq_nil_iff.1 hms
      exact ⟨t, leads_nil.2 (hvt ▸ congrArg complete hs), leads_nil.2 (hvt ▸ rfl)⟩
    | succ n ih =>
      cases ms with
      | nil => exact ⟨complete s, leads_nil.2 rfl, Leads.congr ⟨_, h⟩ rfl⟩
      | cons m ms =>
        obtain ⟨u, ⟨k, hk⟩, hu⟩ := ih (h.sub (k := 1) (bodyStep_append ms ns s))
        exact ⟨u, ⟨k + 1, hk.add rfl⟩, hu⟩
  · rintro ⟨_, ⟨n, v, hv, rfl⟩, hu⟩
    obtain ⟨k, hk⟩ := iterate_bodyStep_append ns hv
    obtain ⟨l, hl⟩ : Leads ns v t := hu.congr rfl
    exact ⟨l + k, hl.add hk⟩

/-! ## The steps of a body that waits -/

theorem pushBytes_full {b : Byte} {bs : List Byte} (hr : s.orb.inRange s.cfg.rbCapacity = true)
    (hfull : s.orb.isFull s.cfg.rbCapacity = true) : pushBytes (b :: bs) s = (b :: bs, (drain s).2) := by
  rw [pushBytes, if_pos hr, if_pos hfull]

theorem pushBytes_put {b : Byte} {bs : List Byte} (hr : s.orb.inRange s.cfg.rbCapacity = true)
    (hroom : s.orb.isFull s.cfg.rbCapacity = false) :
    pushBytes (b :: bs) s = pushBytes bs (s.setOrb (s.orb.put s.cfg.rbCapacity b)) := by
  rw [pushBytes, if_pos hr, if_neg (by simp [hroom])]

/-- Pushes are some steps of `bodyStep`: a byte each, up to the one that has to wait. -/
theorem pushBytes_advance (b : Byte) (bs : List Byte) (ms : List Micro) (hr : s.orb.inRange s.cfg.rbCapacity = true)
    (hcap : 0 < s.cfg.rbCapacity) :
    ∃ k, bodyStep^[k + 1] (.push (b :: bs) :: ms, s) =
      (thenPush (pushBytes (b :: bs) s).1 ms, (pushBytes (b :: bs) s).2) := by
  induction bs generalizing b s with
  | nil =>
    cases hfull : s.orb.isFull s.cfg.rbCapacity with
    | true => exact ⟨0, by rw [pushBytes_full hr hfull]; exact bodyStep_push_full hfull⟩
    | false => exact ⟨0, by rw [pushBytes_put hr hfull]; exact bodyStep_push_room hfull⟩
  | cons c bs ih =>
    cases hfull : s.orb.isFull s.cfg.rbCapacity with
    | true => exact ⟨0, by rw [pushBytes_full hr hfull]; exact bodyStep_push_full hfull⟩
    | false =>
      obtain ⟨_, hout⟩ := Orb.inRange_iff.1 hr
      obtain ⟨k, hk⟩ := ih c (s := s.setOrb (s.orb.put s.cfg.rbCapacity b))
        (Orb.inRange_iff.2 ⟨nextIndex_lt hcap _, hout⟩) hcap
      refine ⟨k + 1, ?_⟩
      rw [Function.iterate_succ_apply, bodyStep_push_room hfull, pushBytes_put hr hfull]
      exact hk

/-- One statement of a body is some steps of `bodyStep`. -/
theorem doMicro_advance {m : Micro} (h : Live s) (hm : MicroGood s.cfg m) (ms : List Micro) :
    ∃ k, bodyStep^[k + 1] (m :: ms, s) = (thenPush (doMicro m s).1 ms, (doMicro m s).2) := by
  obtain ⟨_, _, _, _, _, ho, _⟩ := id h
  obtain ⟨hcap, _⟩ := id ho
  rcases bodyStep_cons_cases m with rfl | rfl | ⟨b, bs, rfl⟩ | ⟨hd, hp⟩
  · exact ⟨0, rfl⟩
  · exact ⟨0, rfl⟩
  · exact pushBytes_advance b bs ms ho.inRange (Nat.zero_lt_of_lt hcap)
  · rw [doMicro_eq_pushBytes h hm hd]
    have hfirst : bodyStep (m :: ms, s) = (thenPush (m.asked s) ms, m.effect s) := bodyStep_effect hd hp
    cases hasked : m.asked s with
    | nil => exact ⟨0, by rw [hasked] at hfirst; exact hfirst⟩
    | cons b bs =>
      obtain ⟨k, hk⟩ := pushBytes_advance (s := m.effect s) b bs ms (by simpa using ho.inRange)
        (by simpa using Nat.zero_lt_of_lt hcap)
      refine ⟨k + 1, ?_⟩
      rw [Function.iterate_succ_apply, hfirst, hasked]
      exact hk

/-- A step of a body is some steps of `bodyStep`: to the body's end, or to where it waits. -/
theorem runOps_advance (h : Live s) (hms : ∀ m ∈ ms, MicroGood s.cfg m) :
    ∃ k u, bodyStep^[k] (ms, s) = ((runOps ms s).busy, u) ∧ complete (runOps ms s) = complete u ∧
      ((runOps ms s).busy = [] ∧ runOps ms s = complete u ∨ 0 < k ∧ (runOps ms s).busy ≠ []) := by
  induction ms generalizing s with
  | nil => exact ⟨0, s, rfl, rfl, .inl ⟨rfl, rfl⟩⟩
  | cons m ms ih =>
    have hm := hms m (List.mem_cons_self ..)
    have hlive := h.doMicro hm
    have hf := hlive.fault_eq
    obtain ⟨hcfg, _⟩ := doMicro_frame m s
    obtain ⟨j, hj⟩ := doMicro_advance h hm ms
    cases hl : (doMicro m s).1 with
    | nil =>
      obtain ⟨k, u, hk, hu, hend⟩ := ih hlive fun x hx => hcfg ▸ hms x (List.mem_cons_of_mem _ hx)
      rw [hl] at hj
      rw [runOps_cons_done (Prod.ext hl rfl) hf]
      refine ⟨k + (j + 1), u, ?_, hu, hend.imp id (.imp_left fun _ => by omega)⟩
      rw [Function.iterate_add_apply, hj]
      exact hk
    | cons b bs =>
      rw [hl] at hj
      rw [runOps_cons_wait (Prod.ext hl rfl) hf]
      exact ⟨j + 1, _, hj, rfl, .inr ⟨by omega, List.cons_ne_nil _ _⟩⟩

/-- A step of a body leaves what the rest of it leads to as it was. -/
theorem LeadsIn.of_runOps (h : Live s) (hms : ∀ m ∈ ms, MicroGood s.cfg m)
    (hr : LeadsIn n (runOps ms s).busy (runOps ms s) t) : Leads ms s t := by
  obtain ⟨k, u, hk, hu, _⟩ := runOps_advance h hms
  exact ⟨n + k, (hr.congr hu).add hk⟩

/-- The steps of a command's waits end in `t` exactly if its body leads there (R275). -/
theorem finishes_runOps_iff (h : Live s) (hms : ∀ m ∈ ms, MicroGood s.cfg m) (hrun : s.running = false)
    (hport : s.port = []) : Finishes (runOps ms s) t ↔ Leads ms s t := by
  constructor
  · rintro ⟨n, hn, ht⟩
    induction n generalizing ms s with
    | zero =>
      obtain rfl := Host.Outcome.next.inj hn
      obtain ⟨k, u, hk, _, ⟨hb, hu⟩ | ⟨_, hb⟩⟩ := runOps_advance h hms
      · exact ⟨k, u, hb ▸ hk, hu.symm⟩
      · exact absurd ht hb
    | succ n ih =>
      have hlive := h.runOps hms
      obtain ⟨_, _, _, _, _, _, _, _, hgood⟩ := id hlive
      obtain ⟨_, _, hrun', hport', _⟩ := runOps_frame ms s
      by_cases hb : (runOps ms s).busy = []
      · rw [runSteps, hlive.step_idle hb (hrun'.trans hrun) (hport'.trans hport)] at hn
        cases hn
      · rw [runSteps, hlive.step_busy hb] at hn
        obtain ⟨l, hl⟩ := ih hlive hgood (hrun'.trans hrun) (hport'.trans hport) hn
        exact hl.of_runOps h hms
  · rintro ⟨n, hn⟩
    induction n using Nat.strong_induction_on generalizing ms s with
    | _ n ih =>
      obtain ⟨k, u, hk, hu, ⟨hb, hdone⟩ | ⟨hpos, hb⟩⟩ := runOps_advance h hms
      · rw [hb] at hk
        have ht : runOps ms s = t := Leads.unique ⟨k, u, hk, hdone.symm⟩ ⟨n, hn⟩
        exact ht ▸ .of_done hb
      · have hlive := h.runOps hms
        obtain ⟨_, _, _, _, _, _, _, _, hgood⟩ := id hlive
        obtain ⟨_, _, hrun', hport', _⟩ := runOps_frame ms s
        have hrest := (hn.sub hk).congr hu.symm
        have hlt : n - k < n := by
          by_contra hnot
          obtain ⟨v, hv, _⟩ := hrest
          rw [show n - k = 0 by omega] at hv
          exact hb (Prod.ext_iff.1 hv).1
        exact (ih _ hlt hlive hgood (hrun'.trans hrun) (hport'.trans hport) hrest).of_step (hlive.step_busy hb)

end Sys2Proof.Machine

/-! ## SCAN_PASS as a whole -/

namespace Sys2Proof.Machine

variable {s t u : State} {c : Cfg} {ms : List Micro} {n b : Nat}

/-- The bodies of SCAN_BANK for the banks below `n`, in order. -/
def banksBody (n : Nat) : List Micro := (List.range n).flatMap scanBankBody

theorem scanPassBody_eq (c : Cfg) : scanPassBody c = banksBody c.numBanks := rfl

theorem banksBody_succ (n : Nat) : banksBody (n + 1) = banksBody n ++ scanBankBody n := by
  simp [banksBody, List.range_succ]

theorem banksBody_scan (hn : n ≤ c.numBanks) : ScanBody c (banksBody n) := by
  intro m hm
  obtain ⟨b, hb, hm⟩ := List.mem_flatMap.1 hm
  exact scanBankBody_scan ((List.mem_range.1 hb).trans_le hn) m hm

theorem exec_scanPass (h : PortOpen s) (hl : Live s) : exec .scanPass s = .next (runOps (scanPassBody s.cfg) s) := by
  rw [exec, execScanPass, accept_of_open h, hl.orFault_runOps (scanPassBody_good _)]

theorem exec_loopIter (h : PortOpen s) (hl : Live s) : exec .loopIter s = .next (runOps (loopIterBody s.cfg) s) := by
  rw [exec, execLoopIter, accept_of_open h, hl.orFault_runOps (loopIterBody_good _)]

/-- The keys of a legal configuration have notes up to 127, so that BK can name every bank (R109). -/
theorem ConfigOk.numBanks_le (h : ConfigOk c) : c.numBanks ≤ 16 := by
  have hkeys := h.numKeys
  obtain ⟨_, _, ⟨h0, h127⟩, _⟩ := configOk_iff_facts.1 h
  omega

theorem ConfigOk.numBanks_pos (h : ConfigOk c) : 0 < c.numBanks := by
  obtain ⟨hpos, _⟩ := configOk_iff_facts.1 h
  exact hpos

theorem exec_scanBank_ofNat (h : PortOpen s) (hl : Live s) (hb : b < s.cfg.numBanks) :
    exec (.scanBank (BitVec.ofNat 8 b)) s = .next (runOps (scanBankBody b) s) := by
  have h16 := ConfigOk.numBanks_le (c := s.cfg) (by obtain ⟨hc, _⟩ := hl; exact hc)
  have htoNat : (BitVec.ofNat 8 b).toNat = b := by rw [BitVec.toNat_ofNat]; omega
  have := exec_scanBank (bk := BitVec.ofNat 8 b) h hl (by rwa [htoNat])
  rwa [htoNat] at this

/-- Whatever the environment answers, a bank has its reads. -/
theorem Reads.exists_drawn (e : Env) : ∃ (r : Reads) (e' : Env), r.Drawn e e' :=
  ⟨⟨_, _, _, _⟩, _, _, _, _, rfl, rfl, rfl, rfl⟩

/-- The passes' statements over the banks below `n`: at most 48 bytes a bank, and BANK and the stimulus stand where the
last bank leaves them (R83, R290). -/
theorem banksBody_effect (h : Live s) (hn : n ≤ s.cfg.numBanks) :
    (bodyEffect (banksBody n) s).ks.length = s.ks.length ∧ (bodyAsked (banksBody n) s).length ≤ 48 * n ∧
      (0 < n → (bodyEffect (banksBody n) s).seq.bank = n - 1 ∧ (bodyEffect (banksBody n) s).chain = some (2 * n)) := by
  induction n with
  | zero => exact ⟨rfl, le_rfl, fun h0 => absurd h0 (by omega)⟩
  | succ n ih =>
    obtain ⟨hlength, hasked, hend⟩ := ih (by omega)
    obtain ⟨r, e', hd⟩ := Reads.exists_drawn (bodyEffect (banksBody n) s).env
    obtain ⟨ks', hks, heffect, hasked'⟩ := scanBankBody_effect (b := n) hd fun p hp =>
      hlength.symm ▸ h.keyId_lt_length hn p hp
    have h48 := r.events_length (bodyEffect (banksBody n) s).cfg n (bodyEffect (banksBody n) s).ks
    rw [banksBody_succ, bodyEffect_append, bodyAsked_append, heffect, hasked', List.length_append]
    refine ⟨hks.length.trans hlength, by omega, fun _ => ⟨rfl, ?_⟩⟩
    show (if n = 0 then some 2 else (bodyEffect (banksBody n) s).chain.map (· + 2)) = some (2 * (n + 1))
    split_ifs with h0
    · rw [h0]
    · rw [(hend (by omega)).2]
      rfl

/-! ## A pass with room for every event -/

/-- A body that ends in one step leads where the step does. -/
theorem leads_of_idle (h : Live s) (hms : ∀ m ∈ ms, MicroGood s.cfg m) (hb : (runOps ms s).busy = []) :
    Leads ms s (runOps ms s) := by
  obtain ⟨k, u, hk, _, ⟨_, hu⟩ | ⟨_, hb'⟩⟩ := runOps_advance h hms
  · exact ⟨k, u, hb ▸ hk, hu.symm⟩
  · exact absurd hb hb'

/-- With room for its events a bank is scanned in one step. -/
theorem runOps_scanBank_room (h : Live s) (hb : b < s.cfg.numBanks)
    (hroom : s.orb.count s.cfg.rbCapacity + 48 < s.cfg.rbCapacity) : (runOps (scanBankBody b) s).busy = [] := by
  obtain ⟨r, e', hd⟩ := Reads.exists_drawn s.env
  obtain ⟨_, _, _, hasked⟩ := scanBankBody_effect hd (h.keyId_lt_length hb)
  have h48 := r.events_length s.cfg b s.ks
  obtain ⟨o, _, hrun⟩ := runOps_room h (scanBankBody_scan hb) (by rw [hasked]; omega)
  rw [hrun]
  rfl

/-- With room for every event the banks below `n` are scanned in one step. -/
theorem runOps_banksBody_room (h : Live s) (hn : n ≤ s.cfg.numBanks)
    (hroom : s.orb.count s.cfg.rbCapacity + 48 * n < s.cfg.rbCapacity) :
    ∃ o, runOps (banksBody n) s = complete ((bodyEffect (banksBody n) s).setOrb o) ∧
      o.count s.cfg.rbCapacity ≤ s.orb.count s.cfg.rbCapacity + 48 * n := by
  obtain ⟨_, hasked, _⟩ := banksBody_effect h hn
  obtain ⟨o, hstored, hrun⟩ := runOps_room h (banksBody_scan hn) (by omega)
  have hlive := h.runOps (banksBody_scan hn).good
  rw [hrun] at hlive
  obtain ⟨_, _, _, _, _, hgood, _⟩ := id h
  obtain ⟨_, _, _, _, _, hgood', _⟩ := hlive
  have hcfg : (complete ((bodyEffect (banksBody n) s).setOrb o)).cfg = s.cfg := bodyEffect_cfg ..
  have hcount := hstored.count hgood (hcfg ▸ hgood')
  exact ⟨o, hrun, by omega⟩

theorem runOps_scanPassBody_room (h : Live s)
    (hroom : s.orb.count s.cfg.rbCapacity + 48 * s.cfg.numBanks < s.cfg.rbCapacity) :
    (runOps (scanPassBody s.cfg) s).busy = [] := by
  obtain ⟨o, hrun, _⟩ := runOps_banksBody_room h le_rfl hroom
  rw [scanPassBody_eq, hrun]
  rfl

/-- The state in which SCAN_PASS begins bank `b`, where there is room for every event. -/
def beforeBank (s : State) : Nat → State
  | 0 => s
  | b + 1 => runOps (banksBody (b + 1)) s

/-- The banks below `b` lead to where bank `b` begins. -/
theorem leads_beforeBank (h : Live s) (hn : b ≤ s.cfg.numBanks)
    (hroom : s.orb.count s.cfg.rbCapacity + 48 * b < s.cfg.rbCapacity) :
    Leads (banksBody b) s (complete (beforeBank s b)) ∧ (0 < b → complete (beforeBank s b) = beforeBank s b) := by
  cases b with
  | zero => exact ⟨leads_nil.2 rfl, fun h0 => absurd h0 (lt_irrefl _)⟩
  | succ b =>
    obtain ⟨o, hrun, _⟩ := runOps_banksBody_room h hn hroom
    have hleads := leads_of_idle h (banksBody_scan hn).good (by rw [hrun]; rfl)
    exact ⟨hleads.complete_eq.symm ▸ hleads, fun _ => hleads.complete_eq⟩

/-- Where a bank begins the port is open, and no more than the earlier banks' events has been stored. -/
theorem beforeBank_open (h : PortOpen s) (hl : Live s) (hn : b ≤ s.cfg.numBanks)
    (hroom : s.orb.count s.cfg.rbCapacity + 48 * b < s.cfg.rbCapacity) :
    PortOpen (beforeBank s b) ∧ Live (beforeBank s b) ∧ (beforeBank s b).cfg = s.cfg ∧
      (beforeBank s b).orb.count s.cfg.rbCapacity ≤ s.orb.count s.cfg.rbCapacity + 48 * b := by
  cases b with
  | zero => exact ⟨h, hl, rfl, le_rfl⟩
  | succ b =>
    have hlive := hl.runOps (banksBody_scan hn).good
    obtain ⟨o, hrun, hcount⟩ := runOps_banksBody_room hl hn hroom
    obtain ⟨hcfg, hrefused, hrunning, _, hphase⟩ := runOps_frame (banksBody (b + 1)) s
    obtain ⟨_, _, hr, hrun', hp⟩ := h
    refine ⟨⟨hlive.fault_eq, ?_, hrefused.trans hr, hrunning.trans hrun', hphase.trans hp⟩, hlive, hcfg, ?_⟩
    · rw [beforeBank, hrun]
      rfl
    · rw [beforeBank, hrun]
      exact hcount

/-- Each bank of a pass with room is SCAN_BANK of it, which leads to the next. -/
theorem exec_scanBank_beforeBank (h : PortOpen s) (hl : Live s) (hb : b < s.cfg.numBanks)
    (hroom : s.orb.count s.cfg.rbCapacity + 48 * s.cfg.numBanks < s.cfg.rbCapacity) :
    exec (.scanBank (BitVec.ofNat 8 b)) (beforeBank s b) = .next (beforeBank s (b + 1)) := by
  obtain ⟨hopen, hlive, hcfg, hcount⟩ := beforeBank_open h hl hb.le (by omega)
  obtain ⟨hleads, _⟩ := leads_beforeBank hl hb.le (by omega)
  obtain ⟨hleads', hdone⟩ := leads_beforeBank hl (b := b + 1) hb (by omega)
  have hb' : b < (beforeBank s b).cfg.numBanks := hcfg.symm ▸ hb
  have hbank := leads_of_idle hlive (scanBankBody_good hb') (runOps_scanBank_room hlive hb' (by rw [hcfg]; omega))
  have hboth : Leads (banksBody (b + 1)) s (runOps (scanBankBody b) (beforeBank s b)) := by
    rw [banksBody_succ]
    exact leads_append.2 ⟨_, hleads, hbank.congr rfl⟩
  rw [exec_scanBank_ofNat hopen hlive hb', hboth.unique hleads', hdone (by omega)]

/-! ## A pass over the steps of its waits -/

/-- The port accepts a command in a live state, and none other is offered. -/
structure Ready (c : Cfg) (s : State) : Prop where
  isOpen : PortOpen s
  live : Live s
  port : s.port = []
  cfg : s.cfg = c

/-- The steps of a command's waits leave the control state as it is. -/
theorem runSteps_waits (h : Live s) (hr : s.running = false) (hp : s.port = []) (hn : runSteps n s = .next t) :
    Live t ∧ t.cfg = s.cfg ∧ t.running = false ∧ t.port = [] ∧ t.seq.phase = s.seq.phase := by
  induction n generalizing s with
  | zero =>
    obtain rfl := Host.Outcome.next.inj hn
    exact ⟨h, rfl, hr, hp, rfl⟩
  | succ n ih =>
    by_cases hb : s.busy = []
    · rw [runSteps, h.step_idle hb hr hp] at hn
      cases hn
    · obtain ⟨_, _, _, _, _, _, _, _, hgood⟩ := id h
      obtain ⟨hcfg, _, hrun, hport, hphase⟩ := runOps_frame s.busy s
      rw [runSteps, h.step_busy hb] at hn
      obtain ⟨hl, hc, hr', hp', hph⟩ := ih (h.runOps hgood) (hrun.trans hr) (hport.trans hp) hn
      exact ⟨hl, hc.trans hcfg, hr', hp', hph.trans hphase⟩

/-- A body of the port leads to where the port is ready again. -/
theorem Ready.leads (h : Ready c s) (hms : ∀ m ∈ ms, MicroGood s.cfg m) (ht : Leads ms s t) : Ready c t := by
  obtain ⟨⟨_, _, _, hr, hphase⟩, hl, hp, rfl⟩ := h
  obtain ⟨hcfg, _, hrun, hport, hphase'⟩ := runOps_frame ms s
  obtain ⟨n, hn, hb⟩ := (finishes_runOps_iff hl hms hr hp).2 ht
  obtain ⟨hlive, hc, hr', hp', hph⟩ := runSteps_waits (hl.runOps hms) (hrun.trans hr) (hport.trans hp) hn
  obtain ⟨_, hf, href, _⟩ := id hlive
  exact ⟨⟨hf, hb, href, hr', hph.trans (hphase'.trans hphase)⟩, hlive, hp', hc.trans hcfg⟩

/-- SCAN_BANK, run until its waits finish, leads where its body does. -/
theorem Ready.scanBank_iff (h : Ready c s) (hb : b < c.numBanks) :
    (∃ v, exec (.scanBank (BitVec.ofNat 8 b)) s = .next v ∧ Finishes v t) ↔ Leads (scanBankBody b) s t := by
  obtain ⟨hopen, hl, hp, rfl⟩ := h
  obtain ⟨_, _, _, hr, _⟩ := id hopen
  have hiff := finishes_runOps_iff (t := t) hl (scanBankBody_good hb) hr hp
  rw [exec_scanBank_ofNat hopen hl hb]
  exact ⟨fun ⟨v, hv, hvt⟩ => hiff.1 (Host.Outcome.next.inj hv ▸ hvt), fun ht => ⟨_, rfl, hiff.2 ht⟩⟩

/-- The banks' bodies in a row lead through a chain of states. -/
theorem leads_banksBody_iff :
    Leads (banksBody n) s t ↔
      ∃ f : Nat → State, f 0 = s ∧ complete (f n) = t ∧ ∀ b < n, Leads (scanBankBody b) (f b) (f (b + 1)) := by
  induction n generalizing t with
  | zero => exact leads_nil.trans ⟨fun h => ⟨fun _ => s, rfl, h, by simp⟩, fun ⟨f, h0, h, _⟩ => h0 ▸ h⟩
  | succ n ih =>
    rw [banksBody_succ, leads_append]
    constructor
    · rintro ⟨u, hu, ht⟩
      obtain ⟨f, h0, rfl, hf⟩ := ih.1 hu
      refine ⟨fun b => if b ≤ n then f b else t, by simpa using h0, by simpa using ht.complete_eq, fun b hb => ?_⟩
      rcases Nat.lt_succ_iff_lt_or_eq.1 hb with hlt | rfl
      · simpa [hlt.le, hlt] using hf b hlt
      · simpa using Leads.congr (u := f b) ht rfl
    · rintro ⟨f, h0, ht, hf⟩
      have hlast := hf n (by omega)
      rw [hlast.complete_eq] at ht
      exact ⟨complete (f n), ih.2 ⟨f, h0, rfl, fun b hb => hf b (by omega)⟩, ht ▸ hlast.congr rfl⟩

/-- A chain of SCAN_BANKs of the port is a chain of their bodies. -/
theorem Ready.chain_iff {f : Nat → State} (h : Ready c (f 0)) (hn : n ≤ c.numBanks) :
    ((∀ b < n, ∃ v, exec (.scanBank (BitVec.ofNat 8 b)) (f b) = .next v ∧ Finishes v (f (b + 1))) ↔
      ∀ b < n, Leads (scanBankBody b) (f b) (f (b + 1))) ∧
    ((∀ b < n, Leads (scanBankBody b) (f b) (f (b + 1))) → Ready c (f n)) := by
  induction n with
  | zero => exact ⟨by simp, fun _ => h⟩
  | succ n ih =>
    obtain ⟨hiff, hready⟩ := ih (by omega)
    simp only [Nat.forall_lt_succ_right]
    refine ⟨⟨fun ⟨hb, hn'⟩ => ?_, fun ⟨hb, hn'⟩ => ?_⟩, fun ⟨hb, hn'⟩ => ?_⟩
    · exact ⟨hiff.1 hb, ((hready (hiff.1 hb)).scanBank_iff hn).1 hn'⟩
    · exact ⟨hiff.2 hb, ((hready hb).scanBank_iff hn).2 hn'⟩
    · have hr := hready hb
      exact hr.leads (scanBankBody_good (hr.cfg.symm ▸ hn)) hn'

/-- Settles O38: with room the banks end in one step each (`exec_scanBank_beforeBank`); with waits SCAN_PASS and the
SCAN_BANKs lead through the same chain of bodies (`leads_banksBody_iff`). -/
theorem scanPassScansEveryBank : Obligations.ScanPassScansEveryBank := by
  refine ⟨fun p hp => by simp [decode, decodePorts, hp], fun s h hl hroom => ?_, fun s h hl hp => ?_⟩
  · obtain ⟨hc, _⟩ := id hl
    obtain ⟨k, hk⟩ := Nat.exists_eq_add_one_of_ne_zero hc.numBanks_pos.ne'
    have hlast : beforeBank s s.cfg.numBanks = runOps (scanPassBody s.cfg) s := by rw [scanPassBody_eq, hk]; rfl
    obtain ⟨_, _, hend⟩ := banksBody_effect hl le_rfl
    obtain ⟨hbank, hchain⟩ := hend hc.numBanks_pos
    obtain ⟨o, hrun, _⟩ := runOps_banksBody_room hl le_rfl hroom
    refine ⟨beforeBank s, rfl, fun b hb => ⟨exec_scanBank_beforeBank h hl hb hroom, ?_⟩,
      hlast ▸ exec_scanPass h hl, ?_, ?_⟩
    · obtain ⟨⟨_, hbusy, _⟩, _⟩ := beforeBank_open h hl (b := b + 1) hb (by omega)
      exact hbusy
    · rw [hlast, scanPassBody_eq, hrun]
      exact hbank
    · rw [hlast, scanPassBody_eq, hrun]
      exact hchain
  · obtain ⟨hc, _⟩ := id hl
    obtain ⟨_, _, _, hr, _⟩ := id h
    obtain ⟨k, hk⟩ := Nat.exists_eq_add_one_of_ne_zero hc.numBanks_pos.ne'
    refine ⟨_, exec_scanPass h hl, fun t => ?_⟩
    rw [finishes_runOps_iff hl (scanPassBody_good _) hr hp, scanPassBody_eq, leads_banksBody_iff]
    refine exists_congr fun f => and_congr_right fun h0 => ?_
    have hready : Ready s.cfg (f 0) := h0.symm ▸ ⟨h, hl, hp, rfl⟩
    rw [(hready.chain_iff le_rfl).1]
    refine and_congr_left fun hf => ?_
    have hdone := (hf k (by omega)).complete_eq
    rw [hk, hdone]

/-! ## LOOP_ITER with room, and a pass that reads nothing -/

theorem drain_count_le (h : OrbGood s.cfg.rbCapacity s.orb) :
    (drain s).2.orb.count s.cfg.rbCapacity ≤ s.orb.count s.cfg.rbCapacity := by
  rcases drain_cases h with ⟨_, e⟩ | ⟨_, _, e⟩ | ⟨hsome, _, b, _, e⟩ <;> rw [e]
  · exact le_rfl
  · obtain ⟨_, hin, hout, _⟩ := h
    have hdrop := Orb.count_drop hin hout hsome
    show (s.orb.drop s.cfg.rbCapacity).count s.cfg.rbCapacity ≤ _
    omega

/-- LOOP_ITER's first statement is its one RB_DRAIN (R291). -/
theorem runOps_loopIterBody (h : Live s) :
    runOps (loopIterBody s.cfg) s = runOps (scanPassBody s.cfg) (drain s).2 :=
  runOps_cons_done (m := .drain) rfl h.drain.fault_eq

theorem PortOpen.drain (h : PortOpen s) (hl : Live s) : PortOpen (drain s).2 := by
  obtain ⟨_, hbusy, hr, hrun, hphase⟩ := h
  refine ⟨hl.drain.fault_eq, ?_⟩
  rw [drain_frame]
  exact ⟨hbusy, hr, hrun, hphase⟩

/-- With room a pass does the same whatever RES holds. -/
theorem runOps_scanPassBody_setRes (h : Live s)
    (hroom : s.orb.count s.cfg.rbCapacity + 48 * s.cfg.numBanks < s.cfg.rbCapacity) (r : Result) :
    runOps (scanPassBody s.cfg) (s.setRes r) = runOps (scanPassBody s.cfg) s := by
  have hleads := leads_of_idle h (scanPassBody_good _) (runOps_scanPassBody_room h hroom)
  have hleads' := leads_of_idle (h.setRes r) (scanPassBody_good _) (runOps_scanPassBody_room (h.setRes r) hroom)
  exact hleads'.unique (hleads.congr rfl)

/-- Settles O40: after the drain both have the pass to run, and with room it ends in one step from either state, which
RES alone tells apart. -/
theorem loopIterDrainsThenScans : Obligations.LoopIterDrainsThenScans := by
  refine ⟨fun p hp => by simp [decode, decodePorts, hp], fun s h hl hroom => ?_⟩
  obtain ⟨_, _, _, _, _, hgood, _⟩ := id hl
  have hcount := drain_count_le hgood
  have hlive := hl.drain
  have hcfg : (drain s).2.cfg = s.cfg := by rw [drain_frame]
  have hroom' : (drain s).2.orb.count (drain s).2.cfg.rbCapacity + 48 * (drain s).2.cfg.numBanks <
      (drain s).2.cfg.rbCapacity := by rw [hcfg]; omega
  have hpass := exec_scanPass (s := (drain s).2.setRes (.bool (drain s).1)) (h.drain hl) hlive
  refine ⟨_, _, exec_rbDrain h rfl hlive.fault_eq, hpass, ?_, ?_⟩
  · rw [exec_loopIter h hl, runOps_loopIterBody hl, ← hcfg]
    exact congrArg _ (runOps_scanPassBody_setRes hlive hroom' _).symm
  · exact runOps_scanPassBody_room (hlive.setRes _) hroom'

/-- Where a body asks to push nothing, its statements' own changes are all it does. -/
theorem runOps_silent (h : Live s) (hms : ScanBody s.cfg ms) (hasked : bodyAsked ms s = []) :
    runOps ms s = complete (bodyEffect ms s) := by
  induction ms generalizing s with
  | nil => rfl
  | cons m ms ih =>
    obtain ⟨hm, hd⟩ := hms m (List.mem_cons_self ..)
    obtain ⟨hnone, hrest⟩ := List.append_eq_nil_iff.1 hasked
    have hdo : doMicro m s = ([], m.effect s) := by rw [doMicro_eq_pushBytes h hm hd, hnone]; rfl
    have hlive := h.doMicro hm
    rw [hdo] at hlive
    rw [runOps_cons_done hdo hlive.fault_eq]
    exact ih hlive (fun x hx => by simpa using hms x (List.mem_cons_of_mem _ hx)) hrest

/-- An Idle key whose contact is open stays as it is, with no event (R169). -/
theorem transition_idle_open {e : KeyEntry} (he : e.st = 0) (line : Line) (time : U32) :
    transition c line e false time = .keep := by
  cases line
  · exact transition_idle_start he false
  · exact transition_idle_end he false

/-- Two masks scripted next are those of a bank's reads, whatever its stamps. -/
theorem Reads.exists_drawn_masks {e : Env} {sb eb : Byte} {masks : List Byte} (h : e.masks = sb :: eb :: masks) :
    ∃ (r : Reads) (e' : Env), r.Drawn e e' ∧ r.sb = sb ∧ r.eb = eb ∧ e'.masks = masks := by
  have h1 : e.drawMask = (sb, { e with masks := eb :: masks, draws := e.draws + 1 }) := by simp [Env.drawMask, h]
  obtain ⟨e2, ht, hm⟩ : ∃ e2, (e.drawMask.2.drawTime).2 = e2 ∧ e2.masks = eb :: masks := ⟨_, rfl, by
    rw [drawTime_snd, h1]⟩
  have h3 : e2.drawMask = (eb, { e2 with masks := masks, draws := e2.draws + 1 }) := by simp [Env.drawMask, hm]
  refine ⟨⟨sb, e.drawMask.2.drawTime.1, eb, e2.drawMask.2.drawTime.1⟩, e2.drawMask.2.drawTime.2,
    ⟨e.drawMask.2, e2, e2.drawMask.2, by rw [h1], by rw [← ht], by rw [h3], rfl⟩, rfl, rfl, ?_⟩
  rw [drawTime_snd, h3]

/-- A bank whose keys are Idle and whose masks are 0x00 has no event, and its keys stay as they are (R169, R290). -/
theorem scanBankBody_quiet {r : Reads} {e' : Env} (hd : r.Drawn s.env e') (hsb : r.sb = 0) (heb : r.eb = 0)
    (hk : ∀ p < 8, keyId b p < s.ks.length) (hidle : ∀ e ∈ s.ks, e.st = 0) :
    bodyEffect (scanBankBody b) s = r.scanned b s.ks e' s ∧ bodyAsked (scanBankBody b) s = [] := by
  obtain ⟨ks', ⟨_, hread, hother⟩, heffect, hasked⟩ := scanBankBody_effect hd hk
  have hget (p : Nat) (hp : p < 8) : s.ks.getD (keyId b p) KeyEntry.initial = s.ks[keyId b p]'(hk p hp) :=
    List.getD_eq_getElem _ _ (hk p hp)
  have hst (p : Nat) (hp : p < 8) : (s.ks.getD (keyId b p) KeyEntry.initial).st = 0 := by
    rw [hget p hp]
    exact hidle _ (List.getElem_mem _)
  have hmid (p : Nat) (hp : p < 8) : r.mid s.cfg b s.ks p = s.ks.getD (keyId b p) KeyEntry.initial := by
    simp only [Reads.mid, atPosition, hsb, buttonDown_zero, entryAfter, transition_idle_open (hst p hp)]
  have hks : ks' = s.ks := by
    refine List.ext_getElem? fun k => ?_
    by_cases hbank : ∃ p < 8, k = keyId b p
    · obtain ⟨p, hp, rfl⟩ := hbank
      rw [hread p hp, hmid p hp, heb, buttonDown_zero, entryAfter, transition_idle_open (hst p hp), hget p hp]
      exact (List.getElem?_eq_getElem _).symm
    · exact hother k fun p hp hkp => hbank ⟨p, hp, hkp⟩
  refine ⟨hks ▸ heffect, hasked.trans ?_⟩
  simp only [Reads.events, List.append_eq_nil_iff, List.flatMap_eq_nil_iff, List.mem_range]
  refine ⟨fun p hp => ?_, fun p hp => ?_⟩
  · simp only [atPosition, hsb, buttonDown_zero, eventBytes, transition_idle_open (hst p hp)]
  · simp only [hmid p hp, heb, buttonDown_zero, eventBytes, transition_idle_open (hst p hp)]

/-- Banks read with masks 0x00 over Idle keys: the masks are drawn, and nothing else that a key depends on changes. -/
theorem banksBody_quiet {masks : List Byte} (h : Live s) (hn : n ≤ s.cfg.numBanks) (hidle : ∀ e ∈ s.ks, e.st = 0)
    (hm : s.env.masks = List.replicate (2 * n) 0 ++ masks) :
    bodyAsked (banksBody n) s = [] ∧ (bodyEffect (banksBody n) s).ks = s.ks ∧
      (bodyEffect (banksBody n) s).env.masks = masks ∧
      (bodyEffect (banksBody n) s).seq.phase = s.seq.phase ∧
      (0 < n → (bodyEffect (banksBody n) s).seq.sb = 0 ∧ (bodyEffect (banksBody n) s).seq.eb = 0) := by
  induction n generalizing masks with
  | zero => exact ⟨rfl, rfl, hm, rfl, fun h0 => absurd h0 (lt_irrefl _)⟩
  | succ n ih =>
    have hm' : s.env.masks = List.replicate (2 * n) 0 ++ 0 :: 0 :: masks := by
      rw [hm, show 2 * (n + 1) = 2 * n + 2 by omega, List.replicate_add, List.append_assoc]
      rfl
    obtain ⟨hasked, hks, hmasks, hphase, _⟩ := ih (by omega) hm'
    obtain ⟨r, e', hd, hsb, heb, he'⟩ := Reads.exists_drawn_masks hmasks
    obtain ⟨heffect, hasked'⟩ := scanBankBody_quiet (b := n) hd hsb heb
      (fun p hp => hks.symm ▸ h.keyId_lt_length hn p hp) (by rwa [hks])
    rw [banksBody_succ, bodyEffect_append, bodyAsked_append, hasked, hasked', heffect]
    exact ⟨rfl, hks, he', hphase, fun _ => ⟨hsb, heb⟩⟩

/-- Settles O39: with nothing asked to push the pass ends in one step at any capacity (`runOps_silent`). -/
theorem quietScanPassChangesNoKey : Obligations.QuietScanPassChangesNoKey := by
  intro s ms h hl hidle hm
  obtain ⟨hc, hf, _⟩ := id hl
  obtain ⟨hasked, hks, hmasks, hphase, hmask⟩ := banksBody_quiet hl le_rfl hidle hm
  obtain ⟨_, _, hend⟩ := banksBody_effect hl le_rfl
  obtain ⟨hsb, heb⟩ := hmask hc.numBanks_pos
  obtain ⟨hbank, hchain⟩ := hend hc.numBanks_pos
  have hfault : (bodyEffect (banksBody s.cfg.numBanks) s).fault = false := by rw [bodyEffect_frame]; exact hf
  refine ⟨_, exec_scanPass h hl, ?_⟩
  rw [scanPassBody_eq, runOps_silent hl (banksBody_scan le_rfl) hasked]
  exact ⟨hks, bodyEffect_orb .., rfl, hfault, rfl, hphase, hbank, hsb, heb, hchain, hmasks⟩

end Sys2Proof.Machine

/-! ## The work of a state, for a body and for the sequencer -/

namespace Sys2Proof.Machine

variable {s q : State}

/-- `s` with nothing left of the fields that R295 does not compare, but CFG and FAULT: what LOOP_ITER and the sequencer
work on. -/
def State.core (s : State) : State :=
  { State.reset with
    cfg := s.cfg, ks := s.ks, orb := s.orb, fault := s.fault, trace := s.trace, chain := s.chain, env := s.env
    seq := { Seq.initial with
      sb := s.seq.sb, st := s.seq.st, eb := s.seq.eb, et := s.seq.et, bank := s.seq.bank } }

theorem beside_core : Beside State.core :=
  ⟨fun _ => rfl, fun _ => rfl, fun _ => rfl, fun _ _ => rfl, fun _ _ => rfl, fun _ => rfl⟩

theorem cfg_of_core (h : s.core = q.core) : s.cfg = q.cfg := (congrArg State.cfg h :)

theorem orb_of_core (h : s.core = q.core) : s.orb = q.orb := (congrArg State.orb h :)

theorem eb_of_core (h : s.core = q.core) : s.seq.eb = q.seq.eb := (congrArg (·.seq.eb) h :)

theorem sameIteration_of_core (h : s.core = q.core) : SameIteration s q :=
  ⟨(congrArg State.ks h).symm, (congrArg State.orb h).symm, (congrArg State.trace h).symm, (congrArg State.env h).symm,
    (congrArg State.chain h).symm, (congrArg (·.seq.sb) h).symm, (congrArg (·.seq.st) h).symm,
    (congrArg (·.seq.eb) h).symm, (congrArg (·.seq.et) h).symm, (congrArg (·.seq.bank) h).symm⟩

theorem drain_core (h : s.core = q.core) : (drain s).2.core = (drain q).2.core := by
  have hs := congrArg Prod.snd (beside_core.drain s)
  have hq := congrArg Prod.snd (beside_core.drain q)
  exact hs.symm.trans (h ▸ hq)

theorem Micro.effect_core (m : Micro) (s : State) : (m.effect s.core).core = (m.effect s).core := by
  cases m with
  | beginPass => simp only [Micro.effect, beginPass_eq]; rfl
  | srStep => simp only [Micro.effect, stepChain_eq]; rfl
  | snapRead w => simp only [Micro.effect, snapRead_eq]; cases w <;> rfl
  | evalEnd b p =>
    have heb : s.core.seq.eb = s.seq.eb := rfl
    simp only [Micro.effect, heb]
    split_ifs <;> rfl
  | push | drain | setBank | setPos | evalStart => rfl

theorem effect_core (m : Micro) (h : s.core = q.core) : (m.effect s).core = (m.effect q).core := by
  rw [← m.effect_core s, h, m.effect_core]

theorem asked_core (m : Micro) (h : s.core = q.core) : m.asked s = m.asked q := by
  have hasked (s : State) : m.asked s.core = m.asked s := by cases m <;> rfl
  rw [← hasked s, h, hasked]

theorem put_core (b : Byte) (h : s.core = q.core) :
    (s.setOrb (s.orb.put s.cfg.rbCapacity b)).core = (q.setOrb (q.orb.put q.cfg.rbCapacity b)).core := by
  rw [cfg_of_core h, orb_of_core h]
  exact congrArg (State.setOrb _) h

/-- The evaluation of a position, in a body and in the sequencer. -/
theorem evaluated_core (line : Line) (b p : Nat) (h : s.core = q.core) :
    ((evalMicro line b p).effect s).core =
      (evaluated line (keyId b p) (buttonDown (q.seq.mask line) p) (q.seq.stamp line) q).core := by
  obtain ⟨r, hr⟩ := effect_evalMicro line b p q
  rw [effect_core _ h, hr]
  rfl

end Sys2Proof.Machine

/-! ## What is still to come for the sequencer -/

namespace Sys2Proof.Machine

variable {s q t u v : State} {c : Cfg} {line : Line} {b p n : Nat} {ms : List Micro}

/-- The bodies of SCAN_BANK for the banks from `b` on. -/
def banksFrom (c : Cfg) (b : Nat) : List Micro := (List.range' b (c.numBanks - b)).flatMap scanBankBody

/-- The statements of a pass from the step after a line's evaluations in bank `b` on. -/
def stepToCome (c : Cfg) : Line → Nat → List Micro
  | .startLine, b => .srStep :: .snapRead .endLine :: ((List.range 8).map (evalMicro .endLine b) ++
      .setPos 8 :: .srStep :: banksFrom c (b + 1))
  | .endLine, b => .srStep :: banksFrom c (b + 1)

/-- The statements of a pass from the evaluation of position `p` of bank `b` at a read of a line on. -/
def evalsToCome (c : Cfg) (line : Line) (b p : Nat) : List Micro :=
  (List.range' p (8 - p)).map (evalMicro line b) ++ .setPos 8 :: stepToCome c line b

/-- The line whose evaluations SEQ.RET resumes. -/
def lineOfRet : RetPhase → Line
  | .startEval => .startLine
  | .endEval => .endLine

/-- The statements of LOOP_ITER that are still to come for the sequencer before P_ITER_DRAIN. -/
def toCome (q : State) : List Micro :=
  match q.seq.phase with
  | .passBegin => banksFrom q.cfg 0
  | .startRead => .snapRead .startLine :: evalsToCome q.cfg .startLine q.seq.bank 0
  | .startEval => evalsToCome q.cfg .startLine q.seq.bank q.seq.pos
  | .stepToEnd => stepToCome q.cfg .startLine q.seq.bank
  | .endRead => .snapRead .endLine :: evalsToCome q.cfg .endLine q.seq.bank 0
  | .endEval => evalsToCome q.cfg .endLine q.seq.bank q.seq.pos
  | .stepToNext => stepToCome q.cfg .endLine q.seq.bank
  | .push => thenPush (unpushed q.seq) (evalsToCome q.cfg (lineOfRet q.seq.ret) q.seq.bank q.seq.pos)
  | .iterDrain => []
  | .init => []
  | .refused => []

theorem banksFrom_zero (c : Cfg) : banksFrom c 0 = scanPassBody c := by
  rw [banksFrom, scanPassBody, List.range_eq_range', Nat.sub_zero]

theorem banksFrom_of_le (h : c.numBanks ≤ b) : banksFrom c b = [] := by
  rw [banksFrom, Nat.sub_eq_zero_of_le h]
  rfl

/-- The statements of a bank's start read are followed by its evaluations. -/
theorem banksFrom_of_lt (h : b < c.numBanks) :
    banksFrom c b = .setBank b :: ((if b = 0 then [.beginPass] else []) ++
      .snapRead .startLine :: evalsToCome c .startLine b 0) := by
  have hsplit : banksFrom c b = scanBankBody b ++ banksFrom c (b + 1) := by
    rw [banksFrom, show c.numBanks - b = (c.numBanks - (b + 1)) + 1 by omega, List.range'_succ, List.flatMap_cons]
    rfl
  rw [hsplit, scanBankBody_eq]
  simp only [opening, turn, closing, evalsToCome, stepToCome, List.range_eq_range', Nat.sub_zero, List.cons_append,
    List.append_assoc, List.nil_append]

theorem evalsToCome_of_lt (h : p < 8) :
    evalsToCome c line b p = evalMicro line b p :: evalsToCome c line b (p + 1) := by
  rw [evalsToCome, show 8 - p = (8 - (p + 1)) + 1 by omega, List.range'_succ, List.map_cons, List.cons_append]
  rfl

theorem evalsToCome_eight : evalsToCome c line b 8 = .setPos 8 :: stepToCome c line b := rfl

theorem evalsToCome_ne_nil : evalsToCome c line b p ≠ [] := by simp [evalsToCome]

/-! What is to come in each phase. -/

theorem toCome_iterDrain (h : q.seq.phase = .iterDrain) : toCome q = [] := by simp only [toCome, h]

theorem toCome_passBegin (h : q.seq.phase = .passBegin) : toCome q = banksFrom q.cfg 0 := by simp only [toCome, h]

theorem toCome_read (h : q.seq.phase = readPhase line) :
    toCome q = .snapRead line :: evalsToCome q.cfg line q.seq.bank 0 := by
  cases line <;> simp only [toCome, h, readPhase]

theorem toCome_eval (h : q.seq.phase = evalPhase line) : toCome q = evalsToCome q.cfg line q.seq.bank q.seq.pos := by
  cases line <;> simp only [toCome, h, evalPhase]

theorem toCome_step (h : q.seq.phase = stepPhase line) : toCome q = stepToCome q.cfg line q.seq.bank := by
  cases line <;> simp only [toCome, h, stepPhase]

theorem toCome_push (h : q.seq.phase = .push) :
    toCome q = thenPush (unpushed q.seq) (evalsToCome q.cfg (lineOfRet q.seq.ret) q.seq.bank q.seq.pos) := by
  simp only [toCome, h]

/-- Away from P_ITER_DRAIN something is still to come. -/
theorem toCome_ne_nil (h : Live q) (hp : q.seq.phase ≠ .iterDrain) : toCome q ≠ [] := by
  obtain ⟨hc, _, _, hinit, hrefused, _⟩ := h
  cases hphase : q.seq.phase with
  | iterDrain => exact absurd hphase hp
  | init => exact absurd hphase hinit
  | refused => exact absurd hphase hrefused
  | passBegin => rw [toCome_passBegin hphase, banksFrom_of_lt hc.numBanks_pos]; exact List.cons_ne_nil _ _
  | startRead => rw [toCome_read (line := .startLine) hphase]; exact List.cons_ne_nil _ _
  | endRead => rw [toCome_read (line := .endLine) hphase]; exact List.cons_ne_nil _ _
  | startEval => rw [toCome_eval (line := .startLine) hphase]; exact evalsToCome_ne_nil
  | endEval => rw [toCome_eval (line := .endLine) hphase]; exact evalsToCome_ne_nil
  | stepToEnd => rw [toCome_step (line := .startLine) hphase]; exact List.cons_ne_nil _ _
  | stepToNext => rw [toCome_step (line := .endLine) hphase]; exact List.cons_ne_nil _ _
  | push =>
    rw [toCome_push hphase]
    cases unpushed q.seq with
    | nil => exact evalsToCome_ne_nil
    | cons b bs => exact List.cons_ne_nil _ _

/-! ## A row of the sequencer is some steps of the body still to come -/

/-- The sequencer has a step from `q`, and the body that was still to come for it, run from `s` with the same work done,
goes on to what is then still to come, with the same work done again. -/
def StepsWith (q s : State) : Prop :=
  ∃ v k s', seqStep q = .next v ∧ bodyStep^[k + 1] (toCome q, s) = (toCome v, s') ∧ s'.core = v.core

/-- With EB = 0x00 the end evaluations do nothing (R136). -/
theorem iterate_evalsToCome_skip (c : Cfg) (h : s.seq.eb = 0) (hn : p + n = 8) :
    bodyStep^[n] (evalsToCome c .endLine b p, s) = (evalsToCome c .endLine b 8, s) := by
  induction n generalizing p with
  | zero =>
    obtain rfl : p = 8 := hn
    rfl
  | succ n ih =>
    have hskip : bodyStep (evalMicro .endLine b p :: evalsToCome c .endLine b (p + 1), s)
        = (evalsToCome c .endLine b (p + 1), s) := by
      simp [bodyStep, evalMicro, Micro.asked, Micro.effect, h, thenPush]
    rw [evalsToCome_of_lt (by omega), Function.iterate_succ_apply, hskip, ih (by omega)]

theorem stepsWith_passBegin (h : s.core = q.core) (hl : Live q) (hp : q.seq.phase = .passBegin) : StepsWith q s := by
  obtain ⟨hc, _⟩ := hl
  have hbank : (s.setBank 0).core = (q.setBank 0).core := effect_core (.setBank 0) h
  have hwork : (beginPass (s.setBank 0)).core = (beginPass (q.setBank 0)).core := effect_core .beginPass hbank
  refine ⟨_, 1, beginPass (s.setBank 0), seqStep_passBegin hp, ?_, hwork⟩
  rw [toCome_passBegin hp, banksFrom_of_lt hc.numBanks_pos, if_pos rfl, Function.iterate_succ_apply, bodyStep_setBank,
    Function.iterate_one, List.singleton_append, bodyStep_beginPass, toCome_read (line := .startLine) rfl,
    beginPass_eq (q.setBank 0)]
  rfl

theorem stepsWith_startRead (h : s.core = q.core) (hp : q.seq.phase = .startRead) : StepsWith q s := by
  refine ⟨_, 0, (snapRead .startLine s).2, seqStep_startRead hp, ?_, effect_core (.snapRead .startLine) h⟩
  rw [toCome_read (line := .startLine) hp, toCome_eval (line := .startLine) rfl, snapRead_eq .startLine q]
  rfl

theorem stepsWith_eval_end (h : s.core = q.core) (hp : q.seq.phase = evalPhase line) (h8 : q.seq.pos = 8) :
    StepsWith q s := by
  refine ⟨_, 0, s.setPos 8, seqStep_eval_end hp h8, ?_, h⟩
  rw [toCome_eval hp, h8, evalsToCome_eight, toCome_step rfl]
  rfl

theorem stepsWith_eval_key (h : s.core = q.core) (hl : Live q) (hp : q.seq.phase = evalPhase line)
    (hpos : q.seq.pos < 8) : StepsWith q s := by
  obtain ⟨msg, hmsg, hstep⟩ := seqStep_eval_key hl hp hpos
  have hasked : (evalMicro line q.seq.bank q.seq.pos).asked s = messageBytes msg := by
    rw [asked_core _ h, asked_evalMicro, hmsg]
  have hbody : bodyStep (toCome q, s) =
      (thenPush (messageBytes msg) (evalsToCome q.cfg line q.seq.bank (q.seq.pos + 1)),
        (evalMicro line q.seq.bank q.seq.pos).effect s) := by
    rw [toCome_eval hp, evalsToCome_of_lt hpos, ← hasked]
    exact bodyStep_effect (by cases line <;> simp [evalMicro]) (by cases line <;> simp [evalMicro])
  refine ⟨_, 0, _, hstep, hbody.trans (Prod.ext ?_ rfl), ?_⟩
  · cases msg with
    | none =>
      refine Eq.symm ((toCome_eval (line := line) ?_).trans rfl)
      exact hp
    | some m => cases line <;> rfl
  · rw [evaluated_core line _ _ h]
    cases msg <;> rfl

theorem stepsWith_stepToEnd (h : s.core = q.core) (hp : q.seq.phase = .stepToEnd) : StepsWith q s := by
  refine ⟨_, 0, stepChain s, seqStep_stepToEnd hp, ?_, effect_core .srStep h⟩
  rw [toCome_step (line := .startLine) hp, toCome_read (line := .endLine) rfl, stepChain_eq q]
  rfl

theorem stepsWith_endRead (h : s.core = q.core) (hp : q.seq.phase = .endRead) : StepsWith q s := by
  have hread : bodyStep (toCome q, s) = (evalsToCome q.cfg .endLine q.seq.bank 0, (snapRead .endLine s).2) := by
    rw [toCome_read (line := .endLine) hp]
    rfl
  have hwork : (snapRead .endLine s).2.core = (snapRead .endLine q).2.core := effect_core (.snapRead .endLine) h
  have hnext (r : Nat) : toCome (((snapRead .endLine q).2.setPos r).setPhase .endEval) =
      evalsToCome q.cfg .endLine q.seq.bank r := by
    rw [toCome_eval (line := .endLine) rfl, snapRead_eq]
    rfl
  by_cases hz : (snapRead .endLine q).2.seq.eb = 0
  · refine ⟨_, 8, _, seqStep_endRead hp, ?_, hwork⟩
    rw [Function.iterate_succ_apply, hread, if_pos hz, hnext,
      iterate_evalsToCome_skip q.cfg ((eb_of_core hwork).trans hz) rfl]
  · refine ⟨_, 0, _, seqStep_endRead hp, ?_, hwork⟩
    rw [if_neg hz, hnext]
    exact hread

theorem stepsWith_stepToNext (h : s.core = q.core) (hl : Live q) (hp : q.seq.phase = .stepToNext) : StepsWith q s := by
  have hstep : bodyStep (toCome q, s) = (banksFrom q.cfg (q.seq.bank + 1), stepChain s) := by
    rw [toCome_step (line := .endLine) hp]
    rfl
  have hwork : (stepChain s).core = (stepChain q).core := effect_core .srStep h
  have hseq := seqStep_stepToNext hl hp
  by_cases hnext : q.seq.bank + 1 < q.cfg.numBanks
  · rw [if_pos hnext] at hseq
    rw [banksFrom_of_lt hnext, if_neg (Nat.succ_ne_zero _)] at hstep
    refine ⟨_, 1, (stepChain s).setBank (q.seq.bank + 1), hseq, ?_,
      effect_core (q := stepChain q) (.setBank (q.seq.bank + 1)) hwork⟩
    rw [Function.iterate_succ_apply, hstep, Function.iterate_one, List.nil_append, bodyStep_setBank,
      toCome_read (line := .startLine) rfl, stepChain_eq q]
    rfl
  · rw [if_neg hnext] at hseq
    rw [banksFrom_of_le (by omega)] at hstep
    refine ⟨_, 0, stepChain s, hseq, ?_, hwork⟩
    rw [toCome_iterDrain (q := (stepChain q).setPhase .iterDrain) rfl]
    exact hstep

theorem stepsWith_push (h : s.core = q.core) (hl : Live q) (hp : q.seq.phase = .push) : StepsWith q s := by
  obtain ⟨_, _, _, _, _, _, _, ⟨_, _, hn, hpush⟩, _⟩ := id hl
  have hn1 := hpush hp
  have hsame : s.orb.isFull s.cfg.rbCapacity = q.orb.isFull q.cfg.rbCapacity := by rw [orb_of_core h, cfg_of_core h]
  cases hfull : q.orb.isFull q.cfg.rbCapacity with
  | true =>
    obtain ⟨b, hb⟩ := q.seq.msg.byte_of_lt (i := 3 - q.seq.msgN) (by omega)
    have hsame' : toCome (drain q).2 = toCome q := by rw [drain_frame]; rfl
    refine ⟨_, 0, (drain s).2, seqStep_push_full hl hp hfull, ?_, drain_core h⟩
    rw [hsame', toCome_push hp, unpushed_eq_cons hn1 hn hb .push]
    exact bodyStep_push_full (hsame.trans hfull)
  | false =>
    obtain ⟨b, hb, hstep⟩ := seqStep_push_room hl hp hfull
    refine ⟨_, 0, s.setOrb (s.orb.put s.cfg.rbCapacity b), hstep, ?_, put_core b h⟩
    rw [toCome_push hp, unpushed_eq_cons hn1 hn hb q.seq.afterByte.phase]
    refine (bodyStep_push_room (hsame.trans hfull)).trans (Prod.ext ?_ rfl)
    by_cases hlast : q.seq.msgN = 1
    · have hphase : q.seq.afterByte.phase = evalPhase (lineOfRet q.seq.ret) := by
        rw [Seq.afterByte, if_pos hlast]
        cases q.seq.ret <;> rfl
      rw [toCome_eval (line := lineOfRet q.seq.ret) hphase, unpushed_of_msgN_zero (by simp [hlast])]
      rfl
    · rw [toCome_push (if_neg hlast)]
      rfl

/-- Every row but P_ITER_DRAIN is one step or more of the body that is still to come (R295). -/
theorem stepsWith_of_core (h : s.core = q.core) (hl : Live q) (hp : q.seq.phase ≠ .iterDrain) : StepsWith q s := by
  obtain ⟨_, _, _, hinit, hrefused, _, _, ⟨_, hpos, _⟩, _⟩ := id hl
  have heval (line : Line) (hphase : q.seq.phase = evalPhase line) : StepsWith q s := by
    rcases Nat.lt_or_eq_of_le hpos with hlt | h8
    · exact stepsWith_eval_key h hl hphase hlt
    · exact stepsWith_eval_end h hphase h8
  cases hphase : q.seq.phase with
  | init => exact absurd hphase hinit
  | refused => exact absurd hphase hrefused
  | iterDrain => exact absurd hphase hp
  | passBegin => exact stepsWith_passBegin h hl hphase
  | startRead => exact stepsWith_startRead h hphase
  | startEval => exact heval .startLine hphase
  | stepToEnd => exact stepsWith_stepToEnd h hphase
  | endRead => exact stepsWith_endRead h hphase
  | endEval => exact heval .endLine hphase
  | stepToNext => exact stepsWith_stepToNext h hl hphase
  | push => exact stepsWith_push h hl hphase

end Sys2Proof.Machine

/-! ## One turn of the sequencer -/

namespace Sys2Proof.Machine

variable {s q t u v : State} {ms : List Micro} {n : Nat}

/-- RUN has been given in a live state (R296). -/
structure Running (q : State) : Prop where
  live : Live q
  running : q.running = true
  busy : q.busy = []

theorem Running.step (h : Running q) : step q = seqStep q := step_of_running h.live.fault_eq h.busy h.running

theorem Running.next (h : Running q) (hs : seqStep q = .next v) : Running v := by
  obtain ⟨hrun, hbusy⟩ := seqStep_sameControl hs
  exact ⟨h.live.seqStep hs, hrun.trans h.running, hbusy.trans h.busy⟩

/-- The sequencer's steps from `q` first reach P_ITER_DRAIN in `u`. -/
inductive Returns : State → State → Prop
  | last {q u : State} (hs : seqStep q = .next u) (hu : u.seq.phase = .iterDrain) : Returns q u
  | more {q v u : State} (hs : seqStep q = .next v) (hv : v.seq.phase ≠ .iterDrain) (h : Returns v u) : Returns q u

theorem runSteps_succ_of_seqStep (h : Running q) (hs : seqStep q = .next v) (n : Nat) :
    runSteps (n + 1) q = runSteps n v := by
  rw [runSteps, h.step, hs]

/-- A first return, by the steps on the way (R295). -/
theorem returns_iff (h : Running q) :
    Returns q u ↔ ∃ m, runSteps (m + 1) q = .next u ∧ u.seq.phase = .iterDrain ∧
      ∀ j < m, ∀ v, runSteps (j + 1) q = .next v → v.seq.phase ≠ .iterDrain := by
  constructor
  · intro hr
    induction hr with
    | last hs hu => exact ⟨0, runSteps_succ_of_seqStep h hs 0, hu, fun j hj => absurd hj (Nat.not_lt_zero j)⟩
    | more hs hv _ ih =>
      obtain ⟨m, hm, hu, hfirst⟩ := ih (h.next hs)
      refine ⟨m + 1, (runSteps_succ_of_seqStep h hs _).trans hm, hu, fun j hj w hw => ?_⟩
      rw [runSteps_succ_of_seqStep h hs] at hw
      cases j with
      | zero => exact Host.Outcome.next.inj hw ▸ hv
      | succ j => exact hfirst j (Nat.lt_of_succ_lt_succ hj) w hw
  · rintro ⟨m, hm, hu, hfirst⟩
    induction m generalizing q with
    | zero =>
      refine .last ?_ hu
      rw [runSteps, h.step] at hm
      split at hm <;> simp_all [runSteps]
    | succ m ih =>
      obtain ⟨v, hs⟩ : ∃ v, seqStep q = .next v := by
        rw [runSteps, h.step] at hm
        split at hm
        · exact ⟨_, ‹_›⟩
        · cases hm
        · cases hm
      have hrest := runSteps_succ_of_seqStep h hs
      rw [hrest] at hm
      exact .more hs (hfirst 0 (Nat.succ_pos m) v (hrest 0)) (ih (h.next hs) hm fun j hj w hw =>
        hfirst (j + 1) (Nat.succ_lt_succ hj) w ((hrest _).trans hw))

/-- Where the sequencer returns, the body that was to come ends. -/
theorem ends_of_returns (h : s.core = q.core) (hr : Running q) (hp : q.seq.phase ≠ .iterDrain) (hret : Returns q u) :
    ∃ n t, bodyStep^[n] (toCome q, s) = ([], t) ∧ t.core = u.core := by
  induction hret generalizing s with
  | last hs hu =>
    obtain ⟨v, k, s', hv, hk, hwork⟩ := stepsWith_of_core h hr.live hp
    obtain rfl := Host.Outcome.next.inj (hs.symm.trans hv)
    exact ⟨k + 1, s', toCome_iterDrain hu ▸ hk, hwork⟩
  | more hs hv' _ ih =>
    obtain ⟨v, k, s', hv, hk, hwork⟩ := stepsWith_of_core h hr.live hp
    obtain rfl := Host.Outcome.next.inj (hs.symm.trans hv)
    obtain ⟨n, t, hn, ht⟩ := ih hwork (hr.next hs) hv'
    exact ⟨n + (k + 1), t, by rw [Function.iterate_add_apply, hk, hn], ht⟩

/-- Where the body that is to come ends, the sequencer returns. -/
theorem returns_of_ends (h : s.core = q.core) (hr : Running q) (hp : q.seq.phase ≠ .iterDrain)
    (hn : bodyStep^[n] (toCome q, s) = ([], t)) : ∃ u, Returns q u ∧ t.core = u.core := by
  induction n using Nat.strong_induction_on generalizing q s with
  | _ n ih =>
    obtain ⟨v, k, s', hv, hk, hwork⟩ := stepsWith_of_core h hr.live hp
    have hrest := iterate_bodyStep_sub (k + 1) hn
    rw [hk] at hrest
    by_cases hlast : v.seq.phase = .iterDrain
    · rw [toCome_iterDrain hlast, iterate_bodyStep_nil] at hrest
      obtain ⟨_, rfl⟩ := Prod.ext_iff.1 hrest
      exact ⟨v, .last hv hlast, hwork⟩
    · have hpos : n ≠ 0 := by
        rintro rfl
        exact toCome_ne_nil hr.live hp (Prod.ext_iff.1 hn).1
      obtain ⟨u, hu, ht⟩ := ih (n - (k + 1)) (by omega) hwork (hr.next hv) hlast hrest
      exact ⟨u, .more hv hlast hu, ht⟩

/-- LOOP_ITER finishes where its pass ends after the drain attempt. -/
theorem finishes_loopIter_iff (h : PortOpen s) (hl : Live s) (hport : s.port = []) :
    Finishes (runOps (loopIterBody s.cfg) s) t ↔ Leads (scanPassBody s.cfg) (drain s).2 t := by
  obtain ⟨_, _, _, hrun, _⟩ := h
  rw [finishes_runOps_iff hl (loopIterBody_good _) hrun hport]
  exact ⟨fun ⟨n, hn⟩ => ⟨n - 1, hn.sub (k := 1) rfl⟩, fun ⟨n, hn⟩ => ⟨n + 1, LeadsIn.add (k := 1) hn rfl⟩⟩

/-- The state in which the sequencer, run from P_ITER_DRAIN in `s`, begins its pass (R292). -/
def passStart (s : State) : State := (drain { s with running := true }).2.setPhase .passBegin

theorem seqStep_passStart (h : PortOpen s) (hl : Live s) :
    seqStep { s with running := true } = .next (passStart s) := by
  obtain ⟨_, _, _, _, hphase⟩ := h
  exact seqStep_iterDrain (s := { s with running := true }) hl hphase

theorem running_passStart (h : PortOpen s) (hl : Live s) : Running (passStart s) := by
  obtain ⟨_, hbusy, _⟩ := id h
  exact Running.next (q := { s with running := true }) ⟨hl, rfl, hbusy⟩ (seqStep_passStart h hl)

theorem passStart_phase (s : State) : (passStart s).seq.phase ≠ .iterDrain := by simp [passStart]

theorem passStart_core (s : State) : (drain s).2.core = (passStart s).core :=
  drain_core (q := { s with running := true }) rfl

/-- The pass is what is to come for the sequencer. -/
theorem toCome_passStart (s : State) : toCome (passStart s) = scanPassBody s.cfg := by
  rw [toCome_passBegin rfl, passStart, drain_frame]
  exact banksFrom_zero _

/-- The sequencer's first return from `s` is its return from the beginning of its pass. -/
theorem firstReturn_iff (h : PortOpen s) (hl : Live s) : FirstReturn s u ↔ Returns (passStart s) u := by
  obtain ⟨_, hbusy, _⟩ := id h
  have hstep := seqStep_passStart h hl
  have hrunning : Running { s with running := true } := ⟨hl, rfl, hbusy⟩
  refine (returns_iff hrunning).symm.trans ⟨fun hr => ?_, .more hstep (passStart_phase s)⟩
  cases hr with
  | last hs hu =>
    obtain rfl := Host.Outcome.next.inj (hstep.symm.trans hs)
    exact absurd hu (passStart_phase s)
  | more hs _ hr =>
    obtain rfl := Host.Outcome.next.inj (hstep.symm.trans hs)
    exact hr

/-- Settles O59: after the drain attempt they share, LOOP_ITER has its pass to run, which is what is to come for the
sequencer; so each ends where the other does. -/
theorem loopIterMatchesTheSequencer : Obligations.LoopIterMatchesTheSequencer := by
  intro s h hl hp
  have hcore := passStart_core s
  have hrunning := running_passStart h hl
  have hphase := passStart_phase s
  refine ⟨_, exec_loopIter h hl, fun t ht => ?_, fun u hu => ?_⟩
  · obtain ⟨n, v, hn, rfl⟩ := (finishes_loopIter_iff h hl hp).1 ht
    obtain ⟨u, hu, hsame⟩ := returns_of_ends hcore hrunning hphase (toCome_passStart s ▸ hn)
    exact ⟨u, (firstReturn_iff h hl).2 hu, sameIteration_of_core (s := complete v) hsame⟩
  · obtain ⟨n, v, hn, hsame⟩ := ends_of_returns hcore hrunning hphase ((firstReturn_iff h hl).1 hu)
    exact ⟨complete v, (finishes_loopIter_iff h hl hp).2 ⟨n, v, toCome_passStart s ▸ hn, rfl⟩,
      sameIteration_of_core (s := complete v) hsame⟩

end Sys2Proof.Machine

/-! # Proofs: the exceptions (spec/60_exceptions.md)

The table of R325 agrees with the model's checks row by row (`firstFailure_configChecks`), and the three ways INIT runs
before it has run once all answer `initialise`. A model fault is met by operations that test before they write, or that
`orFault` undoes, so each of them faults alone (`FaultsAlone`). -/

/-! ## INIT and the table of R325 -/

namespace Sys2Proof.Machine

variable {s : State} {c : Cfg} {code : Byte} {ok : Bool} {checks : List (Byte × Bool)} {r : Option Byte}

/-- One row of R325: its code where its "fails when" holds, else what the later rows give. -/
theorem firstFailure_cons {p : Prop} [Decidable p] (hp : ok = false ↔ p) (hr : firstFailure checks = r) :
    firstFailure ((code, ok) :: checks) = if p then some code else r := by
  subst hr
  cases ok with
  | true => rw [if_neg fun h => Bool.noConfusion (hp.2 h)]; rfl
  | false => rw [if_pos (hp.1 rfl)]; rfl

/-- The first check of INIT that fails is the first row of R325 that fails. -/
theorem firstFailure_configChecks (c : Cfg) : firstFailure (configChecks c) = refusalCode c := by
  have hbanks : decide (1 ≤ c.numBanks) = false ↔ c.numBanks < 1 := by simp
  have hkeys : decide (c.keysPerBank = 8) = false ↔ c.keysPerBank ≠ 8 := by simp
  have hnote : (decide (0 ≤ c.noteOffset) && decide (c.noteOffset + (c.numKeys : Int) - 1 ≤ 127)) = false ↔
      c.noteOffset < 0 ∨ c.noteOffset + (c.numBanks * c.keysPerBank : Nat) - 1 > 127 := by
    simp only [Bool.and_eq_false_iff, decide_eq_false_iff_not]
    exact or_congr not_le not_le
  have hcap : decide (1 < c.rbCapacity) = false ↔ c.rbCapacity ≤ 1 := by simp
  have htime : decide (c.minKeyTimeUs.toNat < c.maxKeyTimeUs.toNat) = false ↔ c.minKeyTimeUs ≥ c.maxKeyTimeUs := by
    simp [BitVec.le_def]
  have hvelocity : (decide (1 ≤ c.minVelocity) && decide (c.minVelocity ≤ c.maxVelocity) &&
        decide (c.maxVelocity ≤ 127)) = false ↔
      ¬(1 ≤ c.minVelocity ∧ c.minVelocity ≤ c.maxVelocity ∧ c.maxVelocity ≤ 127) := by
    simp
  have hchannel : decide (c.midiChannel ≤ 15) = false ↔ c.midiChannel > 15 := by simp
  have hdebounce : (decide (0 ≤ c.debounceUs) && decide (c.debounceUs < 4294967296)) = false ↔
      c.debounceUs < 0 ∨ c.debounceUs ≥ 2 ^ 32 := by
    simp only [Bool.and_eq_false_iff, decide_eq_false_iff_not]
    exact or_congr not_le not_lt
  have hpins : (decide c.pins.Nodup && decide (c.srResetActive ≤ 1)) = false ↔
      ¬c.pins.Nodup ∨ (c.srResetActive ≠ 0 ∧ c.srResetActive ≠ 1) := by
    simp only [Bool.and_eq_false_iff, decide_eq_false_iff_not]
    exact or_congr_right (by omega)
  exact firstFailure_cons hbanks <| firstFailure_cons hkeys <| firstFailure_cons hnote <| firstFailure_cons hcap <|
    firstFailure_cons htime <| firstFailure_cons hvelocity <| firstFailure_cons hchannel <|
    firstFailure_cons hdebounce <| firstFailure_cons hpins rfl

/-- INIT with a configuration that a row of R325 refuses. -/
theorem initialise_of_refusalCode (h : refusalCode s.cfg = some code) :
    initialise s = { s with
      trace := s.trace ++ [.refused code], refused := true, seq := { s.seq with phase := .refused } } := by
  rw [initialise, firstFailure_configChecks, h]
  rfl

/-- INIT at the command port, before it has run once (R361). -/
theorem BeforeInit.exec_init (h : BeforeInit s) : exec .init s = .next ((Machine.initialise s).setRes .none) := by
  obtain ⟨hphase, hfault, hrefused, hbusy, _, hrun⟩ := h
  simp [exec, execInit, hphase, hfault, hrefused, hbusy, hrun]

theorem seqStep_init (hp : s.seq.phase = .init) : seqStep s = .next (initialise s) := by simp only [seqStep, hp]

/-- The machine's step before INIT, with no command offered: the sequencer's INIT, after which it runs if it was not
refused (R360, log 8). -/
theorem BeforeInit.step_idle (h : BeforeInit s) (hport : s.port = []) :
    Machine.step s = .next { Machine.initialise s with running := !(Machine.initialise s).refused } := by
  obtain ⟨hphase, hfault, _, hbusy, _, hrun⟩ := h
  simp [Machine.step, stepIdle, hphase, hfault, hbusy, hrun, hport]

/-- Settles O43: the checks are the table (`firstFailure_configChecks`), and INIT is `initialise` wherever it runs. -/
theorem initRefusesTheFirstFailingCheck : Obligations.InitRefusesTheFirstFailingCheck := by
  refine ⟨fun c => by rw [ConfigOk, firstFailure_configChecks], fun s code h hcode => ?_⟩
  obtain ⟨hphase, _, _, _, _, hrun⟩ := id h
  have hinit := initialise_of_refusalCode hcode
  refine ⟨?_, ?_, fun hport => ?_⟩
  · rw [h.exec_init, hinit]
    rfl
  · rw [seqStep_init hphase, hinit]
  · simp [h.step_idle hport, hinit, hrun]

end Sys2Proof.Machine

/-! ## A model fault -/

namespace Sys2Proof.Machine

variable {s t u : State}

/-- If the operation that leads from `s` to `t` faults, FAULT is all it changes (R326). -/
def FaultsAlone (s t : State) : Prop := t.fault = true → t = s.raiseFault

theorem FaultsAlone.of_ok (h : t.fault = false) : FaultsAlone s t := fun h' => by simp [h] at h'

theorem FaultsAlone.raiseFault (s : State) : FaultsAlone s s.raiseFault := fun _ => rfl

theorem FaultsAlone.orFault (s t : State) : FaultsAlone s (s.orFault t) := by
  rcases orFault_cases s t with ⟨hok, e⟩ | ⟨_, e⟩ <;> rw [e]
  · exact .of_ok hok
  · exact .raiseFault s

/-- An operation goes on to `u` only where it has not faulted. -/
theorem FaultsAlone.ite (h : FaultsAlone s t) (hu : t.fault = false → FaultsAlone s u) :
    FaultsAlone s (if t.fault then t else u) := by
  split_ifs with ht
  · exact h
  · exact hu (Bool.eq_false_of_not_eq_true ht)

/-! The parts of an operation that cannot fault. -/

theorem beginPass_fault (s : State) : (beginPass s).fault = s.fault := by rw [beginPass_eq]

theorem stepChain_fault (s : State) : (stepChain s).fault = s.fault := by rw [stepChain_eq]

theorem snapRead_fault (w : Line) (s : State) : (snapRead w s).2.fault = s.fault := by rw [snapRead_eq]

theorem initialise_fault (s : State) : (initialise s).fault = s.fault := by
  rcases initialise_cases s with ⟨_, _, e⟩ | ⟨_, e⟩ <;> rw [e]

/-! The parts that can. -/

theorem tryPop_faultsAlone (hf : s.fault = false) : FaultsAlone s (tryPop s).2 := by
  rcases tryPop_any s with h | h | ⟨b, h⟩ <;> rw [h]
  · exact .of_ok hf
  · exact .raiseFault s
  · exact .of_ok hf

theorem drain_faultsAlone (hf : s.fault = false) : FaultsAlone s (drain s).2 := drain_fault hf

theorem evaluate_faultsAlone {line : Line} {k : Byte} {d : Bool} {time : U32} (hf : s.fault = false) :
    FaultsAlone s (evaluate line k d time s) :=
  .ite (evalKey_fault hf) fun _ => .orFault s _

/-- No command the port accepts keeps anything it did where it faults. -/
theorem Effect.faultsAlone (hf : s.fault = false) (h : Effect s t) : FaultsAlone s t := by
  cases h with
  | result r => exact .of_ok hf
  | fault => exact .raiseFault s
  | beginPass => exact .of_ok ((beginPass_fault s).trans hf)
  | srStep => exact .of_ok ((stepChain_fault s).trans hf)
  | snapRead w r => exact .of_ok ((snapRead_fault w s).trans hf)
  | body ms => exact .orFault s _
  | evaluate line k d time => exact evaluate_faultsAlone hf
  | tryPop r => exact .ite (tryPop_faultsAlone hf) fun hok => .of_ok hok
  | drain r => exact .ite (drain_faultsAlone hf) fun hok => .of_ok hok
  | run => exact .of_ok hf

theorem exec_faultsAlone {i : Instr} (hf : s.fault = false) (h : exec i s = .next t) : FaultsAlone s t := by
  rcases exec_next h with ⟨_, rfl⟩ | ⟨_, _, he⟩
  · exact .of_ok ((initialise_fault s).trans hf)
  · exact he.faultsAlone hf

/-! The sequencer tests each index before it uses it (R293). -/

theorem seqEval_faultsAlone {line : Line} {mask : Byte} {time : U32} {ret : RetPhase} {after : Phase}
    (hf : s.fault = false) : FaultsAlone s (seqEval line mask time ret after s) := by
  simp only [seqEval]
  split
  · exact .of_ok hf
  · split
    · refine .ite (evalKey_fault hf) fun hok => ?_
      split <;> exact .of_ok hok
    · exact .raiseFault s

theorem seqPush_faultsAlone (hf : s.fault = false) : FaultsAlone s (seqPush s) := by
  unfold seqPush
  split
  · split
    · exact drain_faultsAlone hf
    · split
      · exact .of_ok hf
      · exact .raiseFault s
  · exact .raiseFault s

theorem seqNextBank_faultsAlone (hf : s.fault = false) : FaultsAlone s (seqNextBank s) := by
  have hchain := (stepChain_fault s).trans hf
  simp only [seqNextBank]
  split_ifs
  · exact .of_ok hchain
  · exact .of_ok hchain
  · exact .raiseFault s

theorem seqStep_faultsAlone (hf : s.fault = false) (h : seqStep s = .next t) : FaultsAlone s t := by
  cases hp : s.seq.phase <;> simp only [seqStep, hp, Host.Outcome.next.injEq, reduceCtorEq] at h <;> subst h
  case init => exact .of_ok ((initialise_fault s).trans hf)
  case iterDrain => exact .ite (drain_faultsAlone hf) fun hok => .of_ok hok
  case passBegin => exact .of_ok (by simp [beginPass_fault, hf])
  case startRead => exact .of_ok (by simp [snapRead_fault, hf])
  case startEval => exact seqEval_faultsAlone hf
  case stepToEnd => exact .of_ok ((stepChain_fault s).trans hf)
  case endRead => exact .of_ok (by simp [snapRead_fault, hf])
  case endEval => exact seqEval_faultsAlone hf
  case stepToNext => exact seqNextBank_faultsAlone hf
  case push => exact seqPush_faultsAlone hf

/-- Settles O60: each kind of step faults alone, a command from the state with itself off the port. -/
theorem aFaultMakesNoOtherChange : Obligations.AFaultMakesNoOtherChange := by
  intro s t h hfault
  obtain ⟨hf, hstep⟩ := step_next h
  rcases hstep with ⟨_, rfl⟩ | ⟨_, _, hseq⟩ | ⟨_, _, w, rest, i, _, _, hexec⟩ | ⟨_, _, _, _, rfl⟩
  · rw [FaultsAlone.orFault s _ hfault]
    rfl
  · rw [seqStep_faultsAlone hf hseq hfault]
    rfl
  · rw [exec_faultsAlone (s := { s with port := rest }) hf hexec hfault]
    rfl
  · have hok := (initialise_fault s).trans hf
    simp [hok] at hfault

end Sys2Proof.Machine

/-! # Proofs: reset (spec/70_reset_and_hazards.md)

INIT with a legal configuration, as the state it writes; the port and the sequencer both reach it through `initialise`. -/

namespace Sys2Proof.Machine

variable {s : State}

/-- INIT with a configuration that passes every check of R325 (R361). -/
theorem ConfigOk.initialise_eq (h : ConfigOk s.cfg) :
    initialise s = { s with
      ks := List.replicate (s.cfg.numBanks * 8) { st := 0, pt := 0 }
      orb := { s.orb with inIdx := 0, outIdx := 0 }
      seq := Seq.initial
      trace := s.trace ++ initTrace s.cfg } := by
  rcases initialise_cases s with ⟨code, hfail, _⟩ | ⟨_, hinit⟩
  · exact absurd (hfail.symm.trans h) (Option.some_ne_none code)
  · rw [hinit, h.numKeys]
    rfl

/-- Settles O42: the state is `ConfigOk.initialise_eq`'s; the port's INIT adds RES (`BeforeInit.exec_init`), the
sequencer's the running bit, as it was not refused (`BeforeInit.step_idle`). -/
theorem initWritesTheInitialState : Obligations.InitWritesTheInitialState := by
  refine ⟨fun p hp => by simp [decode, decodePorts, hp], fun s h hc => ⟨_, rfl, ?_, fun hport => ?_⟩⟩
  · rw [h.exec_init, hc.initialise_eq]
    rfl
  · obtain ⟨_, _, hrefused, _⟩ := id h
    rw [h.step_idle hport, hc.initialise_eq, hrefused]
    rfl

end Sys2Proof.Machine
